-- ==== Sys2Proof/Word.lean ====
section
/-! DEFINITION. The widths of the block (spec/00_scope.md R8) and the two byte orders of a stream. -/

namespace Sys2Proof

/-- A byte of SRC, DST or the token stream (R8). -/
abbrev Byte := BitVec 8

/-- A host-visible register, a key, a keystream word or a header field (R8). -/
abbrev Word := BitVec 32

/-- RESULT: 64 bits, two's complement (R8, R29). -/
abbrev ResultWord := BitVec 64

/-- A resolved byte order `E` (R12, glossary "Endianness `E`"). -/
inductive ByteOrder where
  | little
  | big
  deriving DecidableEq, Repr

end Sys2Proof
end

