-- ==== Sys2Proof/Config.lean ====
section
/-! DEFINITION. What an implementation fixes (the OPEN parameters of spec/00_scope.md R7, D7, D8, X1, X2) and the
free values (spec/93_implementation_defined.md X5, X7, X8). None of the constants has a body: no proof can see a
value of one. -/

namespace Sys2Proof

/-- The OPEN parameters of R7. `KS_M` is odd and `0 <= MAX_LEN <= 0x7FFFFFFF` by the fields' types, so every value
of this type is a legal choice of parameters. -/
structure Params where
  /-- bits 31:1 of `KS_M` -/
  ksMHigh : BitVec 31
  /-- `KS_C` -/
  ksC : Word
  /-- `MAX_LEN` -/
  maxLen31 : BitVec 31
  deriving DecidableEq, Repr

/-- `KS_M`, "fixed odd multiplier" (R7, R100). -/
def Params.ksM (c : Params) : Word := c.ksMHigh ++ 1#1

/-- `MAX_LEN` as a number (R7). -/
def Params.maxLen (c : Params) : Nat := c.maxLen31.toNat

/-- The block's own `KS_M`, without its lowest bit (D7: OPEN). -/
opaque Config.ksMHigh : BitVec 31

/-- The block's own `KS_C` (D7: OPEN). -/
opaque Config.ksC : Word

/-- The block's own `MAX_LEN` (D8: OPEN). -/
opaque Config.maxLen31 : BitVec 31

/-- The parameters a block holds from reset on (log entry 1). -/
def Config.params : Params := ⟨Config.ksMHigh, Config.ksC, Config.maxLen31⟩

/-- Unspecified bytes of DST: after a BadFormat raised inside DECODE (R251, X5) and after a reset during a command
(R310, X7); applied to `State.freeCount`. -/
opaque Config.freeByte : Nat → Byte

/-- Unspecified contents of a 32-bit internal register after a command (R42, X8); applied to `State.freeCount`. -/
opaque Config.freeWord : Nat → Word

/-- Unspecified contents of a cursor or of another internal number after a command (R42, X8). -/
opaque Config.freeNat : Nat → Nat

/-- Unspecified contents of a one-bit internal register after a command (R42, X8). -/
opaque Config.freeBool : Nat → Bool

/-- What the SRC byte at an offset holds when the host has placed none there (R41: the contents of SRC are not state
of the block; log entry 4). -/
opaque Config.unplacedSrc : Nat → Byte

/-- What the DST byte at an offset holds when neither the host nor the engine has written it (R41; log entry 4). -/
opaque Config.unplacedDst : Nat → Byte

end Sys2Proof
end

