-- ==== Sys2Proof/Syntax.lean ====
section
/-! DEFINITION. The instructions of spec/opcode_table.json: the five wire tokens of spec/30_encoding.md R76, with
the fields as they stand in the encoding, and the command words of R71, with the illegal ones (R72). -/

namespace Sys2Proof

/-- One constructor per row of spec/opcode_table.json. Token operands are the FIELDS of R76, not the lengths and
distances assembled from them (those are in Machine/Operands.lean). -/
inductive Instr where
  /-- LIT, `1;bbbbbbbb` (R77, R161). -/
  | lit (b : Byte)
  /-- SCOPY, `00ll;xxxxxxxx` (R78, R162); `l` is `l1 l0`. -/
  | scopy (l : BitVec 2) (x : Byte)
  /-- EOS, `0000;11111111` (R81, R163). -/
  | eos
  /-- LCOPY, `01;dddddfff;dddddddd` (R79, R164); `lf` is `fff`, not 0. -/
  | lcopy (dx : BitVec 13) (lf : BitVec 3)
  /-- LCOPYX, `01;ddddd000;dddddddd;eeeeeeee` (R80, R165). -/
  | lcopyx (dx : BitVec 13) (e : Byte)
  /-- COMPRESS, code 1 (R241). -/
  | compress
  /-- ARCHIVE, code 2 (R242). -/
  | archive
  /-- MAX_COMPRESSED_SIZE, code 3 (R243). -/
  | maxCompressedSize
  /-- DECOMPRESS_BUF, code 4 (R244). -/
  | decompressBuf
  /-- DECOMPRESS_BUF2, code 5 (R245). -/
  | decompressBuf2
  /-- DECOMPRESS_SIZE, code 6 (R246). -/
  | decompressSize
  /-- CRYPT, code 7 (R247). -/
  | crypt
  /-- ILLEGAL_CMD, every other 32-bit code (R72, R248). -/
  | illegalCmd (code : Word)
  deriving DecidableEq, Repr

end Sys2Proof
end

