-- ==== Sys2Proof/WellFormed.lean ====
section
/-! DEFINITION. Which terms of `Instr` stand for an encoding of their own row (spec/30_encoding.md R72, R76), and
which of those an assembler accepts (R76's conditions, R87). -/

namespace Sys2Proof

/-- The term is the reading of some encoding: an SCOPY is not the EndOfStream pattern (R81, R84), an LCOPY's length
field is not 0, which selects LCOPYX (R79, R80), and an illegal command's code names no command (R72). A long copy
with `dx = 0x1FFF` IS an encoding of its row: it decodes to distance 0 and raises BadFormat when executed (R83). -/
def Instr.wellFormed : Instr → Bool
  | .lit _ => true
  | .scopy l x => !(l == 0 && x == 0xFF)
  | .eos => true
  | .lcopy _ lf => lf != 0
  | .lcopyx _ _ => true
  | .compress => true
  | .archive => true
  | .maxCompressedSize => true
  | .decompressBuf => true
  | .decompressBuf2 => true
  | .decompressSize => true
  | .crypt => true
  | .illegalCmd code => code == 0 || decide (7 < code.toNat)

/-- The term is well formed and meets R76's condition `dx != 0x1FFF` too: what R87's assembler can produce. -/
def Instr.legal (i : Instr) : Bool :=
  i.wellFormed &&
  match i with
  | .lit _ => true
  | .scopy _ _ => true
  | .eos => true
  | .lcopy dx _ => dx != 0x1FFF
  | .lcopyx dx _ => dx != 0x1FFF
  | .compress => true
  | .archive => true
  | .maxCompressedSize => true
  | .decompressBuf => true
  | .decompressBuf2 => true
  | .decompressSize => true
  | .crypt => true
  | .illegalCmd _ => true

end Sys2Proof
end

