-- ==== Sys2Proof/Decode.lean ====
section
/-! DEFINITION. The decoder of both encodings of spec/30_encoding.md R70 (the command word, R71 and R72; the token
stream, R75 to R82, read through the bit reader of spec/41_bit_channel.md R125 to R128), and after it the encoder,
written from the same tables. The byte-order helpers of R10 stand here too. -/

namespace Sys2Proof

/-! ### Byte order (R10) -/

/-- `ser_E(w)` (R10). -/
def ser : ByteOrder → Word → List Byte
  | .little, w => [w.extractLsb' 0 8, w.extractLsb' 8 8, w.extractLsb' 16 8, w.extractLsb' 24 8]
  | .big, w => [w.extractLsb' 24 8, w.extractLsb' 16 8, w.extractLsb' 8 8, w.extractLsb' 0 8]

/-- `par_E(b0, b1, b2, b3)` (R10). -/
def par : ByteOrder → Byte → Byte → Byte → Byte → Word
  | .little, b0, b1, b2, b3 => b3 ++ b2 ++ b1 ++ b0
  | .big, b0, b1, b2, b3 => b0 ++ b1 ++ b2 ++ b3

/-! ### The bit reader (R34, R125 to R128) -/

/-- The reader's registers: the cursor `in_pos` (R31), the shift register `cur` and the count `bits_left` (R34). -/
structure Reader where
  inPos : Nat
  cur : Byte
  bitsLeft : Nat
  deriving DecidableEq, Repr

/-- Why no token can be read: the stream ends where a control byte, or a payload byte, is needed (R128). Either
raises BadFormat. -/
inductive DecodeError where
  | controlUnderrun
  | payloadUnderrun
  deriving DecidableEq, Repr

/-- R_START(o) (R125). -/
def rStart (o : Nat) : Reader := ⟨o, 0, 0⟩

/-- The byte at `in_pos` of the plaintext stream, and the cursor past it; none at or after the stream's end (R127,
R128). The stream is given by its view `P`. -/
def fetchByte (P : Nat → Option Byte) (r : Reader) : Option (Byte × Reader) :=
  match P r.inPos with
  | none => none
  | some v => some (v, { r with inPos := r.inPos + 1 })

/-- GETBYTE of a payload byte (R127). -/
def getByte (P : Nat → Option Byte) (r : Reader) : Except DecodeError (Byte × Reader) :=
  match fetchByte P r with
  | none => .error .payloadUnderrun
  | some v => .ok v

/-- A reader that holds at least one control bit: the next control byte is fetched only when none is left (R126). -/
def refill (P : Nat → Option Byte) (r : Reader) : Except DecodeError Reader :=
  if r.bitsLeft = 0 then
    match fetchByte P r with
    | none => .error .controlUnderrun
    | some (v, r') => .ok { r' with cur := v, bitsLeft := 8 }
  else .ok r

/-- GETBIT: bit 0 of `cur`, first bit first (R126, R130). -/
def getBit (P : Nat → Option Byte) (r : Reader) : Except DecodeError (Bool × Reader) :=
  match refill P r with
  | .error e => .error e
  | .ok r' => .ok (r'.cur.getLsbD 0, { r' with cur := r'.cur >>> 1, bitsLeft := r'.bitsLeft - 1 })

/-! ### Tokens (R75 to R82) -/

/-- What the token stream can hold: the five token rows, with the same fields as in `Instr`. -/
inductive WireToken where
  | lit (b : Byte)
  | scopy (l : BitVec 2) (x : Byte)
  | eos
  | lcopy (dx : BitVec 13) (lf : BitVec 3)
  | lcopyx (dx : BitVec 13) (e : Byte)
  deriving DecidableEq, Repr

/-- The token as an instruction. -/
def WireToken.toInstr : WireToken → Instr
  | .lit b => .lit b
  | .scopy l x => .scopy l x
  | .eos => .eos
  | .lcopy dx lf => .lcopy dx lf
  | .lcopyx dx e => .lcopyx dx e

/-- SCOPY or EOS from `l1`, `l0` and the payload byte: the sentinel test comes first (R76, R78, R81, R162). -/
def shortToken (l1 l0 : Bool) (x : Byte) : WireToken :=
  if l1 = false ∧ l0 = false ∧ x = 0xFF then .eos
  else .scopy (BitVec.ofBool l1 ++ BitVec.ofBool l0) x

/-- The long-copy word `W`, always little-endian (R55, R79). -/
def longWord (b0 b1 : Byte) : BitVec 16 := b1 ++ b0

/-- `dx = W[15:3]` (R79). -/
def longDx (w : BitVec 16) : BitVec 13 := w.extractLsb' 3 13

/-- `lf = W[2:0]` (R79). -/
def longLf (w : BitVec 16) : BitVec 3 := w.extractLsb' 0 3

/-- One token, read at the reader's place: all its control bits, then its payload bytes (R75, R82, R160). Total:
every stream gives a token or one of the two named rejections. -/
def decodeToken (P : Nat → Option Byte) (r : Reader) : Except DecodeError (WireToken × Reader) := do
  let (c0, r) ← getBit P r
  if c0 then
    let (b, r) ← getByte P r
    return (.lit b, r)
  else
    let (c1, r) ← getBit P r
    if c1 then
      let (b0, r) ← getByte P r
      let (b1, r) ← getByte P r
      if longLf (longWord b0 b1) = 0 then
        let (e, r) ← getByte P r
        return (.lcopyx (longDx (longWord b0 b1)) e, r)
      else
        return (.lcopy (longDx (longWord b0 b1)) (longLf (longWord b0 b1)), r)
    else
      let (l1, r) ← getBit P r
      let (l0, r) ← getBit P r
      let (x, r) ← getByte P r
      return (shortToken l1 l0 x, r)

/-- The view of a stream held as a list. -/
def listStream (bytes : List Byte) : Nat → Option Byte := fun i => bytes[i]?

/-- The tokens of a stream up to and with the first EndOfStream (R82, R168), read at the reader's place; `fuel`
bounds their number. -/
def decodeTokens (P : Nat → Option Byte) : Nat → Reader → Except DecodeError (List WireToken)
  | 0, _ => .ok []
  | fuel + 1, r =>
    match decodeToken P r with
    | .error e => .error e
    | .ok (.eos, _) => .ok [.eos]
    | .ok (t, r') =>
      match decodeTokens P fuel r' with
      | .error e => .error e
      | .ok ts => .ok (t :: ts)

/-! ### Command words (R71, R72) -/

/-- The command a 32-bit code names; every other code is the illegal command (R71, R72). -/
def decodeCommand (w : Word) : Instr :=
  match w.toNat with
  | 1 => .compress
  | 2 => .archive
  | 3 => .maxCompressedSize
  | 4 => .decompressBuf
  | 5 => .decompressBuf2
  | 6 => .decompressSize
  | 7 => .crypt
  | _ => .illegalCmd w

/-! ### The encoder -/

/-- The control bits of a token, in the order they are written (R76). -/
def WireToken.controlBits : WireToken → List Bool
  | .lit _ => [true]
  | .scopy l _ => [false, false, l.getLsbD 1, l.getLsbD 0]
  | .eos => [false, false, false, false]
  | .lcopy _ _ => [false, true]
  | .lcopyx _ _ => [false, true]

/-- The payload bytes of a token, in stream order (R76, R79, R80). -/
def WireToken.payload : WireToken → List Byte
  | .lit b => [b]
  | .scopy _ x => [x]
  | .eos => [0xFF]
  | .lcopy dx lf => [dx.extractLsb' 0 5 ++ lf, dx.extractLsb' 5 8]
  | .lcopyx dx e => [dx.extractLsb' 0 5 ++ 0#3, dx.extractLsb' 5 8, e]

/-- One element of the channel: a control bit or a payload byte (R75). -/
inductive ChannelItem where
  | bit (b : Bool)
  | byte (v : Byte)
  deriving DecidableEq, Repr

/-- What a token sends through the channel: every control bit before any payload byte (R75). -/
def WireToken.items (t : WireToken) : List ChannelItem :=
  t.controlBits.map .bit ++ t.payload.map .byte

/-- The control byte that the next control bits of `items` fill, from position `k` up; positions no bit fills are 0
(R121, R123, R130). `k` counts down the places left: the bit in hand goes to position `8 - left`. -/
def controlByte : Nat → List ChannelItem → Byte
  | 0, _ => 0
  | _ + 1, [] => 0
  | left + 1, .bit b :: rest => (BitVec.ofBool b).setWidth 8 <<< (8 - (left + 1)) ||| controlByte left rest
  | left + 1, .byte _ :: rest => controlByte (left + 1) rest

/-- The bytes of a sequence of channel items: a control byte stands where its first bit is needed (R75, R121), so its
bits are looked up ahead. `used` is the number of bits placed in the open control byte, 8 for none open (R120). -/
def pack : Nat → List ChannelItem → List Byte
  | _, [] => []
  | used, .bit b :: rest =>
    if used = 8 then controlByte 8 (.bit b :: rest) :: pack 1 rest else pack (used + 1) rest
  | used, .byte v :: rest => v :: pack used rest

/-- A token stream as bytes, from a fresh writer (W_START, R120). -/
def encodeTokens (ts : List WireToken) : List Byte := pack 8 (ts.flatMap WireToken.items)

/-- A whole plaintext stream: the header `ser_E(N)` and the token stream (R74; `STREAM` of R88). -/
def encodeStream (n : Word) (e : ByteOrder) (ts : List WireToken) : List Byte := ser e n ++ encodeTokens ts

/-- The encoding of one instruction: a command word, or the bytes of a token from a fresh writer. -/
inductive Encoding where
  | command (code : Word)
  | token (bytes : List Byte)
  deriving DecidableEq, Repr

/-- The words of an instruction, from the tables of R71 and R76. -/
def encode : Instr → Encoding
  | .lit b => .token (encodeTokens [.lit b])
  | .scopy l x => .token (encodeTokens [.scopy l x])
  | .eos => .token (encodeTokens [.eos])
  | .lcopy dx lf => .token (encodeTokens [.lcopy dx lf])
  | .lcopyx dx e => .token (encodeTokens [.lcopyx dx e])
  | .compress => .command 1
  | .archive => .command 2
  | .maxCompressedSize => .command 3
  | .decompressBuf => .command 4
  | .decompressBuf2 => .command 5
  | .decompressSize => .command 6
  | .crypt => .command 7
  | .illegalCmd code => .command code

/-- The instruction an encoding stands for; none where the token's bytes end too early. -/
def decodeEncoding : Encoding → Option Instr
  | .command code => some (decodeCommand code)
  | .token bytes =>
    match decodeToken (listStream bytes) (rStart 0) with
    | .ok (t, _) => some t.toInstr
    | .error _ => none

/-! ### The table's numbering -/

/-- `k` bytes of a number, the lowest first. -/
def bytesOf : Nat → Nat → List Byte
  | 0, _ => []
  | k + 1, w => BitVec.ofNat 8 w :: bytesOf k (w / 256)

/-- A token's bytes as the stream holds them, from its control byte on, with three more bytes of zeros (the longest
token has three payload bytes, R82). -/
def tokenBytes (nbits w : Nat) : List Byte := bytesOf ((nbits + 7) / 8) w ++ [0, 0, 0]

/-- The instruction the decoder reads from a row's bits: a 32-bit row is a command word (R70); a shorter row is a
token, its first byte the control byte with the first control bit at bit 0 (R130). -/
def decodeTableWord (nbits w : Nat) : Option Instr :=
  if nbits = 32 then some (decodeCommand (BitVec.ofNat 32 w))
  else decodeEncoding (.token (tokenBytes nbits w))

end Sys2Proof
end

