-- ==== Sys2Proof/Machine/State.lean ====
section
/-! DEFINITION. The machine's state: everything spec/10_state.md gives it (R20 to R42), the two host buffers of
spec/20_memory.md R50 to R52, and the model's own fields (parameters, host accesses still to come, the counter of
the free values). INVENTORY.md lists each field with its rule and reset value. -/

namespace Sys2Proof.Machine

/-- A host buffer by offset from its own start (R50): the bytes placed or written so far, offsets strictly rising.
An offset that is not listed holds no byte the model knows. -/
abbrev Memory := List Host.Cell

/-- The error kinds of R280. `ioFailure` belongs to the host; the block never raises it (R286). -/
inductive ErrKind where
  | invalidArgument
  | outOfMemory
  | badFormat
  | bufferTooSmall
  | ioFailure
  deriving DecidableEq, Repr

/-- The operand latches of R30, loaded when a command starts. -/
structure Latches where
  /-- `E_in` -/
  eIn : Word
  /-- `key` -/
  key : Word
  /-- `key_en` -/
  keyEn : Bool
  /-- `n_src` -/
  nSrc : Word
  /-- `cap` -/
  cap : Word
  deriving DecidableEq, Repr

/-- The engine's internal registers other than the latches (R31 to R35). -/
structure Engine where
  /-- bit reader with the cursor `in_pos` (R31, R34) -/
  reader : Reader
  /-- `out_pos` (R31) -/
  outPos : Nat
  /-- the Match Finder cursor `p` (R31) -/
  p : Nat
  /-- keystream state `KS` (R32) -/
  ks : Word
  /-- `ctrl_pos`, none when no control byte was opened (R33, R120) -/
  ctrlPos : Option Nat
  /-- `bits_used`, 0 to 8 (R33) -/
  bitsUsed : Nat
  /-- declared length `N` (R35) -/
  n : Word
  /-- resolved byte order `E` (R35) -/
  e : ByteOrder
  /-- `enc`, true when the stream is PRSD (R35) -/
  enc : Bool
  /-- `need`, the output size the command requires (R35) -/
  need : Nat
  deriving DecidableEq, Repr

/-- One thing the host, the other agent of R20, does to the block (R53, R59, R61, R89, R310). -/
inductive HostOp where
  /-- a 32-bit register write at a byte offset; offset 0x00 starts a command (`WR`, `GO`) -/
  | writeReg (offset : Nat) (value : Word)
  /-- a 32-bit register read (`RD`) -/
  | readReg (offset : Nat)
  /-- poll STATUS until DONE = 1 (`WAIT`) -/
  | wait
  /-- no host access: the engine runs the command it has started -/
  | letRun
  /-- put bytes into the source buffer from an offset on (`SRC <- [..]`) -/
  | writeSrc (offset : Nat) (bytes : List Byte)
  /-- put bytes into the destination buffer from an offset on -/
  | writeDst (offset : Nat) (bytes : List Byte)
  /-- read a byte of the source buffer -/
  | readSrc (offset : Nat)
  /-- read a byte of the destination buffer -/
  | readDst (offset : Nat)
  /-- place the two buffers at host addresses -/
  | place (srcBase dstBase : Nat)
  /-- reset the block -/
  | reset
  deriving DecidableEq, Repr

/-- Why the machine stops with a fault. -/
inductive Fault where
  /-- A token was executed in a decoding state whose `N` is above `cap`, and its output byte would lie outside DST.
  The engine "never reads or writes `DST[i]` with `i >= cap`" (R52). Raised by the token meanings. Safe: no state
  in which R244 or R245 starts DECODE raises it. -/
  | dstOutOfBounds
  /-- The host accesses SRC or DST at an offset no buffer can have: a buffer holds at most 2^32 - 1 bytes (R51), and
  "addresses outside a buffer are not addressable by any rule" (R50). Raised by the host accesses. Safe. -/
  | noSuchOffset
  deriving DecidableEq, Repr

/-- Why a step has no meaning. -/
inductive Refusal where
  /-- The instruction has no meaning in this model. Raised by no arm of `exec`. Safe. -/
  | notModelled (mnemonic : String)
  /-- SRC and DST overlap and the command uses both: "a model refuses a command whose buffers overlap" (R69, X6).
  Raised by COMPRESS, ARCHIVE, DECOMPRESS_BUF, DECOMPRESS_BUF2, CRYPT and by a reset during one of them. Safe. -/
  | buffersOverlap
  /-- The host reads, writes or places SRC or DST while BUSY: "a model refuses such a run" (R64, R315, X6). Raised by
  the host accesses. Safe. -/
  | bufferAccessWhileBusy
  deriving DecidableEq, Repr

/-- The block, its two buffers and the host accesses still to come. -/
structure State where
  /-- ENDIAN, offset 0x04 (R23) -/
  endian : Word
  /-- KEY, offset 0x08 (R24) -/
  key : Word
  /-- KEY_EN.en, offset 0x0C bit 0 (R25) -/
  keyEn : Bool
  /-- SRC_LEN, offset 0x10 (R26) -/
  srcLen : Word
  /-- DST_CAP, offset 0x14 (R27) -/
  dstCap : Word
  /-- STATUS.BUSY, offset 0x18 bit 0 (R28) -/
  busy : Bool
  /-- STATUS.DONE, offset 0x18 bit 1 (R28) -/
  done : Bool
  /-- RESULT, offsets 0x20 and 0x24 (R29) -/
  result : ResultWord
  /-- the code written to CMD, from the write until the engine takes it (R22); while BUSY and none, the engine is
  inside DECODE (R160) -/
  code : Option Word
  /-- the operand latches (R30) -/
  lat : Latches
  /-- the other internal registers (R31 to R35) -/
  eng : Engine
  /-- the source buffer (R51) -/
  src : Memory
  /-- the destination buffer (R52) -/
  dst : Memory
  /-- where the host placed SRC (R61) -/
  srcBase : Nat
  /-- where the host placed DST (R61) -/
  dstBase : Nat
  /-- the OPEN parameters (R7); no step changes them -/
  params : Params
  /-- host accesses still to come, the next first (the model's own field) -/
  inputs : List HostOp
  /-- the value the host's last read access returned (the model's own field) -/
  lastRead : Word
  /-- how many free values have been drawn (the model's own field) -/
  freeCount : Nat
  deriving DecidableEq, Repr

/-- The latches at reset: R41 leaves them unspecified, the model names 0 (log entry 5). -/
def Latches.reset : Latches := ⟨0, 0, false, 0, 0⟩

/-- The internal registers at reset: R41 leaves them unspecified, the model names these values (log entry 5). -/
def Engine.reset : Engine :=
  { reader := ⟨0, 0, 0⟩, outPos := 0, p := 0, ks := 0, ctrlPos := none, bitsUsed := 8, n := 0, e := .little,
    enc := false, need := 0 }

/-- The machine right after reset (R41, R310, R311): idle, every host-visible register 0, no byte of a buffer known
(SRC and DST are not the block's to reset), the buffers placed apart (log entry 6), no host access to come. -/
def State.reset : State :=
  { endian := 0, key := 0, keyEn := false, srcLen := 0, dstCap := 0, busy := false, done := false, result := 0,
    code := none, lat := Latches.reset, eng := Engine.reset, src := [], dst := [], srcBase := 0,
    dstBase := 0x100000000, params := Config.params, inputs := [], lastRead := 0, freeCount := 0 }

end Sys2Proof.Machine
end

