-- ==== Sys2Proof/Machine/Flags.lean ====
section
/-! DEFINITION. The only status bits of the block, BUSY and DONE (spec/10_state.md R28, R38): how STATUS and KEY_EN
read, and how a command's start and end change BUSY and DONE. There are no condition codes. -/

namespace Sys2Proof.Machine

/-- STATUS as a word: bit 0 BUSY, bit 1 DONE, bits 31:2 zero (R28, R90). -/
def statusWord (s : State) : Word :=
  (BitVec.ofBool s.done ++ BitVec.ofBool s.busy).setWidth 32

/-- KEY_EN as a word: bit 0 `en`, bits 31:1 zero (R25, R90). -/
def keyEnWord (s : State) : Word := (BitVec.ofBool s.keyEn).setWidth 32

/-- Command start: `BUSY <- 1, DONE <- 0` (R22, R28). -/
def setStarted (s : State) : State := { s with busy := true, done := false }

/-- Command end: `BUSY <- 0, DONE <- 1` (R28, R283). -/
def setEnded (s : State) : State := { s with busy := false, done := true }

end Sys2Proof.Machine
end

