-- ==== Sys2Proof/Machine/Operands.lean ====
section
/-! DEFINITION. The operands of tokens and commands: the constants of spec/00_scope.md R7, the lengths and distances
assembled from token fields (spec/30_encoding.md R78 to R80) and the ENDIAN codes (R73). -/

namespace Sys2Proof.Machine

/-! ### Parameters with a value (R7) -/

/-- `HDR_BYTES` -/
def hdrBytes : Nat := 4

/-- `MIN_MATCH` -/
def minMatch : Nat := 2

/-- `MAX_MATCH` -/
def maxMatch : Nat := 264

/-- `WINDOW` -/
def window : Nat := 8191

/-- `SHORT_MAX_DIST` -/
def shortMaxDist : Nat := 256

/-- `SHORT_MAX_LEN` -/
def shortMaxLen : Nat := 5

/-- `LONG_MAX_PLAIN_LEN` -/
def longMaxPlainLen : Nat := 8

/-- `COMPRESS_ORDER` -/
def compressOrder : ByteOrder := .little

/-! ### Token fields -/

/-- SCOPY: `length = lfield + 2` (R78). -/
def shortLength (l : BitVec 2) : Nat := l.toNat + 2

/-- SCOPY: `distance = 256 - x` (R78). -/
def shortDistance (x : Byte) : Nat := 256 - x.toNat

/-- LCOPY and LCOPYX: `distance = dx ^ 0x1FFF` (R79, R80). -/
def longDistance (dx : BitVec 13) : Nat := (dx ^^^ 0x1FFF#13).toNat

/-- LCOPY: `length = lf + 1` (R79). -/
def plainLength (lf : BitVec 3) : Nat := lf.toNat + 1

/-- LCOPYX: `length = e + 9` (R80). -/
def escapeLength (e : Byte) : Nat := e.toNat + 9

/-! ### ENDIAN (R73, R220) -/

/-- The byte order an ENDIAN code selects: none is AUTO. The outer none is a code outside the domain. -/
def endianOf (w : Word) : Option (Option ByteOrder) :=
  match w.toNat with
  | 0 => some (some .little)
  | 1 => some (some .big)
  | 2 => some none
  | _ => none

end Sys2Proof.Machine
end

