-- ==== Sys2Proof/Machine/Ops.lean ====
section
/-! DEFINITION. The shared operations: the buffers' bytes (spec/20_memory.md R50 to R62), the register space
(spec/10_state.md R21), the start of a command (R22, R30) and its end, `finish` and `raise`, the block's only
exception entry (spec/60_exceptions.md R283). There is no return from it (R289). -/

namespace Sys2Proof.Machine

/-! ### Buffers -/

/-- The canonical form: offsets strictly rising. -/
abbrev Memory.wf (m : Memory) : Prop := m.Pairwise (fun a b => a.1 < b.1)

/-- The byte known at an offset; none where none was placed or written. -/
def Memory.get : Memory → Nat → Option Byte
  | [], _ => none
  | (b, w) :: m, a => if a = b then some w else Memory.get m a

/-- One byte written. -/
def Memory.set : Memory → Nat → Byte → Memory
  | [], a, v => [(a, v)]
  | (b, w) :: m, a, v =>
    if a < b then (a, v) :: (b, w) :: m
    else if a = b then (a, v) :: m
    else (b, w) :: Memory.set m a v

/-- Consecutive bytes written from an offset on, in order. -/
def Memory.setList : Memory → Nat → List Byte → Memory
  | m, _, [] => m
  | m, a, v :: vs => Memory.setList (m.set a v) (a + 1) vs

/-- The first `n` bytes replaced by `f`, the rest kept. -/
def Memory.setPrefix (n : Nat) (f : Nat → Byte) (m : Memory) : Memory :=
  (List.range n).map (fun i => (i, f i)) ++ m.filter (fun c => decide (n ≤ c.1))

/-- `SRC[i]` (R10, R51); a byte the host has not placed reads as a free value (log entry 4). -/
def State.srcByte (s : State) (i : Nat) : Byte := (s.src.get i).getD (Config.unplacedSrc i)

/-- `DST[i]` (R10, R52); a byte nothing has written reads as a free value (log entry 4). -/
def State.dstByte (s : State) (i : Nat) : Byte := (s.dst.get i).getD (Config.unplacedDst i)

/-- `DST[i] <- v` (R10). -/
def State.setDst (s : State) (i : Nat) (v : Byte) : State := { s with dst := s.dst.set i v }

/-- `n_src` as a number (R30). -/
def State.nSrc (s : State) : Nat := s.lat.nSrc.toNat

/-- `cap` as a number (R30). -/
def State.cap (s : State) : Nat := s.lat.cap.toNat

/-- The declared length `N` as a number (R35). -/
def State.declared (s : State) : Nat := s.eng.n.toNat

/-- Do SRC, `n_src` bytes, and DST, `cap` bytes, share an address where the host placed them (R61, R69)? An empty
buffer shares none. -/
def State.overlapping (s : State) : Bool :=
  decide (0 < s.nSrc) && decide (0 < s.cap) &&
  decide (s.srcBase < s.dstBase + s.cap) && decide (s.dstBase < s.srcBase + s.nSrc)

/-- The first `n` bytes of DST take free values (R251, R310; X5, X7). -/
def State.freeDst (s : State) (n : Nat) : State :=
  { s with dst := s.dst.setPrefix n (fun i => Config.freeByte (s.freeCount + i)), freeCount := s.freeCount + n }

/-! ### Registers (R21 to R29) -/

/-- A host read of the register at an offset: CMD reads 0, an offset that is not listed reads 0, a read has no side
effect (R21, R22, R60, R90). -/
def readReg (offset : Nat) (s : State) : Word :=
  match offset with
  | 0x04 => s.endian
  | 0x08 => s.key
  | 0x0C => keyEnWord s
  | 0x10 => s.srcLen
  | 0x14 => s.dstCap
  | 0x18 => statusWord s
  | 0x20 => s.result.extractLsb' 0 32
  | 0x24 => s.result.extractLsb' 32 32
  | _ => 0

/-- The operand registers copied into the latches (R30). -/
def latch (s : State) : State :=
  { s with lat := { eIn := s.endian, key := s.key, keyEn := s.keyEn, nSrc := s.srcLen, cap := s.dstCap } }

/-- A command starts: operands latched, `BUSY <- 1, DONE <- 0`, the code held for the engine (R22, R30). -/
def startCommand (code : Word) (s : State) : State := { setStarted (latch s) with code := some code }

/-- A host write of the register at an offset. A write to CMD starts a command when idle and is ignored while BUSY;
STATUS, RESULT and offsets that are not listed ignore writes, and so do the reserved bits of KEY_EN (R21 to R29,
R90, R314). -/
def writeReg (offset : Nat) (v : Word) (s : State) : State :=
  match offset with
  | 0x00 => if s.busy then s else startCommand v s
  | 0x04 => { s with endian := v }
  | 0x08 => { s with key := v }
  | 0x0C => { s with keyEn := v.getLsbD 0 }
  | 0x10 => { s with srcLen := v }
  | 0x14 => { s with dstCap := v }
  | _ => s

/-! ### The end of a command: `finish` and `raise` (R283) -/

/-- The RESULT code of an error kind (R280). -/
def ErrKind.code : ErrKind → Int
  | .invalidArgument => -1
  | .outOfMemory => -2
  | .badFormat => -3
  | .bufferTooSmall => -4
  | .ioFailure => -5

/-- The latches hold free values after a command (R42, X8). -/
def Latches.free (k : Nat) : Latches :=
  ⟨Config.freeWord k, Config.freeWord (k + 1), Config.freeBool k, Config.freeWord (k + 2), Config.freeWord (k + 3)⟩

/-- The other internal registers hold free values after a command, within the bounds of R33 and R34 (R42, X8). -/
def Engine.free (k : Nat) : Engine :=
  { reader := ⟨Config.freeNat k, Config.freeByte k, Config.freeNat (k + 1) % 9⟩
    outPos := Config.freeNat (k + 2)
    p := Config.freeNat (k + 3)
    ks := Config.freeWord (k + 4)
    ctrlPos := if Config.freeBool (k + 1) then some (Config.freeNat (k + 4)) else none
    bitsUsed := Config.freeNat (k + 5) % 9
    n := Config.freeWord (k + 5)
    e := if Config.freeBool (k + 2) then .big else .little
    enc := Config.freeBool (k + 3)
    need := Config.freeNat (k + 6) }

/-- The internal registers' values are unspecified from here on (R42): each is a free value. -/
def forgetInternal (s : State) : State :=
  { s with lat := Latches.free s.freeCount, eng := Engine.free s.freeCount, freeCount := s.freeCount + 7 }

/-- A command ends with a RESULT: `BUSY <- 0, DONE <- 1`, nothing else host-visible changes (R283, R288). -/
def endCommand (r : ResultWord) (s : State) : State :=
  forgetInternal { setEnded s with result := r, code := none }

/-- `finish(v)` (R283). -/
def finish (v : Nat) (s : State) : State := endCommand (BitVec.ofNat 64 v) s

/-- `raise K`, the block's exception entry (R283): the error's code goes to RESULT; no pc, mode or mask exists to
save. -/
def raiseError (k : ErrKind) (s : State) : State := endCommand (BitVec.ofInt 64 k.code) s

/-- BadFormat raised inside DECODE: `DST[0 .. N-1]` holds unspecified values, the bytes beyond are unchanged (R251,
X5). No byte at or beyond `cap` is written (R52). -/
def raiseInDecode (s : State) : State := raiseError .badFormat (s.freeDst (min s.declared s.cap))

end Sys2Proof.Machine
end

