-- ==== Sys2Proof/Machine/Keystream.lean ====
section
/-! DEFINITION. The Keystream Generator of spec/40_keystream.md: KS_INIT, KS_NEXT and KS_XOR (R100 to R109), and the
keystream byte `K[i]` of spec/41_bit_channel.md R127. -/

namespace Sys2Proof.Machine

/-- The recurrence of KS_NEXT, modulo 2^32 (R102). -/
def ksStep (c : Params) (ks : Word) : Word := ks * c.ksM + c.ksC

/-- The word that the `(g+1)`-th KS_NEXT after KS_INIT(key) returns (R101, R102, R127). -/
def ksWord (c : Params) (key : Word) : Nat → Word
  | 0 => ksStep c key
  | g + 1 => ksStep c (ksWord c key g)

/-- `K[i]`: byte `i mod 4` of `ser_E(w_g)`, `g = floor(i/4)` (R127). -/
def ksByte (c : Params) (key : Word) (e : ByteOrder) (i : Nat) : Byte :=
  (ser e (ksWord c key (i / 4))).getD (i % 4) 0

/-- KS_INIT(key) (R101). -/
def ksInit (key : Word) (s : State) : State := { s with eng := { s.eng with ks := key } }

/-- KS_NEXT: the new state is stored, and it is the word returned (R102). -/
def ksNext (s : State) : Word × State :=
  (ksStep s.params s.eng.ks, { s with eng := { s.eng with ks := ksStep s.params s.eng.ks } })

/-- Consecutive bytes of DST, from an offset on, XORed with the given bytes in order. -/
def xorDst : Nat → List Byte → State → State
  | _, [], s => s
  | a, k :: ks, s => xorDst (a + 1) ks (s.setDst a (s.dstByte a ^^^ k))

/-- One group: a word is drawn and its first `count` bytes of `ser_E` XORed in from the offset `a` on (R103, R104). -/
def xorGroup (e : ByteOrder) (a count : Nat) (s : State) : State :=
  xorDst a ((ser e (ksNext s).1).take count) (ksNext s).2

/-- The whole 4-byte groups, in order, from group `g` on (R103). -/
def xorGroups (e : ByteOrder) : Nat → Nat → State → State
  | 0, _, s => s
  | k + 1, g, s => xorGroups e k (g + 1) (xorGroup e (4 * g) 4 s)

/-- KS_XOR on `DST[0 .. k-1]`: the whole groups, then the trailing 1 to 3 bytes with one further word (R103, R104). -/
def ksXor (k : Nat) (key : Word) (e : ByteOrder) (s : State) : State :=
  let t := xorGroups e (k / 4) 0 (ksInit key s)
  if k % 4 = 0 then t else xorGroup e (4 * (k / 4)) (k % 4) t

end Sys2Proof.Machine
end

