-- ==== Sys2Proof/Machine/Channel.lean ====
section
/-! DEFINITION. The Bit-Token Channel of spec/41_bit_channel.md: the writer on DST (R120 to R124), and the plaintext
view of SRC that the reader of Decode.lean reads (R125 to R128). -/

namespace Sys2Proof.Machine

/-! ### Writer -/

/-- W_START(o): no control byte is open (R120). -/
def wStart (o : Nat) (s : State) : State :=
  { s with eng := { s.eng with outPos := o, bitsUsed := 8, ctrlPos := none } }

/-- PUTBYTE(v) (R122); the decoder appends its output bytes the same way (R161, R166). -/
def putByte (v : Byte) (s : State) : State :=
  { s.setDst s.eng.outPos v with eng := { s.eng with outPos := s.eng.outPos + 1 } }

/-- The control byte reserved at `out_pos` when none is open (R121). -/
def openControl (s : State) : State :=
  if s.eng.bitsUsed = 8 then
    { s.setDst s.eng.outPos 0 with
      eng := { s.eng with ctrlPos := some s.eng.outPos, outPos := s.eng.outPos + 1, bitsUsed := 0 } }
  else s

/-- PUTBIT(b): bit `bits_used` of the open control byte is set to `b` (R121, R130). Without a control byte, which
W_START followed by PUTBITs never leaves, nothing is stored. -/
def putBit (b : Bool) (s : State) : State :=
  let t := openControl s
  match t.eng.ctrlPos with
  | some c =>
    { t.setDst c (t.dstByte c ||| ((BitVec.ofBool b).setWidth 8 <<< t.eng.bitsUsed)) with
      eng := { t.eng with bitsUsed := t.eng.bitsUsed + 1 } }
  | none => { t with eng := { t.eng with bitsUsed := t.eng.bitsUsed + 1 } }

/-! ### The reader's stream -/

/-- `P[i]`, defined for `i < n_src` only: `SRC[i]` for a PRS stream, `SRC[i] ^ K[i]` for a PRSD stream (R127). SRC
itself is never modified (R51). -/
def State.plainByte (s : State) (i : Nat) : Option Byte :=
  if i < s.nSrc then
    some (s.srcByte i ^^^ (if s.eng.enc then ksByte s.params s.lat.key s.eng.e i else 0))
  else none

end Sys2Proof.Machine
end

