-- ==== Sys2Proof/Machine/MatchFinder.lean ====
section
/-! DEFINITION. The Match Finder of spec/42_match_finder.md: MATCH_LEN (R141), FIND (R143) and the literal-only
decision of ARCHIVE (R147). The index of R144 is hidden state that never shows: the exhaustive search is the model
(X3). -/

namespace Sys2Proof.Machine

/-- A match decision (R140, R143). -/
inductive Decision where
  | literal (b : Byte)
  | copy (distance length : Nat)
  deriving DecidableEq, Repr

/-- The loop of MATCH_LEN: at most `left` further bytes are compared, `l` have matched (R141). -/
def matchLenFrom (src : Nat → Byte) (p d : Nat) : Nat → Nat → Nat
  | 0, l => l
  | left + 1, l => if src (p + l) = src (p + l - d) then matchLenFrom src p d left (l + 1) else l

/-- MATCH_LEN(p, d) in a source of `n` bytes (R141). -/
def matchLen (src : Nat → Byte) (n p d : Nat) : Nat := matchLenFrom src p d (min maxMatch (n - p)) 0

/-- The loop of FIND: `left` further distances from `d` on, the best length and distance so far; only a strictly
longer match replaces the best (R143). -/
def findFrom (src : Nat → Byte) (n p : Nat) : Nat → Nat → Nat → Nat → Nat × Nat
  | 0, _, bestL, bestD => (bestL, bestD)
  | left + 1, d, bestL, bestD =>
    let l := matchLen src n p d
    if bestL < l then findFrom src n p left (d + 1) l d else findFrom src n p left (d + 1) bestL bestD

/-- FIND(p): the longest match within the window, the smallest distance among equals, or a literal (R142, R143). -/
def find (src : Nat → Byte) (n p : Nat) : Decision :=
  let best := findFrom src n p (min p window) 1 0 0
  if minMatch ≤ best.1 then .copy best.2 best.1 else .literal (src p)

/-- ARCHIVE's decision at every cursor (R147). -/
def findLiteral (src : Nat → Byte) (_n p : Nat) : Decision := .literal (src p)

end Sys2Proof.Machine
end

