-- ==== Sys2Proof/Machine/Encoder.lean ====
section
/-! DEFINITION. The encoder half of the Token Codec, spec/43_token_codec.md R169 to R174, and the greedy loop PARSE of
spec/42_match_finder.md R145. -/

namespace Sys2Proof.Machine

/-- ENC_LIT(b) (R169). -/
def encLit (b : Byte) (s : State) : State := putByte b (putBit true s)

/-- ENC_SHORT: the high bit of `L - 2` first (R171). -/
def encShort (d l : Nat) (s : State) : State :=
  putByte (BitVec.ofNat 8 (256 - d))
    (putBit ((l - 2) % 2 == 1) (putBit ((l - 2) / 2 == 1) (putBit false (putBit false s))))

/-- `(d ^ 0x1FFF) << 3` with the low three bits `lf` (R172, R173). -/
def longCopyWord (d lf : Nat) : BitVec 16 := (BitVec.ofNat 13 d ^^^ 0x1FFF#13) ++ BitVec.ofNat 3 lf

/-- ENC_LONG: the low byte of `W` first (R172). -/
def encLong (d l : Nat) (s : State) : State :=
  putByte ((longCopyWord d (l - 1)).extractLsb' 8 8)
    (putByte ((longCopyWord d (l - 1)).extractLsb' 0 8) (putBit true (putBit false s)))

/-- ENC_LONG_ESCAPE (R173). -/
def encLongEscape (d l : Nat) (s : State) : State :=
  putByte (BitVec.ofNat 8 (l - 9))
    (putByte ((longCopyWord d 0).extractLsb' 8 8)
      (putByte ((longCopyWord d 0).extractLsb' 0 8) (putBit true (putBit false s))))

/-- ENCODE_TOKEN: the short form whenever it is eligible, which the EndOfStream pattern is not (R170). -/
def encodeDecision (t : Decision) (s : State) : State :=
  match t with
  | .literal b => encLit b s
  | .copy d l =>
    if d ≤ shortMaxDist ∧ l ≤ shortMaxLen ∧ ¬ (d = 1 ∧ l = 2) then encShort d l s
    else if l ≤ longMaxPlainLen then encLong d l s
    else encLongEscape d l s

/-- ENCODE_EOS (R174). -/
def encodeEos (s : State) : State :=
  putByte 0xFF (putBit false (putBit false (putBit false (putBit false s))))

/-- How far a decision moves the cursor `p` (R145). -/
def Decision.advance : Decision → Nat
  | .literal _ => 1
  | .copy _ l => l

/-- `p` moved on. -/
def moveP (k : Nat) (s : State) : State := { s with eng := { s.eng with p := s.eng.p + k } }

/-- The loop of PARSE under a decision function (R145, R147). Each iteration moves `p` by at least 1, so `n_src`
iterations are enough (R148). -/
def parseFrom (finder : (Nat → Byte) → Nat → Nat → Decision) : Nat → State → State
  | 0, s => s
  | fuel + 1, s =>
    if s.eng.p < s.nSrc then
      let t := finder s.srcByte s.nSrc s.eng.p
      parseFrom finder fuel (moveP t.advance (encodeDecision t s))
    else s

/-- PARSE, from `p = 0`, and EndOfStream after the last token (R145). -/
def parse (finder : (Nat → Byte) → Nat → Nat → Decision) (s : State) : State :=
  encodeEos (parseFrom finder s.nSrc { s with eng := { s.eng with p := 0 } })

end Sys2Proof.Machine
end

