-- ==== Sys2Proof/Machine/HeaderSize.lean ====
section
/-! DEFINITION. The Header/Size Logic of spec/44_header_size.md (R200 to R208), the Endianness Resolver of
spec/45_endian_resolver.md (R220 to R228) and the decompression front end DPREP of spec/46_commands.md R250. -/

namespace Sys2Proof.Machine

/-- MAX_SIZE(len), without overflow (R203). -/
def maxSize (len : Nat) : Nat := hdrBytes + len + (len + 4 + 7) / 8 + 1

/-- HDR_WRITE(n): `DST[0 .. 3] <- ser_LITTLE(n)` (R201). -/
def hdrWrite (n : Word) (s : State) : State := { s with dst := s.dst.setList 0 (ser compressOrder n) }

/-- HDR_CANDIDATE(E): the header read in `E`, decrypted with the first keystream word when `key_en = 1` (R202, R221). -/
def hdrCandidate (e : ByteOrder) (s : State) : Word :=
  par e (s.srcByte 0) (s.srcByte 1) (s.srcByte 2) (s.srcByte 3) ^^^
    (if s.lat.keyEn then ksWord s.params s.lat.key 0 else 0)

/-- PLAUSIBLE(v, capacity) (R222). -/
def plausible (c : Params) (v : Word) (capacity : Option Nat) : Bool :=
  decide (v.toNat ≤ c.maxLen) &&
  match capacity with
  | none => true
  | some k => decide (v.toNat ≤ k)

/-- RESOLVE: BIG first and on ties, within the capacity and then without it; none raises BadFormat (R223 to R225). -/
def resolve (capacity : Option Nat) (s : State) : Option (ByteOrder × Word) :=
  let vB := hdrCandidate .big s
  let vL := hdrCandidate .little s
  if plausible s.params vB capacity then some (.big, vB)
  else if plausible s.params vL capacity then some (.little, vL)
  else if plausible s.params vB none then some (.big, vB)
  else if plausible s.params vL none then some (.little, vL)
  else none

/-- DPREP(capacity): the byte order and the declared length, or the error kind it raises (R250, R228, R208). -/
def dprep (capacity : Option Nat) (s : State) : Except ErrKind (ByteOrder × Word) :=
  match endianOf s.lat.eIn with
  | none => .error .invalidArgument
  | some order =>
    if s.nSrc = 0 then .error .invalidArgument
    else if s.nSrc < 4 then .error .badFormat
    else
      match order with
      | none =>
        match resolve capacity s with
        | none => .error .badFormat
        | some r => .ok r
      | some e =>
        if s.params.maxLen < (hdrCandidate e s).toNat then .error .badFormat
        else .ok (e, hdrCandidate e s)

/-- What DPREP leaves in `E`, `N`, `enc` and `need` (R35, R250). -/
def setStream (e : ByteOrder) (n : Word) (s : State) : State :=
  { s with eng := { s.eng with e := e, n := n, enc := s.lat.keyEn, need := n.toNat } }

end Sys2Proof.Machine
end

