-- ==== Sys2Proof/Machine/Tokens.lean ====
section
/-! DEFINITION. The decoder half of the Token Codec, spec/43_token_codec.md R160 to R168: a meaning for each token
row, and the loop DECODE. A meaning starts where the token's control bits and payload bytes have been read (R167,
first point). DESIGN CHOICE: no token meaning tests whether SRC and DST overlap, the command that runs the tokens does
(R69; log entry 24). -/

namespace Sys2Proof.Machine

/-- The loop of COPY_EXEC: one byte at a time, each read after the one before it was written (R67, R166). -/
def copyBytes (distance : Nat) : Nat → State → State
  | 0, s => s
  | k + 1, s => copyBytes distance k (putByte (s.dstByte (s.eng.outPos - distance)) s)

/-- COPY_EXEC(distance, length), with its two tests in order (R166, R167). -/
def copyExec (distance length : Nat) (s : State) : Host.Outcome State Fault Refusal :=
  if s.eng.outPos < distance then .next (raiseInDecode s)
  else if s.declared < s.eng.outPos + length then .next (raiseInDecode s)
  else if s.cap < s.eng.outPos + length then .fault .dstOutOfBounds
  else .next (copyBytes distance length s)

/-- LIT: DEC_LIT after its GETBYTE (R161). -/
def execLit (b : Byte) (s : State) : Host.Outcome State Fault Refusal :=
  if s.declared ≤ s.eng.outPos then .next (raiseInDecode s)
  else if s.cap ≤ s.eng.outPos then .fault .dstOutOfBounds
  else .next (putByte b s)

/-- SCOPY: DEC_SHORT's copy case (R162). The pattern `length = 2, distance = 1` is EndOfStream and never reaches
here from the decoder (R81, R84). -/
def execScopy (l : BitVec 2) (x : Byte) (s : State) : Host.Outcome State Fault Refusal :=
  copyExec (shortDistance x) (shortLength l) s

/-- EOS: DEC_SHORT's sentinel case (R163). -/
def execEos (s : State) : Host.Outcome State Fault Refusal :=
  if s.eng.outPos ≠ s.declared then .next (raiseInDecode s) else .next (finish s.declared s)

/-- LCOPY: DEC_LONG (R164). -/
def execLcopy (dx : BitVec 13) (lf : BitVec 3) (s : State) : Host.Outcome State Fault Refusal :=
  if longDistance dx = 0 then .next (raiseInDecode s) else copyExec (longDistance dx) (plainLength lf) s

/-- LCOPYX: DEC_LONG_ESCAPE (R165). -/
def execLcopyx (dx : BitVec 13) (e : Byte) (s : State) : Host.Outcome State Fault Refusal :=
  if longDistance dx = 0 then .next (raiseInDecode s) else copyExec (longDistance dx) (escapeLength e) s

/-- The token's meaning. -/
def execWire : WireToken → State → Host.Outcome State Fault Refusal
  | .lit b, s => execLit b s
  | .scopy l x, s => execScopy l x s
  | .eos, s => execEos s
  | .lcopy dx lf, s => execLcopy dx lf s
  | .lcopyx dx e, s => execLcopyx dx e s

/-- The next token of the plaintext stream, and the state with the reader past it (R82, R126, R127). -/
def fetchToken (s : State) : Except DecodeError (WireToken × State) :=
  match decodeToken s.plainByte s.eng.reader with
  | .error e => .error e
  | .ok (t, r) => .ok (t, { s with eng := { s.eng with reader := r } })

/-- One iteration of DECODE: a token is read and executed; an underrun raises BadFormat (R128, R160). -/
def tokenStep (s : State) : Host.Outcome State Fault Refusal :=
  match fetchToken s with
  | .error _ => .next (raiseInDecode s)
  | .ok (t, s') => execWire t s'

/-- The iterations of DECODE until the command has ended. A token reads at least one byte of SRC, so `n_src + 1`
iterations are enough (R318). -/
def decodeLoop : Nat → State → Host.Outcome State Fault Refusal
  | 0, s => .next s
  | fuel + 1, s =>
    if s.busy then
      match tokenStep s with
      | .next s' => decodeLoop fuel s'
      | .fault f => .fault f
      | .refused r => .refused r
    else .next s

/-- Where DECODE starts: R_START(4), `out_pos = 0`; a command is running (R160). -/
def enterDecode (s : State) : State :=
  let t := setStarted s
  { t with code := none, eng := { t.eng with reader := rStart 4, outPos := 0 } }

/-- DECODE(N) (R160). -/
def decode (s : State) : Host.Outcome State Fault Refusal := decodeLoop (s.nSrc + 1) (enterDecode s)

end Sys2Proof.Machine
end

