-- ==== Sys2Proof/Machine/Commands.lean ====
section
/-! DEFINITION. The commands of spec/46_commands.md, one meaning per row of R71 and one for the illegal codes. Each
runs to its end as one step (spec/00_scope.md R11, spec/70_reset_and_hazards.md R318) and reads the latches only
(spec/10_state.md R30). -/

namespace Sys2Proof.Machine

/-! ### Compression -/

/-- The checks of COMPRESS and ARCHIVE in order: the size they need, or the error kind raised (R241, R281, R282). -/
def compressPrep (s : State) : Except ErrKind Nat :=
  match endianOf s.lat.eIn with
  | some (some _) =>
    if s.params.maxLen < s.nSrc then .error .invalidArgument
    else if s.cap < maxSize s.nSrc then .error .outOfMemory
    else .ok (maxSize s.nSrc)
  | _ => .error .invalidArgument

/-- The plaintext stream of COMPRESS or ARCHIVE: header, which holds `N = n_src`, W_START(4), PARSE (R35, R241, R242). -/
def writeStream (finder : (Nat → Byte) → Nat → Nat → Decision) (need : Nat) (s : State) : State :=
  parse finder (wStart 4 (hdrWrite s.lat.nSrc { s with eng := { s.eng with need := need, n := s.lat.nSrc } }))

/-- KS_XOR over the whole stream, always, in LITTLE, and the size as the result (R241, R252). -/
def encryptAndFinish (s : State) : State :=
  let size := s.eng.outPos
  finish size (ksXor size s.lat.key compressOrder s)

/-- COMPRESS and ARCHIVE under their decision functions. -/
def compressWith (finder : (Nat → Byte) → Nat → Nat → Decision) (s : State) : Host.Outcome State Fault Refusal :=
  if s.overlapping then .refused .buffersOverlap
  else
    match compressPrep s with
    | .error k => .next (raiseError k s)
    | .ok need => .next (encryptAndFinish (writeStream finder need s))

/-- COMPRESS (R241). -/
def execCompress (s : State) : Host.Outcome State Fault Refusal := compressWith find s

/-- ARCHIVE: the Match Finder is bypassed (R242, R147). -/
def execArchive (s : State) : Host.Outcome State Fault Refusal := compressWith findLiteral s

/-- MAX_COMPRESSED_SIZE: no buffer is read (R243). -/
def execMaxCompressedSize (s : State) : Host.Outcome State Fault Refusal := .next (finish (maxSize s.nSrc) s)

/-! ### Decompression -/

/-- The checks of DECOMPRESS_BUF and DECOMPRESS_BUF2 before DECODE: byte order and `N`, or the error kind raised
(R244, R245). `capacity` is what RESOLVE is given, `cap` for DECOMPRESS_BUF2 and none for the others (R223); `small` is
the kind raised when `N > cap`. -/
def decompressPrep (capacity : Option Nat) (small : ErrKind) (s : State) : Except ErrKind (ByteOrder × Word) :=
  match dprep capacity s with
  | .error k => .error k
  | .ok (e, n) => if s.cap < n.toNat then .error small else .ok (e, n)

/-- The checks, then DECODE (R244, R245). -/
def decompressWith (capacity : Option Nat) (small : ErrKind) (s : State) : Host.Outcome State Fault Refusal :=
  if s.overlapping then .refused .buffersOverlap
  else
    match decompressPrep capacity small s with
    | .error k => .next (raiseError k s)
    | .ok (e, n) => decode (setStream e n s)

/-- DECOMPRESS_BUF (R244). -/
def execDecompressBuf (s : State) : Host.Outcome State Fault Refusal := decompressWith none .outOfMemory s

/-- DECOMPRESS_BUF2 (R245). -/
def execDecompressBuf2 (s : State) : Host.Outcome State Fault Refusal :=
  decompressWith (some s.cap) .bufferTooSmall s

/-- DECOMPRESS_SIZE: the header alone (R246, R206). -/
def execDecompressSize (s : State) : Host.Outcome State Fault Refusal :=
  match dprep none s with
  | .error k => .next (raiseError k s)
  | .ok (_, n) => .next (finish n.toNat s)

/-! ### Keystream pass and illegal codes -/

/-- The checks of CRYPT: the byte order, or the error kind raised (R247). -/
def cryptPrep (s : State) : Except ErrKind ByteOrder :=
  match endianOf s.lat.eIn with
  | some (some e) => if s.cap < s.nSrc then .error .bufferTooSmall else .ok e
  | _ => .error .invalidArgument

/-- `DST[i] <- SRC[i]` for `k` bytes from `i` on (R247). -/
def copySrc : Nat → Nat → State → State
  | 0, _, s => s
  | k + 1, i, s => copySrc k (i + 1) (s.setDst i (s.srcByte i))

/-- CRYPT (R247). -/
def execCrypt (s : State) : Host.Outcome State Fault Refusal :=
  if s.overlapping then .refused .buffersOverlap
  else
    match cryptPrep s with
    | .error k => .next (raiseError k s)
    | .ok e => .next (finish s.nSrc (ksXor s.nSrc s.lat.key e (copySrc s.nSrc 0 s)))

/-- An illegal command: InvalidArgument, and nothing is written (R248, R72). -/
def execIllegalCmd (_code : Word) (s : State) : Host.Outcome State Fault Refusal :=
  .next (raiseError .invalidArgument s)

/-! ### What a running command may have written -/

/-- Does the command use SRC and DST both (R69)? -/
def usesBothBuffers : Instr → Bool
  | .compress | .archive | .decompressBuf | .decompressBuf2 | .crypt => true
  | .lit _ | .scopy _ _ | .eos | .lcopy _ _ | .lcopyx _ _ => true
  | .maxCompressedSize | .decompressSize | .illegalCmd _ => false

/-- The number of DST bytes, from offset 0 on, that the running command writes when it is not cut short: the "Writes"
line of its rule in R241 to R248. While the engine is inside DECODE it is `N` (R244). -/
def writeExtent (s : State) : Nat :=
  let ofDecode : Except ErrKind (ByteOrder × Word) → Nat := fun r =>
    match r with
    | .ok (_, n) => n.toNat
    | .error _ => 0
  let ofStream : ((Nat → Byte) → Nat → Nat → Decision) → Nat := fun d =>
    match compressPrep s with
    | .ok need => (writeStream d need s).eng.outPos
    | .error _ => 0
  if s.busy then
    match s.code with
    | none => min s.declared s.cap
    | some code =>
      match decodeCommand code with
      | .compress => ofStream find
      | .archive => ofStream findLiteral
      | .decompressBuf => ofDecode (decompressPrep none .outOfMemory s)
      | .decompressBuf2 => ofDecode (decompressPrep (some s.cap) .bufferTooSmall s)
      | .crypt =>
        match cryptPrep s with
        | .ok _ => s.nSrc
        | .error _ => 0
      | _ => 0
  else 0

/-- The buffers overlap and the running command uses both (R69). -/
def runsOverlapped (s : State) : Bool :=
  s.busy && s.overlapping &&
  match s.code with
  | none => true
  | some code => usesBothBuffers (decodeCommand code)

end Sys2Proof.Machine
end

