-- ==== Sys2Proof/Machine/Dispatch.lean ====
section
/-! DEFINITION. The meaning of each row of spec/opcode_table.json. -/

namespace Sys2Proof.Machine

def exec (i : Instr) (s : State) : Host.Outcome State Fault Refusal :=
  match i with
  | .lit b => Sys2Proof.Machine.execLit b s
  | .scopy l x => Sys2Proof.Machine.execScopy l x s
  | .eos => Sys2Proof.Machine.execEos s
  | .lcopy dx lf => Sys2Proof.Machine.execLcopy dx lf s
  | .lcopyx dx e => Sys2Proof.Machine.execLcopyx dx e s
  | .compress => Sys2Proof.Machine.execCompress s
  | .archive => Sys2Proof.Machine.execArchive s
  | .maxCompressedSize => Sys2Proof.Machine.execMaxCompressedSize s
  | .decompressBuf => Sys2Proof.Machine.execDecompressBuf s
  | .decompressBuf2 => Sys2Proof.Machine.execDecompressBuf2 s
  | .decompressSize => Sys2Proof.Machine.execDecompressSize s
  | .crypt => Sys2Proof.Machine.execCrypt s
  | .illegalCmd code => Sys2Proof.Machine.execIllegalCmd code s

end Sys2Proof.Machine
end

