-- ==== Sys2Proof/Machine/HostAccess.lean ====
section
/-! DEFINITION. The host, the other agent of spec/10_state.md R20: its register accesses (R21 to R29,
spec/20_memory.md R53), its accesses to the buffers (R59 to R64), reset (spec/70_reset_and_hazards.md R310), and the
host's own sequences (R249, R312). -/

namespace Sys2Proof.Machine

/-- The largest number of bytes a buffer can hold, 2^32 - 1 (R51). -/
def maxBufferBytes : Nat := 0xFFFFFFFF

/-- A buffer access of the host to `count` bytes from `offset` on, and the state it leaves: refused while BUSY (R64,
R315), a fault at an offset no buffer has (R50, R51). -/
def bufferAccess (offset count : Nat) (after s : State) : Host.Outcome State Fault Refusal :=
  if s.busy then .refused .bufferAccessWhileBusy
  else if maxBufferBytes < offset + count then .fault .noSuchOffset
  else .next after

/-- The value of a byte read, as the host sees it. -/
def byteWord (b : Byte) : Word := b.setWidth 32

/-- Reset: every host-visible register and the latches and internal registers take their reset values, a running
command is abandoned and the DST bytes it may have written take free values; buffers, their placement and the
parameters are not the block's to reset (R41, R310, X7). -/
def resetBlock (s : State) : Host.Outcome State Fault Refusal :=
  if runsOverlapped s then .refused .buffersOverlap
  else
    let t := s.freeDst (writeExtent s)
    .next { t with
      endian := 0, key := 0, keyEn := false, srcLen := 0, dstCap := 0, busy := false, done := false, result := 0,
      code := none, lat := Latches.reset, eng := Engine.reset }

/-- One host access. `letRun` and a `wait` that is not over let the engine move instead (EngineStep.lean). -/
def hostAccess (op : HostOp) (s : State) : Host.Outcome State Fault Refusal :=
  match op with
  | .writeReg offset v => .next (writeReg offset v s)
  | .readReg offset => .next { s with lastRead := readReg offset s }
  | .wait => .next { s with lastRead := statusWord s }
  | .letRun => .next s
  | .writeSrc offset bytes =>
    bufferAccess offset bytes.length { s with src := s.src.setList offset bytes } s
  | .writeDst offset bytes =>
    bufferAccess offset bytes.length { s with dst := s.dst.setList offset bytes } s
  | .readSrc offset => bufferAccess offset 1 { s with lastRead := byteWord (s.srcByte offset) } s
  | .readDst offset => bufferAccess offset 1 { s with lastRead := byteWord (s.dstByte offset) } s
  | .place srcBase dstBase =>
    if s.busy then .refused .bufferAccessWhileBusy else .next { s with srcBase := srcBase, dstBase := dstBase }
  | .reset => resetBlock s

/-! ### Host sequences -/

/-- The host program of a command: operands, CMD, wait, read RESULT (R89, R312). -/
def commandProgram (src : List Byte) (dstCap endian key keyEn code : Word) : List HostOp :=
  [.writeSrc 0 src, .writeReg 0x10 (BitVec.ofNat 32 src.length), .writeReg 0x14 dstCap, .writeReg 0x04 endian,
   .writeReg 0x08 key, .writeReg 0x0C keyEn, .writeReg 0x00 code, .wait, .readReg 0x20, .readReg 0x24]

/-- `decompress_file`, not a command of the block: the file's bytes placed in SRC, no key, DECOMPRESS_BUF (R249). A
file that cannot be read gives no access at all; the host reports IOFailure itself (R286). -/
def decompressFileProgram (file : Option (List Byte)) (dstCap endian : Word) : List HostOp :=
  match file with
  | none => []
  | some bytes =>
    [.writeSrc 0 bytes, .writeReg 0x10 (BitVec.ofNat 32 bytes.length), .writeReg 0x14 dstCap,
     .writeReg 0x04 endian, .writeReg 0x0C 0, .writeReg 0x00 4, .wait, .readReg 0x20, .readReg 0x24]

end Sys2Proof.Machine
end

