-- ==== Sys2Proof/Machine/EngineStep.lean ====
section
/-! DEFINITION. The moves of the two agents of spec/10_state.md R20: the engine's, and the choice between the engine
and the next host access. A command is one engine move (spec/70_reset_and_hazards.md R318). -/

namespace Sys2Proof.Machine

/-- The engine's move. Idle, it does nothing (R311). With a command started, it runs the command whose code was
written (R240). Inside DECODE it executes the next token, or raises BadFormat on underrun (R128, R160); DESIGN CHOICE: it
does so over overlapping buffers too, since R69 refuses commands and a token step is the model's own (log entry 24). -/
def engineStep (s : State) : Host.Outcome State Fault Refusal :=
  if s.busy then
    match s.code with
    | some code => exec (decodeCommand code) { s with code := none }
    | none =>
      match fetchToken s with
      | .ok (t, s') => exec t.toInstr s'
      | .error _ => .next (raiseInDecode s)
  else .next s

/-- With no host access to come, the engine moves. `letRun` lets it move once; `wait` polls STATUS, lets the engine
move while BUSY and is over once DONE = 1 (R89, R312); every other access is the host's move. -/
def nextMove (s : State) : Host.Outcome State Fault Refusal :=
  match s.inputs with
  | [] => engineStep s
  | .letRun :: rest => engineStep { s with inputs := rest }
  | .wait :: rest =>
    if s.done then hostAccess .wait { s with inputs := rest }
    else if s.busy then engineStep s
    else hostAccess .wait s
  | op :: rest => hostAccess op { s with inputs := rest }

end Sys2Proof.Machine
end

