-- ==== Sys2Proof/Machine/Placement.lean ====
section
/-! DEFINITION. Where the next step finds its instruction, and how an instruction is put there (`State.withFetchWord`
in Step.lean calls these). A command word is found in CMD, a token in the plaintext stream (spec/30_encoding.md R70);
nothing is fetched at a program counter (spec/00_scope.md R10). -/

namespace Sys2Proof.Machine

/-- A command placed for the next step: the host has written its code to CMD and lets the engine move (R22). -/
def placeCommand (code : Word) (s : State) : State := { startCommand code s with inputs := [] }

/-- A token placed for the next step: the engine is inside DECODE with a fresh reader at offset 4, and SRC holds a
plain stream with the token's bytes there (R125, R160). -/
def placeToken (bytes : List Byte) (s : State) : State :=
  { setStarted s with
    code := none
    inputs := []
    src := s.src.setList 4 bytes
    lat := { s.lat with nSrc := BitVec.ofNat 32 (4 + bytes.length) }
    eng := { s.eng with reader := rStart 4, enc := false } }

/-- The instruction whose bits the opcode table numbers as `w`, placed for the next step: as `decodeTableWord` reads
it. -/
def placeTableWord (s : State) (nbits w : Nat) : State :=
  if nbits = 32 then placeCommand (BitVec.ofNat 32 w) s else placeToken (tokenBytes nbits w) s

end Sys2Proof.Machine
end

