-- ==== Sys2Proof/Machine/Step.lean ====
section
/-! DEFINITION. One step of the block and its host, and how an instruction is put where the next step finds it. -/

namespace Sys2Proof.Machine

/-- One step (see `nextMove`). -/
def step (s : State) : Host.Outcome State Fault Refusal := nextMove s

/-- The state with an instruction put where the next step finds it (see `placeTableWord`). -/
def State.withFetchWord (s : State) (nbits w : Nat) : State := placeTableWord s nbits w

end Sys2Proof.Machine
end

