-- ==== Sys2Proof/Machine/Assembler.lean ====
section
/-! DEFINITION. The token assembly of spec/30_encoding.md R87 and R88, by statements instead of text: operands are
decoded lengths and distances, and a statement outside its format's range is refused. -/

namespace Sys2Proof.Machine

/-- A statement of R87, or the pseudo-instruction COPY of R88. -/
inductive AsmStatement where
  | lit (byte : Nat)
  | scopy (length distance : Nat)
  | lcopy (length distance : Nat)
  | lcopyx (length distance : Nat)
  | eos
  | copy (length distance : Nat)
  deriving DecidableEq, Repr

/-- `dx` of a distance (R79). -/
def dxOf (distance : Nat) : BitVec 13 := BitVec.ofNat 13 distance ^^^ 0x1FFF#13

/-- SCOPY length, distance (R87). -/
def asmScopy (length distance : Nat) : Option WireToken :=
  if 2 ≤ length ∧ length ≤ 5 ∧ 1 ≤ distance ∧ distance ≤ 256 ∧ ¬ (length = 2 ∧ distance = 1) then
    some (.scopy (BitVec.ofNat 2 (length - 2)) (BitVec.ofNat 8 (256 - distance)))
  else none

/-- LCOPY length, distance (R87). -/
def asmLcopy (length distance : Nat) : Option WireToken :=
  if 2 ≤ length ∧ length ≤ 8 ∧ 1 ≤ distance ∧ distance ≤ 8191 then
    some (.lcopy (dxOf distance) (BitVec.ofNat 3 (length - 1)))
  else none

/-- LCOPYX length, distance (R87). -/
def asmLcopyx (length distance : Nat) : Option WireToken :=
  if 9 ≤ length ∧ length ≤ 264 ∧ 1 ≤ distance ∧ distance ≤ 8191 then
    some (.lcopyx (dxOf distance) (BitVec.ofNat 8 (length - 9)))
  else none

/-- COPY length, distance: the one token R170 selects (R88). -/
def asmCopy (length distance : Nat) : Option WireToken :=
  if distance ≤ shortMaxDist ∧ length ≤ shortMaxLen ∧ ¬ (distance = 1 ∧ length = 2) then asmScopy length distance
  else if length ≤ longMaxPlainLen then asmLcopy length distance
  else asmLcopyx length distance

/-- The token of a statement, or none where the assembler refuses it. -/
def assemble : AsmStatement → Option WireToken
  | .lit b => if b < 256 then some (.lit (BitVec.ofNat 8 b)) else none
  | .scopy l d => asmScopy l d
  | .lcopy l d => asmLcopy l d
  | .lcopyx l d => asmLcopyx l d
  | .eos => some .eos
  | .copy l d => asmCopy l d

/-- `STREAM N, E` followed by statements: the whole plaintext stream, or none where a statement is refused (R88). -/
def assembleStream (n : Word) (e : ByteOrder) (stmts : List AsmStatement) : Option (List Byte) :=
  (stmts.mapM assemble).map (encodeStream n e)

end Sys2Proof.Machine
end

