-- ==== Sys2Proof/Safety.lean ====
section
/-! DEFINITION. The terms the statements are written in: what a command's end changes, which DST bytes stay, the
invariant of the machine, and the plain mathematical readings of a token stream that the engine is held against. -/

namespace Sys2Proof.Machine

/-! ### Frames -/

/-- `t` is `s` after a command has ended with RESULT `r` (spec/60_exceptions.md R283): BUSY 0, DONE 1. Every operand
register, SRC, the placement, the parameters and the host's own fields are those of `s`. DST is said separately; the
latches and internal registers are unspecified from here on (spec/10_state.md R42). -/
def Ended (r : ResultWord) (s t : State) : Prop :=
  t = { s with
    busy := false, done := true, result := r, code := none
    dst := t.dst, lat := t.lat, eng := t.eng, freeCount := t.freeCount }

/-- Every DST byte at offset `k` or above reads as before. -/
def DstKeptFrom (k : Nat) (s t : State) : Prop := ∀ a, k ≤ a → t.dst.get a = s.dst.get a

/-- `t` is `s` after the command has ended with error kind `k` and no DST byte has changed (R251, R283). -/
def FailedWith (k : ErrKind) (s t : State) : Prop := Ended (BitVec.ofInt 64 k.code) s t ∧ t.dst = s.dst

/-- The instruction is a command word, not a token. -/
def isCommand : Instr → Bool
  | .lit _ | .scopy _ _ | .eos | .lcopy _ _ | .lcopyx _ _ => false
  | .compress | .archive | .maxCompressedSize | .decompressBuf | .decompressBuf2 | .decompressSize | .crypt
  | .illegalCmd _ => true

/-- The operand registers replaced; everything else, the latches too, kept. -/
def State.withOperands (s : State) (endian key : Word) (keyEn : Bool) (srcLen dstCap : Word) : State :=
  { s with endian := endian, key := key, keyEn := keyEn, srcLen := srcLen, dstCap := dstCap }

/-- A function applied to the next state of an outcome. -/
def mapNext (f : State → State) : Host.Outcome State Fault Refusal → Host.Outcome State Fault Refusal
  | .next s => .next (f s)
  | .fault r => .fault r
  | .refused r => .refused r

/-- For a host access to bytes of SRC or DST, the offset just past the last of them; none for every other access. -/
def HostOp.bufferReach : HostOp → Option Nat
  | .writeSrc offset bytes => some (offset + bytes.length)
  | .writeDst offset bytes => some (offset + bytes.length)
  | .readSrc offset => some (offset + 1)
  | .readDst offset => some (offset + 1)
  | .writeReg _ _ | .readReg _ | .wait | .letRun | .place _ _ | .reset => none

/-! ### The invariant -/

/-- What every reachable state satisfies. Inside DECODE (BUSY, no code waiting) the output is within the declared
length, and that within `cap` and MAX_LEN (spec/43_token_codec.md R160, spec/44_header_size.md R208). -/
structure Inv (s : State) : Prop where
  srcWf : s.src.wf
  dstWf : s.dst.wf
  busyNotDone : s.busy = true → s.done = false
  codeOnlyBusy : s.code ≠ none → s.busy = true
  bitsUsed : s.eng.bitsUsed ≤ 8
  bitsLeft : s.eng.reader.bitsLeft ≤ 8
  outInDeclared : s.busy = true → s.code = none → s.eng.outPos ≤ s.declared
  declaredInCap : s.busy = true → s.code = none → s.declared ≤ s.cap
  declaredInMax : s.busy = true → s.code = none → s.declared ≤ s.params.maxLen

/-! ### The channel as a sequence of items -/

/-- One item sent through the writer (R121, R122). -/
def sendItem (s : State) : ChannelItem → State
  | .bit b => putBit b s
  | .byte v => putByte v s

/-- Items sent in order. -/
def sendItems (items : List ChannelItem) (s : State) : State := items.foldl sendItem s

/-- One read through the reader, of the kind of the given item (R126, R127). -/
def readLike (P : Nat → Option Byte) (r : Reader) : ChannelItem → Except DecodeError (ChannelItem × Reader)
  | .bit _ =>
    match getBit P r with
    | .ok (b, r') => .ok (.bit b, r')
    | .error e => .error e
  | .byte _ =>
    match getByte P r with
    | .ok (v, r') => .ok (.byte v, r')
    | .error e => .error e

/-- Reads of the kinds of the given items, in order. -/
def readAllLike (P : Nat → Option Byte) : List ChannelItem → Reader → Except DecodeError (List ChannelItem × Reader)
  | [], r => .ok ([], r)
  | i :: is, r =>
    match readLike P r i with
    | .error e => .error e
    | .ok (j, r') =>
      match readAllLike P is r' with
      | .error e => .error e
      | .ok (js, r'') => .ok (j :: js, r'')

/-! ### The meaning of a token list -/

/-- A copy on the output so far: the last `d` bytes repeated over `l` bytes (spec/20_memory.md R67); none where the
distance is 0 or reaches before the output (R166). -/
def replayCopy (out : List Byte) (d l : Nat) : Option (List Byte) :=
  if 1 ≤ d ∧ d ≤ out.length then
    some (out ++ (List.range l).map (fun k => out.getD (out.length - d + k % d) 0))
  else none

/-- A token on the output so far (R76). -/
def replayToken (out : List Byte) : WireToken → Option (List Byte)
  | .lit b => some (out ++ [b])
  | .scopy l x => replayCopy out (shortDistance x) (shortLength l)
  | .eos => some out
  | .lcopy dx lf => replayCopy out (longDistance dx) (plainLength lf)
  | .lcopyx dx e => replayCopy out (longDistance dx) (escapeLength e)

/-- The bytes a token list stands for. -/
def replay (ts : List WireToken) : Option (List Byte) := ts.foldlM replayToken []

/-- The token list holds well-formed tokens, and EndOfStream is none of them. -/
def properTokens (ts : List WireToken) : Prop := ∀ t ∈ ts, t.toInstr.wellFormed = true ∧ t ≠ .eos

/-! ### The meaning of a parse -/

/-- The decisions of the greedy loop from the cursor `p` on (spec/42_match_finder.md R145). -/
def decisions (finder : (Nat → Byte) → Nat → Nat → Decision) (src : Nat → Byte) (n : Nat) : Nat → Nat → List Decision
  | 0, _ => []
  | fuel + 1, p =>
    if p < n then finder src n p :: decisions finder src n fuel (p + (finder src n p).advance) else []

/-- The token of a decision, by the COPY statement of spec/30_encoding.md R88. -/
def Decision.wire : Decision → WireToken
  | .literal b => .lit b
  | .copy d l => (asmCopy l d).getD .eos

/-- The plaintext stream of a source of `n` bytes under a decision function: header in LITTLE, the tokens of the parse,
EndOfStream (R74, R145, R201). -/
def plainStream (finder : (Nat → Byte) → Nat → Nat → Decision) (src : Nat → Byte) (n : Word) : List Byte :=
  encodeStream n .little ((decisions finder src n.toNat n.toNat 0).map Decision.wire ++ [.eos])

/-- `DST[0 .. k-1]` of `t` is the plaintext stream encrypted in LITTLE with the latched key of `s` (R103, R241). -/
def HoldsEncrypted (plain : List Byte) (s t : State) : Prop :=
  ∀ i, i < plain.length →
    t.dst.get i = some (plain.getD i 0 ^^^ ksByte s.params s.lat.key .little i)

end Sys2Proof.Machine
end

