-- ==== Sys2Proof/Certificates/Slice0/Obligations.lean ====
section
/-! DEFINITION. The statements for the provers. Each docstring names the rules of spec/ it formalises, or says that it
rests on a choice of the model and names the log entry. -/

open Sys2Proof Sys2Proof.Machine

/-! ### Reset and the step -/

/-- R41, R310, R311: after reset every host-visible register reads 0 and the engine is idle. (The internal registers'
reset values are the model's choice, log entry 5, and are not stated here.) -/
def Obligations.ResetStateIsIdleAndZero : Prop :=
  (∀ offset, readReg offset State.reset = 0) ∧ State.reset.result = 0 ∧
  State.reset.busy = false ∧ State.reset.done = false ∧ State.reset.code = none ∧
  State.reset.params = Config.params

/-- R240, R11, R318, R89, R312: with a command started, one step is the execution of the instruction its code names; the
code is taken from CMD. It is so with no host access to come, while the host lets the engine run, and while it waits for
DONE. (The list of host accesses is the model's, log entry 9.) -/
def Obligations.StepRunsStartedCommand : Prop :=
  ∀ (s : State) (code : Word), s.busy = true → s.code = some code →
    (s.inputs = [] → step s = exec (decodeCommand code) { s with code := none }) ∧
    (∀ rest, s.inputs = .letRun :: rest →
      step s = exec (decodeCommand code) { s with code := none, inputs := rest }) ∧
    (∀ rest, s.inputs = .wait :: rest → s.done = false →
      step s = exec (decodeCommand code) { s with code := none })

/-- R160, R126, R127: inside DECODE one step executes the token that stands at the reader's place, with the reader moved
past it, with no host access to come, while the host lets the engine run, and while it waits for DONE. (Model's choices:
that a token is a step of its own, log entry 10; that it runs over overlapping buffers too, log entry 24; the list of host
accesses, log entry 9.) -/
def Obligations.StepRunsDecodedToken : Prop :=
  ∀ (s : State) (t : WireToken) (r : Reader), s.busy = true → s.code = none →
    decodeToken s.plainByte s.eng.reader = .ok (t, r) →
    (s.inputs = [] → step s = exec t.toInstr { s with eng := { s.eng with reader := r } }) ∧
    (∀ rest, s.inputs = .letRun :: rest →
      step s = exec t.toInstr { s with eng := { s.eng with reader := r }, inputs := rest }) ∧
    (∀ rest, s.inputs = .wait :: rest → s.done = false →
      step s = exec t.toInstr { s with eng := { s.eng with reader := r } })

/-- R311, R89: an idle engine does nothing while the host makes no access; a WAIT is over exactly when DONE = 1, and
until then the engine moves if it is BUSY, and a WAIT on an idle block that has completed nothing stays pending and polls
STATUS. (That the last case polls for ever, the list of host accesses, and `letRun`, are the model's choices, log entry 9.) -/
def Obligations.IdleStepsAndWait : Prop :=
  (∀ s : State, s.inputs = [] → s.busy = false → step s = .next s) ∧
  (∀ (s : State) rest, s.inputs = .wait :: rest → s.done = true →
    step s = .next { s with inputs := rest, lastRead := statusWord s }) ∧
  (∀ (s : State) rest, s.inputs = .wait :: rest → s.done = false → s.busy = true →
    step s = engineStep s) ∧
  (∀ (s : State) rest, s.inputs = .wait :: rest → s.done = false → s.busy = false →
    step s = .next { s with lastRead := statusWord s }) ∧
  (∀ (s : State) rest, s.inputs = .letRun :: rest → step s = engineStep { s with inputs := rest })

/-! ### The host's accesses -/

/-- R22, R30: a write to CMD while idle latches the operand registers, sets BUSY, clears DONE and holds the code for
the engine; nothing else changes. -/
def Obligations.CmdWriteWhileIdleStartsCommand : Prop :=
  ∀ (s : State) (code : Word) rest, s.inputs = .writeReg 0x00 code :: rest → s.busy = false →
    step s = .next { s with
      inputs := rest, busy := true, done := false, code := some code
      lat := { eIn := s.endian, key := s.key, keyEn := s.keyEn, nSrc := s.srcLen, cap := s.dstCap } }

/-- R314: a CMD write while BUSY changes nothing; a write to any register while BUSY leaves the latches, the command,
its progress, both buffers and STATUS as they are. -/
def Obligations.RegisterWritesWhileBusyDoNotReachTheCommand : Prop :=
  (∀ (s : State) (v : Word), s.busy = true → writeReg 0x00 v s = s) ∧
  (∀ (s : State) (offset : Nat) (v : Word), s.busy = true →
    (writeReg offset v s).lat = s.lat ∧ (writeReg offset v s).code = s.code ∧ (writeReg offset v s).eng = s.eng ∧
    (writeReg offset v s).src = s.src ∧ (writeReg offset v s).dst = s.dst ∧
    (writeReg offset v s).busy = true ∧ (writeReg offset v s).done = s.done ∧
    (writeReg offset v s).result = s.result)

/-- R30, R314: what an instruction does depends on the latches, never on the operand registers, and it leaves those
registers as they are: replacing them before or after is the same. -/
def Obligations.InstructionsReadOnlyTheLatches : Prop :=
  ∀ (i : Instr) (s : State) (endian key : Word) (keyEn : Bool) (srcLen dstCap : Word),
    exec i (s.withOperands endian key keyEn srcLen dstCap) =
      mapNext (fun t => t.withOperands endian key keyEn srcLen dstCap) (exec i s)

/-- R21 to R29, R90: what the registers hold after a write, with everything else as before, what they read as, which bits
and offsets are reserved; a write and a read as steps, the read changing no state but the model's own record of what the
host saw (R60; log entry 9). (That an offset between two listed ones, such as 0x01, is one not listed is the model's
reading, log entry 22.) -/
def Obligations.RegisterMapReadsAndWrites : Prop :=
  (∀ (s : State) (v : Word),
    readReg 0x04 (writeReg 0x04 v s) = v ∧ readReg 0x08 (writeReg 0x08 v s) = v ∧
    readReg 0x0C (writeReg 0x0C v s) = v &&& 1 ∧ readReg 0x10 (writeReg 0x10 v s) = v ∧
    readReg 0x14 (writeReg 0x14 v s) = v) ∧
  (∀ (s : State) (v : Word),
    writeReg 0x04 v s = { s with endian := v } ∧ writeReg 0x08 v s = { s with key := v } ∧
    writeReg 0x0C v s = { s with keyEn := v.getLsbD 0 } ∧ writeReg 0x10 v s = { s with srcLen := v } ∧
    writeReg 0x14 v s = { s with dstCap := v }) ∧
  (∀ (s : State) (offset : Nat) (v : Word) rest, s.inputs = .writeReg offset v :: rest →
    step s = .next (writeReg offset v { s with inputs := rest })) ∧
  (∀ (s : State) (offset : Nat) (v : Word),
    offset ∉ [0x00, 0x04, 0x08, 0x0C, 0x10, 0x14] → writeReg offset v s = s) ∧
  (∀ (s : State) (offset : Nat), offset ∉ [0x04, 0x08, 0x0C, 0x10, 0x14, 0x18, 0x20, 0x24] → readReg offset s = 0) ∧
  (∀ s : State, readReg 0x24 s ++ readReg 0x20 s = s.result) ∧
  (∀ s : State, (readReg 0x18 s).getLsbD 0 = s.busy ∧ (readReg 0x18 s).getLsbD 1 = s.done ∧
    readReg 0x18 s &&& 0xFFFFFFFC = 0) ∧
  (∀ (s : State) (offset : Nat) rest, s.inputs = .readReg offset :: rest →
    step s = .next { s with inputs := rest, lastRead := readReg offset s })

/-- R64, R315, R50, R51, R61: a host access to SRC or DST, or to their placement, while BUSY is refused; while idle, the
host places the buffers where it likes, and bytes written to SRC or DST stand at their offsets with every other byte as
before, and a byte read changes nothing but the model's own record of what the host saw (R60); a write or a read at an
offset that no buffer can have is a fault. (Model's choices: the fault, log entry 12; that a re-placed buffer keeps its
bytes and a write to one buffer leaves the other alone wherever they are placed, log entry 6; what a byte nothing has
written reads as, log entry 4.) -/
def Obligations.BufferAccessesOfTheHost : Prop :=
  (∀ (s : State) (op : HostOp) rest, s.inputs = op :: rest → s.busy = true →
    (∃ o b, op = .writeSrc o b) ∨ (∃ o b, op = .writeDst o b) ∨ (∃ o, op = .readSrc o) ∨ (∃ o, op = .readDst o) ∨
      (∃ a b, op = .place a b) →
    step s = .refused .bufferAccessWhileBusy) ∧
  (∀ (s : State) (a b : Nat) rest, s.inputs = .place a b :: rest → s.busy = false →
    step s = .next { s with inputs := rest, srcBase := a, dstBase := b }) ∧
  (∀ (s : State) (o : Nat) (bytes : List Byte) rest, s.inputs = .writeSrc o bytes :: rest → s.busy = false →
    o + bytes.length ≤ 0xFFFFFFFF →
    ∃ m, step s = .next { s with inputs := rest, src := m } ∧
      ∀ a, m.get a = if o ≤ a ∧ a < o + bytes.length then bytes[a - o]? else s.src.get a) ∧
  (∀ (s : State) (o : Nat) (bytes : List Byte) rest, s.inputs = .writeDst o bytes :: rest → s.busy = false →
    o + bytes.length ≤ 0xFFFFFFFF →
    ∃ m, step s = .next { s with inputs := rest, dst := m } ∧
      ∀ a, m.get a = if o ≤ a ∧ a < o + bytes.length then bytes[a - o]? else s.dst.get a) ∧
  (∀ (s : State) (o : Nat) (bytes : List Byte) rest,
    s.inputs = .writeSrc o bytes :: rest ∨ s.inputs = .writeDst o bytes :: rest → s.busy = false →
    0xFFFFFFFF < o + bytes.length → step s = .fault .noSuchOffset) ∧
  (∀ (s : State) (o : Nat) rest, s.busy = false → o < 0xFFFFFFFF →
    (s.inputs = .readSrc o :: rest →
      step s = .next { s with inputs := rest, lastRead := (s.srcByte o).setWidth 32 }) ∧
    (s.inputs = .readDst o :: rest →
      step s = .next { s with inputs := rest, lastRead := (s.dstByte o).setWidth 32 })) ∧
  (∀ (s : State) (o : Nat) rest, s.inputs = .readSrc o :: rest ∨ s.inputs = .readDst o :: rest → s.busy = false →
    0xFFFFFFFF ≤ o → step s = .fault .noSuchOffset)

/-- R69, X6: a command that uses SRC and DST is refused when the buffers share an address. (That the refusal comes before
the command's own checks, and that the other commands run, is the model's choice, log entry 11.) -/
def Obligations.OverlappingBuffersAreRefused : Prop :=
  ∀ (i : Instr) (s : State) (x : Nat), i ∈ [.compress, .archive, .decompressBuf, .decompressBuf2, .crypt] →
    s.srcBase ≤ x ∧ x < s.srcBase + s.nSrc → s.dstBase ≤ x ∧ x < s.dstBase + s.cap →
    exec i s = .refused .buffersOverlap

/-- R310, R41, X7: a reset makes the block idle with every host-visible register 0 and keeps the buffers, their
placement and the parameters, but for the DST bytes the abandoned command may have written; no byte beyond those is
one the command would have written. When no command runs, DST is unchanged. (Which bytes those are is the model's
reading, log entry 8.) -/
def Obligations.ResetAbandonsTheRunningCommand : Prop :=
  (∀ (s : State) rest, s.inputs = .reset :: rest → runsOverlapped s = false →
    ∃ t, step s = .next t ∧
      t.endian = 0 ∧ t.key = 0 ∧ t.keyEn = false ∧ t.srcLen = 0 ∧ t.dstCap = 0 ∧ t.result = 0 ∧
      t.busy = false ∧ t.done = false ∧ t.code = none ∧
      t.src = s.src ∧ t.srcBase = s.srcBase ∧ t.dstBase = s.dstBase ∧ t.params = s.params ∧ t.inputs = rest ∧
      DstKeptFrom (writeExtent s) s t ∧ (s.busy = false → t.dst = s.dst)) ∧
  (∀ (s t : State), s.busy = true → s.inputs = [] → step s = .next t → DstKeptFrom (writeExtent s) s t)

/-! ### The end of a command -/

/-- R283, R280: `raise K` writes K's code to RESULT, `finish(v)` writes `v`; either sets BUSY 0 and DONE 1 and changes
neither a buffer nor an operand register. -/
def Obligations.CommandEndWritesResultAndStatus : Prop :=
  (∀ (k : ErrKind) (s : State), Ended (BitVec.ofInt 64 k.code) s (raiseError k s) ∧ (raiseError k s).dst = s.dst) ∧
  (∀ (v : Nat) (s : State), Ended (BitVec.ofNat 64 v) s (finish v s) ∧ (finish v s).dst = s.dst) ∧
  (∀ s : State, (raiseError .invalidArgument s).result.toInt = -1 ∧ (raiseError .outOfMemory s).result.toInt = -2 ∧
    (raiseError .badFormat s).result.toInt = -3 ∧ (raiseError .bufferTooSmall s).result.toInt = -4)

/-! ### Keystream -/

/-- R101, R102: KS_INIT stores the key; KS_NEXT stores and returns `(KS * KS_M + KS_C) mod 2^32`, the new state; after
KS_INIT(0) it returns `KS_C`. `KS_M` is odd. Nothing but `KS` changes. -/
def Obligations.KsInitStoresKeyAndKsNextReturnsNewState : Prop :=
  (∀ (key : Word) (s : State), ksInit key s = { s with eng := { s.eng with ks := key } }) ∧
  (∀ s : State,
    (ksNext s).1.toNat = (s.eng.ks.toNat * s.params.ksM.toNat + s.params.ksC.toNat) % 2 ^ 32 ∧
    (ksNext s).2 = { s with eng := { s.eng with ks := (ksNext s).1 } }) ∧
  (∀ s : State, (ksNext (ksInit 0 s)).1 = s.params.ksC) ∧
  (∀ c : Params, c.ksM.toNat % 2 = 1)

/-- R103, R104, R127: KS_XOR on `k` bytes XORs DST byte `i` with byte `i mod 4` of `ser_E` of the `(i/4 + 1)`-th word
after KS_INIT, for every `i < k`; it draws `ceil(k/4)` words, so that word is left in `KS` (for `k = 0` the key), and
changes no other byte and no other register. -/
def Obligations.KsXorXorsKeystreamBytes : Prop :=
  ∀ (k : Nat) (key : Word) (e : ByteOrder) (s : State),
    (∀ i, i < k → (ksXor k key e s).dst.get i = some (s.dstByte i ^^^ ksByte s.params key e i)) ∧
    DstKeptFrom k s (ksXor k key e s) ∧
    ksXor k key e s = { s with
      dst := (ksXor k key e s).dst
      eng := { s.eng with ks := if k = 0 then key else ksWord s.params key ((k + 3) / 4 - 1) } }

/-- R106: KS_XOR is its own inverse. -/
def Obligations.KsXorIsItsOwnInverse : Prop :=
  ∀ (k : Nat) (key : Word) (e : ByteOrder) (s : State) (i : Nat),
    (ksXor k key e (ksXor k key e s)).dstByte i = s.dstByte i

/-- R10, R54, R202, R221, R105: `par_E` is the inverse of `ser_E`, and the header candidate is `par_E` of the first four
bytes of the plaintext stream under `E`, decrypted or not. -/
def Obligations.HeaderCandidateIsPlaintextHeader : Prop :=
  (∀ (e : ByteOrder) (b0 b1 b2 b3 : Byte), ser e (par e b0 b1 b2 b3) = [b0, b1, b2, b3]) ∧
  (∀ (e : ByteOrder) (n : Word) (s : State) (b0 b1 b2 b3 : Byte),
    (setStream e n s).plainByte 0 = some b0 → (setStream e n s).plainByte 1 = some b1 →
    (setStream e n s).plainByte 2 = some b2 → (setStream e n s).plainByte 3 = some b3 →
    hdrCandidate e s = par e b0 b1 b2 b3)

/-! ### The bit-token channel -/

/-- R122: PUTBYTE stores the byte at `out_pos` and advances `out_pos` by one; it neither opens nor closes a control
byte, and every other byte and register is as before. -/
def Obligations.PutByteAppendsOneByte : Prop :=
  ∀ (v : Byte) (s : State),
    (putByte v s).dst.get s.eng.outPos = some v ∧
    (∀ a, a ≠ s.eng.outPos → (putByte v s).dst.get a = s.dst.get a) ∧
    putByte v s = { s with dst := (putByte v s).dst, eng := { s.eng with outPos := s.eng.outPos + 1 } }

/-- R121, R122, R123, R130: from W_START(o), sending any control bits and payload bytes writes exactly the bytes of
`pack`, in which a control byte stands where its first bit was needed, holds its bits from bit 0 up and is 0 where no
bit was placed; `out_pos` ends past them and no other byte changes. -/
def Obligations.WriterProducesPackedStream : Prop :=
  ∀ (items : List ChannelItem) (o : Nat) (s : State),
    (∀ i, i < (pack 8 items).length → (sendItems items (wStart o s)).dst.get (o + i) = (pack 8 items)[i]?) ∧
    (∀ a, a < o ∨ o + (pack 8 items).length ≤ a → (sendItems items (wStart o s)).dst.get a = s.dst.get a) ∧
    (sendItems items (wStart o s)).eng.outPos = o + (pack 8 items).length

/-- R129: the reader started where the writer started returns the same bits and bytes, in the same order, and consumes
exactly the bytes written, whatever follows them. -/
def Obligations.ReaderMirrorsWriter : Prop :=
  ∀ (items : List ChannelItem) (o : Nat) (P : Nat → Option Byte),
    (∀ i, i < (pack 8 items).length → P (o + i) = (pack 8 items)[i]?) →
    ∃ r, readAllLike P items (rStart o) = .ok (items, r) ∧ r.inPos = o + (pack 8 items).length

/-- R128: a byte is read exactly when `in_pos < n_src`, as a payload byte and, when no control bit is left, as a control
byte, whose bit 0 is the first bit read (R126, R127); a token whose reading runs past the end raises BadFormat and ends
the command. (The last clause is about a token step, the model's choice, log entry 10.) -/
def Obligations.ReadPastTheEndRaisesBadFormat : Prop :=
  (∀ (s : State) (r : Reader), s.nSrc ≤ r.inPos → getByte s.plainByte r = .error .payloadUnderrun) ∧
  (∀ (s : State) (r : Reader), s.nSrc ≤ r.inPos → r.bitsLeft = 0 →
    getBit s.plainByte r = .error .controlUnderrun) ∧
  (∀ (s : State) (r : Reader), r.inPos < s.nSrc →
    ∃ v, s.plainByte r.inPos = some v ∧ getByte s.plainByte r = .ok (v, { r with inPos := r.inPos + 1 }) ∧
      (r.bitsLeft = 0 → getBit s.plainByte r =
        .ok (v.getLsbD 0, { inPos := r.inPos + 1, cur := v >>> 1, bitsLeft := 7 }))) ∧
  (∀ (s : State) (e : DecodeError), s.inputs = [] → s.busy = true → s.code = none →
    decodeToken s.plainByte s.eng.reader = .error e →
    ∃ t, step s = .next t ∧ Ended (BitVec.ofInt 64 (-3)) s t)

/-! ### Encodings -/

/-- R71, R72, R76 to R81: decoding the encoding of a well-formed instruction gives that instruction back, for every
value of every field. -/
def Obligations.EncodeDecodeRoundTrip : Prop :=
  ∀ i : Instr, i.wellFormed = true → decodeEncoding (encode i) = some i

/-- R75, R82, R129, R168: a token list closed by EndOfStream, packed into bytes with its control bytes interleaved,
decodes to the same list, whatever bytes follow. -/
def Obligations.TokenStreamRoundTrip : Prop :=
  ∀ (ts : List WireToken) (trailing : List Byte), properTokens ts →
    decodeTokens (listStream (encodeTokens (ts ++ [.eos]) ++ trailing)) (ts.length + 1) (rStart 0) =
      .ok (ts ++ [.eos])

/-- R72, R76, R81, R84: whatever the decoder reads is well formed: no SCOPY with the EndOfStream pattern, no LCOPY with
length field 0, no illegal command with a legal code; and a command code is a named command exactly from 1 to 7. -/
def Obligations.DecodedInstructionsAreWellFormed : Prop :=
  (∀ (P : Nat → Option Byte) (r r' : Reader) (t : WireToken), decodeToken P r = .ok (t, r') →
    t.toInstr.wellFormed = true) ∧
  (∀ w : Word, (decodeCommand w).wellFormed = true ∧
    (decodeCommand w = .illegalCmd w ↔ w.toNat = 0 ∨ 7 < w.toNat))

/-- R71, R76 to R81: words written out from the encodings decode to the instructions they stand for. -/
def Obligations.SpecWordsDecode : Prop :=
  decodeEncoding (.token [0b00000001, 0x41]) = some (.lit 0x41) ∧
  decodeEncoding (.token [0b00001000, 0xFF]) = some (.scopy 0b01 0xFF) ∧
  decodeEncoding (.token [0b00000000, 0xFF]) = some .eos ∧
  decodeEncoding (.token [0b00000010, 0xED, 0xFF]) = some (.lcopy 0x1FFD 0b101) ∧
  decodeEncoding (.token [0b00000010, 0xF0, 0xFF, 0xFE]) = some (.lcopyx 0x1FFE 0xFE) ∧
  decodeCommand 0x00000001 = .compress ∧ decodeCommand 0x00000007 = .crypt ∧
  decodeCommand 0x00000008 = .illegalCmd 8

/-- R87, R88, R78 to R80: the assembler produces exactly the legal tokens: what it accepts is legal, and every legal
token, EOS too, is the assembly of its own decoded operands; it refuses exactly the operands outside a statement's range.
(Statements stand for the assembler's text, log entry 19.) -/
def Obligations.AssemblerProducesExactlyTheLegalTokens : Prop :=
  (∀ (a : AsmStatement) (t : WireToken), assemble a = some t → t.toInstr.legal = true) ∧
  (∀ b : Byte, assemble (.lit b.toNat) = some (.lit b)) ∧
  (∀ (l : BitVec 2) (x : Byte), (Instr.scopy l x).legal = true →
    assemble (.scopy (shortLength l) (shortDistance x)) = some (.scopy l x)) ∧
  (∀ (dx : BitVec 13) (lf : BitVec 3), (Instr.lcopy dx lf).legal = true →
    assemble (.lcopy (plainLength lf) (longDistance dx)) = some (.lcopy dx lf)) ∧
  (∀ (dx : BitVec 13) (e : Byte), (Instr.lcopyx dx e).legal = true →
    assemble (.lcopyx (escapeLength e) (longDistance dx)) = some (.lcopyx dx e)) ∧
  assemble .eos = some .eos ∧
  (∀ b : Nat, assemble (.lit b) = none ↔ ¬ b ≤ 255) ∧
  (∀ l d : Nat,
    (assemble (.scopy l d) = none ↔ ¬ (2 ≤ l ∧ l ≤ 5 ∧ 1 ≤ d ∧ d ≤ 256 ∧ ¬ (l = 2 ∧ d = 1))) ∧
    (assemble (.lcopy l d) = none ↔ ¬ (2 ≤ l ∧ l ≤ 8 ∧ 1 ≤ d ∧ d ≤ 8191)) ∧
    (assemble (.lcopyx l d) = none ↔ ¬ (9 ≤ l ∧ l ≤ 264 ∧ 1 ≤ d ∧ d ≤ 8191)) ∧
    (assemble (.copy l d) = none ↔ ¬ (2 ≤ l ∧ l ≤ 264 ∧ 1 ≤ d ∧ d ≤ 8191)))

/-! ### Tokens -/

/-- R161: a literal within the declared length is appended to the output: one DST byte and `out_pos` change, nothing
else; a literal that would pass the declared length raises BadFormat. -/
def Obligations.LiteralAppendsItsByte : Prop :=
  ∀ (b : Byte) (s : State),
    (s.eng.outPos < s.declared → s.declared ≤ s.cap →
      ∃ m, exec (.lit b) s = .next { s with dst := m, eng := { s.eng with outPos := s.eng.outPos + 1 } } ∧
        m.get s.eng.outPos = some b ∧ ∀ a, a ≠ s.eng.outPos → m.get a = s.dst.get a) ∧
    (s.declared ≤ s.eng.outPos → exec (.lit b) s = .next (raiseInDecode s))

/-- R67, R162, R164, R165, R166: a copy within its limits, of any of the three formats, appends `length` bytes; byte
`k` of them is the byte `distance` back, the last `distance` bytes repeated where the copy overlaps itself; `out_pos`
advances by `length` and nothing else changes. (It holds of every term of the three formats; the pattern R84 reserves, no
reading of an encoding, is one of them.) -/
def Obligations.CopyTokensRepeatEarlierOutput : Prop :=
  ∀ (i : Instr) (d len : Nat) (s : State),
    ((∃ l x, i = .scopy l x ∧ d = 256 - x.toNat ∧ len = l.toNat + 2) ∨
      (∃ dx lf, i = .lcopy dx lf ∧ d = (dx ^^^ 0x1FFF#13).toNat ∧ len = lf.toNat + 1) ∨
      (∃ dx e, i = .lcopyx dx e ∧ d = (dx ^^^ 0x1FFF#13).toNat ∧ len = e.toNat + 9)) →
    1 ≤ d → d ≤ s.eng.outPos → s.eng.outPos + len ≤ s.declared → s.declared ≤ s.cap →
    ∃ m, exec i s = .next { s with dst := m, eng := { s.eng with outPos := s.eng.outPos + len } } ∧
      (∀ k, k < len → m.get (s.eng.outPos + k) = some (s.dstByte (s.eng.outPos - d + k % d))) ∧
      (∀ a, a < s.eng.outPos ∨ s.eng.outPos + len ≤ a → m.get a = s.dst.get a)

/-- R83, R162, R164, R165, R166, R284: a copy of distance 0 (`dx = 0x1FFF`), a copy that reaches before the output and
a copy that would pass the declared length raise BadFormat. -/
def Obligations.IllegalCopiesRaiseBadFormat : Prop :=
  ∀ (i : Instr) (d len : Nat) (s : State),
    ((∃ l x, i = .scopy l x ∧ d = 256 - x.toNat ∧ len = l.toNat + 2) ∨
      (∃ dx lf, i = .lcopy dx lf ∧ d = (dx ^^^ 0x1FFF#13).toNat ∧ len = lf.toNat + 1) ∨
      (∃ dx e, i = .lcopyx dx e ∧ d = (dx ^^^ 0x1FFF#13).toNat ∧ len = e.toNat + 9)) →
    (d = 0 ∨ s.eng.outPos < d ∨ s.declared < s.eng.outPos + len) →
    exec i s = .next (raiseInDecode s)

/-- R163: EndOfStream at `out_pos = N` ends the command with result `N` and no byte changed; elsewhere it raises
BadFormat. -/
def Obligations.EosEndsTheCommand : Prop :=
  ∀ s : State,
    (s.eng.outPos = s.declared →
      ∃ t, exec .eos s = .next t ∧ Ended (BitVec.ofNat 64 s.declared) s t ∧ t.dst = s.dst) ∧
    (s.eng.outPos ≠ s.declared → exec .eos s = .next (raiseInDecode s))

/-- R251, R284, X5: BadFormat raised inside DECODE ends the command with RESULT -3; the bytes of DST from `N` on are
unchanged, and so is every byte from `cap` on. (The limit `cap` is the model's reading, log entry 7.) -/
def Obligations.BadFormatInDecodeLeavesLaterBytes : Prop :=
  ∀ s : State, Ended (BitVec.ofInt 64 (-3)) s (raiseInDecode s) ∧
    DstKeptFrom (min s.declared s.cap) s (raiseInDecode s)

/-! ### Match Finder and encoder -/

/-- R141: MATCH_LEN is the number of leading bytes that agree, at most 264 and at most what is left of the source, and
the match stops only at that limit or at a mismatch. -/
def Obligations.MatchLenIsLongestAgreement : Prop :=
  ∀ (src : Nat → Byte) (n p d : Nat), p < n → 1 ≤ d → d ≤ p →
    matchLen src n p d ≤ min 264 (n - p) ∧
    (∀ i, i < matchLen src n p d → src (p + i) = src (p + i - d)) ∧
    (matchLen src n p d < min 264 (n - p) →
      src (p + matchLen src n p d) ≠ src (p + matchLen src n p d - d))

/-- R142, R143, R146: FIND takes a match of at least 2 bytes at a distance of 1 to `min(p, 8191)` that no distance in
the window betters and no smaller distance equals; it takes a literal exactly when no distance in the window gives 2
bytes. -/
def Obligations.FindTakesLongestThenNearest : Prop :=
  ∀ (src : Nat → Byte) (n p : Nat), p < n →
    (∀ d l, find src n p = .copy d l →
      1 ≤ d ∧ d ≤ min p 8191 ∧ 2 ≤ l ∧ l ≤ min 264 (n - p) ∧ l = matchLen src n p d ∧
      (∀ d', 1 ≤ d' → d' ≤ min p 8191 → matchLen src n p d' ≤ l) ∧
      (∀ d', 1 ≤ d' → d' < d → matchLen src n p d' < l)) ∧
    (∀ b, find src n p = .literal b →
      b = src p ∧ ∀ d', 1 ≤ d' → d' ≤ min p 8191 → matchLen src n p d' < 2)

/-- R145: PARSE is the greedy loop: it encodes each decision of FIND once, from `p = 0` on, the cursor moving by 1 for a
literal and by `length` for a copy until `p = n_src`, and then EndOfStream. R147: with ARCHIVE's decision function
those decisions are a literal of every source byte, in order. -/
def Obligations.ParseEncodesEachDecisionOnce : Prop :=
  (∀ s : State, parse find s =
    encodeEos ((decisions find s.srcByte s.nSrc s.nSrc 0).foldl
      (fun u t => moveP t.advance (encodeDecision t u)) { s with eng := { s.eng with p := 0 } })) ∧
  (∀ (src : Nat → Byte) (n fuel p : Nat),
    ((decisions find src n fuel p = [] ↔ fuel = 0 ∨ n ≤ p) ∧
      (p < n → decisions find src n (fuel + 1) p =
        find src n p :: decisions find src n fuel (p + (find src n p).advance)))) ∧
  (∀ (src : Nat → Byte) (n : Nat), (decisions find src n n 0).foldl (fun k t => k + t.advance) 0 = n) ∧
  (∀ s : State, parse findLiteral s =
    encodeEos ((List.range s.nSrc).foldl
      (fun u i => moveP 1 (encodeDecision (.literal (s.srcByte i)) u)) { s with eng := { s.eng with p := 0 } }))

/-- R169 to R174, R88: the encoder sends, for a literal, a copy or the end, exactly the control bits and payload bytes
of one legal token: LIT, the one COPY selects, EOS; a copy's token is never EOS. COPY selects, with the copy's own length
and distance, the SCOPY when `d <= 256`, `l <= 5` and not `d = 1, l = 2`; otherwise the LCOPY when `l <= 8`; otherwise the
LCOPYX. -/
def Obligations.DecisionsAreSentAsTheSelectedToken : Prop :=
  (∀ (b : Byte) (s : State), encodeDecision (.literal b) s = sendItems (WireToken.lit b).items s) ∧
  (∀ (d l : Nat) (s : State), 1 ≤ d → d ≤ 8191 → 2 ≤ l → l ≤ 264 →
    ∃ t, assemble (.copy l d) = some t ∧ t.toInstr.legal = true ∧ t ≠ .eos ∧
      encodeDecision (.copy d l) s = sendItems t.items s ∧
      (d ≤ 256 ∧ l ≤ 5 ∧ ¬ (d = 1 ∧ l = 2) →
        ∃ lf x, t = .scopy lf x ∧ lf.toNat + 2 = l ∧ 256 - x.toNat = d) ∧
      (¬ (d ≤ 256 ∧ l ≤ 5 ∧ ¬ (d = 1 ∧ l = 2)) ∧ l ≤ 8 →
        ∃ dx lf, t = .lcopy dx lf ∧ lf.toNat + 1 = l ∧ (dx ^^^ 0x1FFF#13).toNat = d) ∧
      (8 < l → ∃ dx e, t = .lcopyx dx e ∧ e.toNat + 9 = l ∧ (dx ^^^ 0x1FFF#13).toNat = d)) ∧
  (∀ s : State, encodeEos s = sendItems WireToken.eos.items s)

/-! ### Commands -/

/-- R220, R226: an ENDIAN value other than 0, 1 and 2 is an InvalidArgument for every command that reads ENDIAN, and so
is AUTO for COMPRESS, ARCHIVE and CRYPT; DST is unchanged. (A command whose buffers overlap is refused before that.) -/
def Obligations.EndianDomainIsChecked : Prop :=
  (∀ (i : Instr) (s : State),
    i ∈ [.compress, .archive, .decompressBuf, .decompressBuf2, .decompressSize, .crypt] →
    s.overlapping = false → 2 < s.lat.eIn.toNat → ∃ t, exec i s = .next t ∧ FailedWith .invalidArgument s t) ∧
  (∀ (i : Instr) (s : State), i ∈ [.compress, .archive, .crypt] → s.overlapping = false → s.lat.eIn = 2 →
    ∃ t, exec i s = .next t ∧ FailedWith .invalidArgument s t)

/-- R243, R203: MAX_COMPRESSED_SIZE ends with `4 + len + ceil((len + 4)/8) + 1`, a positive 64-bit number, for every
32-bit `len`; it writes nothing and cannot fail. -/
def Obligations.MaxCompressedSizeIsPure : Prop :=
  ∀ s : State, ∃ t, exec .maxCompressedSize s = .next t ∧ t.dst = s.dst ∧ Ended t.result s t ∧
    t.result.toInt = 4 + s.lat.nSrc.toNat + ((s.lat.nSrc.toNat + 4 + 7) / 8 : Nat) + 1 ∧
    t.result.toInt ≤ 4831838213

/-- R248, R72: an illegal command reports InvalidArgument and changes nothing else. -/
def Obligations.IllegalCommandOnlyReportsInvalidArgument : Prop :=
  ∀ (code : Word) (s : State), ∃ t, exec (.illegalCmd code) s = .next t ∧ FailedWith .invalidArgument s t

/-- R241, R242, R281, R282, R287: with a fixed ENDIAN, COMPRESS and ARCHIVE reject a source above MAX_LEN
(InvalidArgument) and then a capacity below MAX_SIZE (OutOfMemory), before any byte of DST is written. -/
def Obligations.CompressionChecksComeFirst : Prop :=
  ∀ (i : Instr) (s : State), i ∈ [.compress, .archive] → s.overlapping = false → s.lat.eIn.toNat < 2 →
    (s.params.maxLen < s.nSrc → ∃ t, exec i s = .next t ∧ FailedWith .invalidArgument s t) ∧
    (s.nSrc ≤ s.params.maxLen → s.cap < maxSize s.nSrc →
      ∃ t, exec i s = .next t ∧ FailedWith .outOfMemory s t)

/-- R147, R242, R204: ARCHIVE ends with a result of exactly MAX_SIZE; DST holds the stream of all literals and
EndOfStream behind the LITTLE header, encrypted in LITTLE with the key; every later byte is unchanged. -/
def Obligations.ArchiveWritesTheLiteralStream : Prop :=
  ∀ s : State, s.overlapping = false → s.lat.eIn.toNat < 2 → s.nSrc ≤ s.params.maxLen → maxSize s.nSrc ≤ s.cap →
    ∃ t, exec .archive s = .next t ∧ Ended (BitVec.ofNat 64 (maxSize s.nSrc)) s t ∧
      (encodeStream s.lat.nSrc .little
        (((List.range s.nSrc).map fun i => .lit (s.srcByte i)) ++ [.eos])).length = maxSize s.nSrc ∧
      HoldsEncrypted (encodeStream s.lat.nSrc .little
        (((List.range s.nSrc).map fun i => .lit (s.srcByte i)) ++ [.eos])) s t ∧
      DstKeptFrom (maxSize s.nSrc) s t

/-- R145, R241, R252: COMPRESS ends with the length of the plaintext stream of the greedy parse (LITTLE header, the token
of each decision of FIND, EndOfStream); DST holds that stream encrypted in LITTLE with the key, whatever KEY_EN and
the fixed ENDIAN are; every later byte is unchanged. -/
def Obligations.CompressWritesTheGreedyStream : Prop :=
  ∀ s : State, s.overlapping = false → s.lat.eIn.toNat < 2 → s.nSrc ≤ s.params.maxLen → maxSize s.nSrc ≤ s.cap →
    ∃ t, exec .compress s = .next t ∧
      Ended (BitVec.ofNat 64 (plainStream find s.srcByte s.lat.nSrc).length) s t ∧
      HoldsEncrypted (plainStream find s.srcByte s.lat.nSrc) s t ∧
      DstKeptFrom (plainStream find s.srcByte s.lat.nSrc).length s t

/-- R205: the stream COMPRESS writes is never larger than MAX_SIZE of the source's length. -/
def Obligations.CompressedStreamIsBounded : Prop :=
  ∀ (src : Nat → Byte) (n : Word), (plainStream find src n).length ≤ maxSize n.toNat

/-- R247: CRYPT ends with `n_src`; DST holds the source XORed with the keystream in the selected order, every later byte
is unchanged; a capacity below `n_src` is BufferTooSmall with nothing written. -/
def Obligations.CryptXorsTheSourceIntoDst : Prop :=
  ∀ (s : State) (e : ByteOrder), s.overlapping = false → endianOf s.lat.eIn = some (some e) →
    (s.nSrc ≤ s.cap →
      ∃ t, exec .crypt s = .next t ∧ Ended (BitVec.ofNat 64 s.nSrc) s t ∧
        (∀ i, i < s.nSrc → t.dst.get i = some (s.srcByte i ^^^ ksByte s.params s.lat.key e i)) ∧
        DstKeptFrom s.nSrc s t) ∧
    (s.cap < s.nSrc → ∃ t, exec .crypt s = .next t ∧ FailedWith .bufferTooSmall s t)

/-- R250, R244, R245, R208, R228, R287: the checks of the decompression commands in their order: an empty source is
InvalidArgument; 1 to 3 bytes are BadFormat; under a fixed order a declared length above MAX_LEN is BadFormat; then a
declared length above `cap` is OutOfMemory for DECOMPRESS_BUF and BufferTooSmall for DECOMPRESS_BUF2. Each leaves DST
unchanged. -/
def Obligations.DecompressionChecksComeFirst : Prop :=
  (∀ (i : Instr) (s : State), i ∈ [.decompressBuf, .decompressBuf2, .decompressSize] → s.overlapping = false →
    s.lat.eIn.toNat ≤ 2 →
    (s.nSrc = 0 → ∃ t, exec i s = .next t ∧ FailedWith .invalidArgument s t) ∧
    (1 ≤ s.nSrc → s.nSrc < 4 → ∃ t, exec i s = .next t ∧ FailedWith .badFormat s t) ∧
    (∀ e, 4 ≤ s.nSrc → endianOf s.lat.eIn = some (some e) → s.params.maxLen < (hdrCandidate e s).toNat →
      ∃ t, exec i s = .next t ∧ FailedWith .badFormat s t)) ∧
  (∀ (s : State) (e : ByteOrder), s.overlapping = false → 4 ≤ s.nSrc → endianOf s.lat.eIn = some (some e) →
    (hdrCandidate e s).toNat ≤ s.params.maxLen → s.cap < (hdrCandidate e s).toNat →
    (∃ t, exec .decompressBuf s = .next t ∧ FailedWith .outOfMemory s t) ∧
    (∃ t, exec .decompressBuf2 s = .next t ∧ FailedWith .bufferTooSmall s t))

/-- R206, R246: DECOMPRESS_SIZE ends with the declared length that the decompression front end reads, or with the error
kind that front end raises; it writes nothing, and of SRC it reads the first four bytes only. -/
def Obligations.DecompressSizeReportsTheDeclaredLength : Prop :=
  (∀ (s : State) (e : ByteOrder) (n : Word), dprep none s = .ok (e, n) →
    ∃ t, exec .decompressSize s = .next t ∧ Ended (BitVec.ofNat 64 n.toNat) s t ∧ t.dst = s.dst) ∧
  (∀ (s : State) (k : ErrKind), dprep none s = .error k →
    ∃ t, exec .decompressSize s = .next t ∧ FailedWith k s t) ∧
  (∀ (s : State) (e : ByteOrder), endianOf s.lat.eIn = some (some e) → 4 ≤ s.nSrc →
    (hdrCandidate e s).toNat ≤ s.params.maxLen → dprep none s = .ok (e, hdrCandidate e s)) ∧
  (∀ (s : State) (m : Memory), (∀ i, i < 4 → m.get i = s.src.get i) →
    exec .decompressSize { s with src := m } = mapNext (fun t => { t with src := m }) (exec .decompressSize s))

/-- R223, R224, R225: an order AUTO takes gives a length that is its own header candidate and within MAX_LEN; AUTO fails
exactly when both candidates are above MAX_LEN, whatever the capacity; it takes BIG whenever BIG fits both bounds, and an
order that fits the capacity whenever one does. In the capacity fallback, with no candidate within the capacity, it takes
BIG when BIG is within MAX_LEN; LITTLE is taken whenever only LITTLE is within MAX_LEN. -/
def Obligations.AutoTakesAPlausibleOrder : Prop :=
  (∀ (c : Option Nat) (s : State) (e : ByteOrder) (n : Word), resolve c s = some (e, n) →
    n = hdrCandidate e s ∧ n.toNat ≤ s.params.maxLen) ∧
  (∀ (c : Option Nat) (s : State), resolve c s = none ↔
    s.params.maxLen < (hdrCandidate .big s).toNat ∧ s.params.maxLen < (hdrCandidate .little s).toNat) ∧
  (∀ s : State, (hdrCandidate .big s).toNat ≤ s.params.maxLen →
    resolve none s = some (.big, hdrCandidate .big s)) ∧
  (∀ (k : Nat) (s : State) (e : ByteOrder), (hdrCandidate e s).toNat ≤ s.params.maxLen → (hdrCandidate e s).toNat ≤ k →
    ∃ e' n, resolve (some k) s = some (e', n) ∧ n.toNat ≤ k ∧ (e = .big → e' = .big)) ∧
  (∀ (k : Nat) (s : State), k < (hdrCandidate .big s).toNat → k < (hdrCandidate .little s).toNat →
    (hdrCandidate .big s).toNat ≤ s.params.maxLen → resolve (some k) s = some (.big, hdrCandidate .big s)) ∧
  (∀ (c : Option Nat) (s : State), s.params.maxLen < (hdrCandidate .big s).toNat →
    (hdrCandidate .little s).toNat ≤ s.params.maxLen → resolve c s = some (.little, hdrCandidate .little s))

/-- R250, R223, R225, R244, R245, R251: under AUTO, with a source of 4 bytes or more, the front end's answer is RESOLVE's,
given the capacity for DECOMPRESS_BUF2 only, and BadFormat where RESOLVE finds no order. So a length above `cap` is
OutOfMemory for DECOMPRESS_BUF; it is BufferTooSmall for DECOMPRESS_BUF2, the fallback of R225 included, where both
candidates are above `cap` and one is within MAX_LEN; and both candidates above MAX_LEN are BadFormat for each. Each
failure leaves DST unchanged. -/
def Obligations.AutoDecompressionFollowsResolve : Prop :=
  (∀ (c : Option Nat) (s : State), s.lat.eIn = 2 → 4 ≤ s.nSrc →
    (∀ r, resolve c s = some r → dprep c s = .ok r) ∧ (resolve c s = none → dprep c s = .error .badFormat)) ∧
  (∀ (s : State) (e : ByteOrder) (n : Word), s.overlapping = false → s.lat.eIn = 2 → 4 ≤ s.nSrc →
    s.cap < n.toNat →
    (resolve none s = some (e, n) → ∃ t, exec .decompressBuf s = .next t ∧ FailedWith .outOfMemory s t) ∧
    (resolve (some s.cap) s = some (e, n) → ∃ t, exec .decompressBuf2 s = .next t ∧ FailedWith .bufferTooSmall s t)) ∧
  (∀ (s : State) (e : ByteOrder), s.overlapping = false → s.lat.eIn = 2 → 4 ≤ s.nSrc →
    s.cap < (hdrCandidate .big s).toNat → s.cap < (hdrCandidate .little s).toNat →
    (hdrCandidate e s).toNat ≤ s.params.maxLen →
    ∃ t, exec .decompressBuf2 s = .next t ∧ FailedWith .bufferTooSmall s t) ∧
  (∀ (i : Instr) (s : State), i ∈ [.decompressBuf, .decompressBuf2, .decompressSize] → s.overlapping = false →
    s.lat.eIn = 2 → 4 ≤ s.nSrc →
    s.params.maxLen < (hdrCandidate .big s).toNat → s.params.maxLen < (hdrCandidate .little s).toNat →
    ∃ t, exec i s = .next t ∧ FailedWith .badFormat s t)

/-- R160 to R168, R244, R245: when the checks pass and the plaintext stream is a token list that replays to exactly `N`
bytes, closed by EndOfStream, DECOMPRESS_BUF and DECOMPRESS_BUF2 end with RESULT `N` and those bytes in `DST[0 .. N-1]`;
every later byte is unchanged, and bytes after EndOfStream do not matter. -/
def Obligations.DecompressDecodesAWellFormedStream : Prop :=
  ∀ (i : Instr) (s : State) (e : ByteOrder) (n : Word) (ts : List WireToken) (trailing out : List Byte),
    (i = .decompressBuf ∧ decompressPrep none .outOfMemory s = .ok (e, n)) ∨
      (i = .decompressBuf2 ∧ decompressPrep (some s.cap) .bufferTooSmall s = .ok (e, n)) →
    s.overlapping = false → properTokens ts → replay ts = some out → out.length = n.toNat →
    (∀ j, (setStream e n s).plainByte (4 + j) = (encodeTokens (ts ++ [.eos]) ++ trailing)[j]?) →
    ∃ t, exec i s = .next t ∧ Ended (BitVec.ofNat 64 n.toNat) s t ∧
      (∀ j, j < n.toNat → t.dst.get j = out[j]?) ∧ DstKeptFrom n.toNat s t

/-- R318, R288, R283, R317: on any source DECOMPRESS_BUF and DECOMPRESS_BUF2 end, with BUSY 0 and DONE 1 and one
outcome: the length the command's own front end declares (with the capacity for DECOMPRESS_BUF2 only), within `cap`, or an
error kind; no byte of DST at or beyond `cap` changes. -/
def Obligations.DecompressionAlwaysEnds : Prop :=
  ∀ (i : Instr) (s : State) (c : Option Nat),
    (i = .decompressBuf ∧ c = none) ∨ (i = .decompressBuf2 ∧ c = some s.cap) → s.overlapping = false →
    ∃ t, exec i s = .next t ∧ Ended t.result s t ∧ DstKeptFrom s.cap s t ∧
      ((∃ e n, dprep c s = .ok (e, n) ∧ n.toNat ≤ s.cap ∧ t.result = BitVec.ofNat 64 n.toNat) ∨
        t.result.toInt ∈ [-1, -2, -3, -4])

/-- R175: decompressing, in LITTLE and with the key, what COMPRESS or ARCHIVE wrote gives the source back, byte for
byte, with its length as the result. -/
def Obligations.DecompressionRestoresTheSource : Prop :=
  ∀ (i : Instr) (s t u : State), i ∈ [.compress, .archive] → exec i s = .next t → 0 ≤ t.result.toInt →
    u.params = s.params → u.overlapping = false → u.lat.eIn = 0 → u.lat.keyEn = true → u.lat.key = s.lat.key →
    (u.nSrc : Int) = t.result.toInt → s.nSrc ≤ u.cap → (∀ a, a < u.nSrc → u.srcByte a = t.dstByte a) →
    ∃ v, exec .decompressBuf u = .next v ∧ v.result = BitVec.ofNat 64 s.nSrc ∧ v.done = true ∧ v.busy = false ∧
      ∀ a, a < s.nSrc → v.dstByte a = s.srcByte a

/-- R207: where DECOMPRESS_BUF ends with a size, DECOMPRESS_SIZE on the same operands and source ends with the same
size. -/
def Obligations.SizePredictionAgreesWithDecompression : Prop :=
  ∀ s t : State, exec .decompressBuf s = .next t → 0 ≤ t.result.toInt →
    ∃ u, exec .decompressSize s = .next u ∧ u.result = t.result ∧ u.done = true

/-- R160, R63, R244, R245: a decompression command whose checks pass, one step for the host, is the run of its token steps
one after the other from the start of DECODE, for DECOMPRESS_BUF and DECOMPRESS_BUF2, whatever the token stream is. (Token
steps are the model's, log entry 10.) -/
def Obligations.DecodeIsTheRunOfItsTokenSteps : Prop :=
  ∀ (i : Instr) (s t : State) (e : ByteOrder) (n : Word),
    (i = .decompressBuf ∧ decompressPrep none .outOfMemory s = .ok (e, n)) ∨
      (i = .decompressBuf2 ∧ decompressPrep (some s.cap) .bufferTooSmall s = .ok (e, n)) →
    s.inputs = [] → s.overlapping = false → exec i s = .next t →
    ∃ k, Host.Core.run Sys2Proof.core k (enterDecode (setStream e n s)) = .next t

/-! ### The whole machine -/

/-- R51, R30, R61, R7: no instruction changes SRC, an operand register, the placement of the buffers or a parameter, nor
the host's own fields. -/
def Obligations.InstructionsLeaveSourceAndOperandsAlone : Prop :=
  ∀ (i : Instr) (s t : State), exec i s = .next t →
    t.src = s.src ∧ t.endian = s.endian ∧ t.key = s.key ∧ t.keyEn = s.keyEn ∧ t.srcLen = s.srcLen ∧
    t.dstCap = s.dstCap ∧ t.srcBase = s.srcBase ∧ t.dstBase = s.dstBase ∧ t.params = s.params ∧
    t.inputs = s.inputs ∧ t.lastRead = s.lastRead

/-- R52, R317: no instruction changes a DST byte at or beyond `cap`; MAX_COMPRESSED_SIZE, DECOMPRESS_SIZE and an illegal
command change no DST byte at all. -/
def Obligations.NoInstructionWritesBeyondCapacity : Prop :=
  (∀ (i : Instr) (s t : State), exec i s = .next t → DstKeptFrom s.cap s t) ∧
  (∀ (i : Instr) (s t : State) (code : Word), i ∈ [.maxCompressedSize, .decompressSize, .illegalCmd code] →
    exec i s = .next t → t.dst = s.dst)

/-- R29, R280, R286, R288: every command that is not refused ends with exactly one outcome: DONE 1, BUSY 0 and a RESULT
that is a size (not negative) or one of the codes -1 to -4, never -5. -/
def Obligations.CommandResultIsASizeOrAnErrorCode : Prop :=
  ∀ (i : Instr) (s : State), isCommand i = true → exec i s = .refused .buffersOverlap ∨
    ∃ t, exec i s = .next t ∧ t.done = true ∧ t.busy = false ∧
      (0 ≤ t.result.toInt ∨ t.result.toInt ∈ [-1, -2, -3, -4])

/-- R313, R36, R108: a command's result, and the bytes a size result says it wrote, depend on the latches, SRC and the
parameters only: not on the internal registers, STATUS, RESULT or DST an earlier command left, nor on the free values
drawn so far. -/
def Obligations.CommandsDependOnlyOnTheirOperands : Prop :=
  ∀ (i : Instr) (s s' t : State), isCommand i = true → s'.lat = s.lat → s'.src = s.src → s'.params = s.params →
    s'.srcBase = s.srcBase → s'.dstBase = s.dstBase → exec i s = .next t →
    ∃ t', exec i s' = .next t' ∧ t'.result = t.result ∧
      (i ∈ [.compress, .archive, .decompressBuf, .decompressBuf2, .crypt] → 0 ≤ t.result.toInt →
        ∀ a : Nat, (a : Int) < t.result.toInt → t'.dst.get a = t.dst.get a)

/-- R41 and log entry 5: the invariant holds at reset (of the internal registers at the values the model names). -/
def Obligations.ResetSatisfiesTheInvariant : Prop := Inv State.reset

/-- R52, R160, R28, R33, R34: every step, of the host or of the engine, keeps the invariant: canonical buffers, never
BUSY and DONE together, a code waiting only while BUSY, at most 8 control bits, and inside DECODE `out_pos <= N`,
`N <= cap` and `N <= MAX_LEN`. (The canonical form of the buffers and `code` are the model's, log entries 4 and 10.) -/
def Obligations.StepsKeepTheInvariant : Prop :=
  ∀ s t : State, Inv s → step s = .next t → Inv t

/-- R52, R64, R69, R50, R315: in a state with the invariant the machine stops only where the host breaks a duty. It faults
only at an access, while idle, to a byte of SRC or DST at an offset no buffer has; it refuses only a command, or a reset
during it, that uses both buffers while they share an address, or a buffer access or placement while BUSY. No step stops
for want of a meaning, and the engine never leaves DST. (The fault is the model's choice, log entry 12, and so is the
refused reset, log entry 8.) -/
def Obligations.StopsOnlyWhereTheHostBreaksADuty : Prop :=
  (∀ (s : State) (f : Fault), Inv s → step s = .fault f →
    f = .noSuchOffset ∧ s.busy = false ∧
      ∃ op rest k, s.inputs = op :: rest ∧ op.bufferReach = some k ∧ 0xFFFFFFFF < k) ∧
  (∀ (s : State) (r : Refusal), Inv s → step s = .refused r →
    (r = .buffersOverlap ∧ runsOverlapped s = true ∧
      ∃ x, (s.srcBase ≤ x ∧ x < s.srcBase + s.nSrc) ∧ (s.dstBase ≤ x ∧ x < s.dstBase + s.cap)) ∨
    (r = .bufferAccessWhileBusy ∧ s.busy = true ∧
      ∃ op rest, s.inputs = op :: rest ∧ (op.bufferReach ≠ none ∨ ∃ a b, op = .place a b)))
end

