-- ==== Sys2Proof/Laws/Memory.lean ====
section
/-! SUPPORT. The laws of the buffers: a read after a write, a write elsewhere, and the canonical form, which every
memory operation keeps. -/

namespace Sys2Proof.Machine

@[simp] theorem get_nil (a : Nat) : Memory.get [] a = none := rfl

/-- A read after a write: the byte written at its offset, the old byte elsewhere. -/
theorem get_set (m : Memory) (a : Nat) (v : Byte) (x : Nat) :
    (m.set a v).get x = if x = a then some v else m.get x := by
  induction m with
  | nil => rfl
  | cons c m ih =>
    obtain ⟨b, w⟩ := c
    simp only [Memory.set]
    split
    · rfl
    · split
      · rename_i h; subst h
        by_cases hx : x = a <;> simp [Memory.get, hx]
      · rename_i h1 h2
        by_cases hb : x = b
        · have : x ≠ a := by omega
          simp [Memory.get, hb]; omega
        · simp [Memory.get, hb, ih]

@[simp] theorem get_set_same (m : Memory) (a : Nat) (v : Byte) : (m.set a v).get a = some v := by
  simp [get_set]

theorem get_set_ne (m : Memory) {a x : Nat} (v : Byte) (h : x ≠ a) : (m.set a v).get x = m.get x := by
  simp [get_set, h]

/-- The offsets a write lists are the written one and those listed before. -/
theorem mem_set {m : Memory} {a : Nat} {v : Byte} {c : Host.Cell} (h : c ∈ m.set a v) : c.1 = a ∨ c ∈ m := by
  induction m with
  | nil => simp [Memory.set] at h; simp [h]
  | cons d m ih =>
    obtain ⟨b, w⟩ := d
    simp only [Memory.set] at h
    split at h
    · simp at h; rcases h with h | h | h <;> simp [h]
    · split at h
      · simp at h; rcases h with h | h <;> simp [h]
      · simp at h
        rcases h with h | h
        · simp [h]
        · rcases ih h with h | h <;> simp [h]

/-- A write keeps the canonical form. -/
theorem set_wf {m : Memory} (h : m.wf) (a : Nat) (v : Byte) : (m.set a v).wf := by
  induction m with
  | nil => simp [Memory.set, Memory.wf]
  | cons c m ih =>
    obtain ⟨b, w⟩ := c
    simp only [Memory.wf, List.pairwise_cons] at h
    simp only [Memory.set]
    split
    · rename_i hab
      simp only [Memory.wf, List.pairwise_cons, List.mem_cons, forall_eq_or_imp]
      exact ⟨⟨hab, fun d hd => lt_trans hab (h.1 d hd)⟩, h⟩
    · split
      · rename_i h2
        simp only [Memory.wf, List.pairwise_cons]
        exact ⟨by intro d hd; have := h.1 d hd; omega, h.2⟩
      · rename_i h1 h2
        simp only [Memory.wf, List.pairwise_cons]
        refine ⟨fun d hd => ?_, ih h.2⟩
        rcases mem_set hd with hd | hd
        · simp only [hd]; omega
        · exact h.1 d hd

/-- A read after consecutive writes. -/
theorem get_setList (m : Memory) (a : Nat) (vs : List Byte) (x : Nat) :
    (m.setList a vs).get x = if a ≤ x ∧ x < a + vs.length then vs[x - a]? else m.get x := by
  induction vs generalizing m a with
  | nil =>
    have h : ¬ (a ≤ x ∧ x < a + ([] : List Byte).length) := by simp
    rw [if_neg h]; rfl
  | cons v vs ih =>
    simp only [Memory.setList, ih, get_set, List.length_cons]
    by_cases h1 : x = a
    · subst h1
      have : ¬ (x + 1 ≤ x ∧ x < x + 1 + vs.length) := by omega
      simp
    · by_cases h2 : a + 1 ≤ x ∧ x < a + 1 + vs.length
      · have h3 : a ≤ x ∧ x < a + (vs.length + 1) := by omega
        have h4 : x - a = (x - (a + 1)) + 1 := by omega
        rw [if_pos h2, if_pos h3, h4, List.getElem?_cons_succ]
      · have h3 : ¬ (a ≤ x ∧ x < a + (vs.length + 1)) := by omega
        rw [if_neg h2, if_neg h3, if_neg h1]

/-- Consecutive writes keep the canonical form. -/
theorem setList_wf {m : Memory} (h : m.wf) (a : Nat) (vs : List Byte) : (m.setList a vs).wf := by
  induction vs generalizing m a with
  | nil => exact h
  | cons v vs ih => exact ih (set_wf h a v) (a + 1)

theorem get_append (l m : Memory) (x : Nat) :
    Memory.get (l ++ m) x = (Memory.get l x).or (m.get x) := by
  induction l with
  | nil => rfl
  | cons c l ih =>
    obtain ⟨b, w⟩ := c
    simp only [List.cons_append, Memory.get, ih]
    split <;> rfl

theorem get_map_range (f : Nat → Byte) (n x : Nat) :
    Memory.get ((List.range n).map (fun i => (i, f i))) x = if x < n then some (f x) else none := by
  induction n with
  | zero => simp
  | succ n ih =>
    rw [List.range_succ, List.map_append, get_append, ih]
    by_cases h : x < n
    · simp [h, Nat.lt_succ_of_lt h]
    · by_cases h' : x = n
      · subst h'; simp [Memory.get]
      · have : ¬ x < n + 1 := by omega
        simp [Memory.get, h, h', this]

theorem get_filter (m : Memory) (n x : Nat) :
    Memory.get (m.filter (fun c => decide (n ≤ c.1))) x = if n ≤ x then m.get x else none := by
  induction m with
  | nil => simp
  | cons c m ih =>
    obtain ⟨b, w⟩ := c
    by_cases h : n ≤ b
    · simp only [List.filter_cons, h, decide_true, if_true, Memory.get, ih]
      by_cases hx : x = b
      · subst hx; simp [h]
      · simp [hx]
    · simp only [List.filter_cons, h, decide_false, Bool.false_eq_true, if_false, Memory.get, ih]
      by_cases hx : x = b
      · subst hx; simp [h]
      · simp [hx]

/-- A read after the first `n` bytes were replaced. -/
theorem get_setPrefix (n : Nat) (f : Nat → Byte) (m : Memory) (x : Nat) :
    (m.setPrefix n f).get x = if x < n then some (f x) else m.get x := by
  rw [Memory.setPrefix, get_append, get_map_range, get_filter]
  by_cases h : x < n
  · simp [h]
  · have : n ≤ x := by omega
    simp [h, this]

/-- Replacing the first bytes keeps the canonical form. -/
theorem setPrefix_wf {m : Memory} (h : m.wf) (n : Nat) (f : Nat → Byte) : (m.setPrefix n f).wf := by
  refine List.pairwise_append.2 ⟨?_, h.filter _, ?_⟩
  · exact List.pairwise_map.2 (List.pairwise_lt_range.imp (fun h => h))
  · intro a ha b hb
    simp only [List.mem_map, List.mem_range] at ha
    obtain ⟨i, hi, rfl⟩ := ha
    have := (List.mem_filter.1 hb).2
    simp only [decide_eq_true_eq] at this
    simp only
    omega

/-- The model's read of one DST byte after one write. -/
theorem dstByte_setDst (s : State) (i : Nat) (v : Byte) (x : Nat) :
    (s.setDst i v).dstByte x = if x = i then v else s.dstByte x := by
  simp only [State.dstByte, State.setDst, get_set]
  split <;> rfl

end Sys2Proof.Machine
end

