-- ==== Sys2Proof/Laws/State.lean ====
section
/-! SUPPORT. One lemma per field of `State` per basic update, so that no proof unfolds a record update. -/

namespace Sys2Proof.Machine

section
variable (s : State)

/-! the start bits (R28) -/

@[simp] theorem setStarted_endian : (setStarted s).endian = s.endian := rfl
@[simp] theorem setStarted_key : (setStarted s).key = s.key := rfl
@[simp] theorem setStarted_keyEn : (setStarted s).keyEn = s.keyEn := rfl
@[simp] theorem setStarted_srcLen : (setStarted s).srcLen = s.srcLen := rfl
@[simp] theorem setStarted_dstCap : (setStarted s).dstCap = s.dstCap := rfl
@[simp] theorem setStarted_busy : (setStarted s).busy = true := rfl
@[simp] theorem setStarted_done : (setStarted s).done = false := rfl
@[simp] theorem setStarted_result : (setStarted s).result = s.result := rfl
@[simp] theorem setStarted_code : (setStarted s).code = s.code := rfl
@[simp] theorem setStarted_lat : (setStarted s).lat = s.lat := rfl
@[simp] theorem setStarted_eng : (setStarted s).eng = s.eng := rfl
@[simp] theorem setStarted_src : (setStarted s).src = s.src := rfl
@[simp] theorem setStarted_dst : (setStarted s).dst = s.dst := rfl
@[simp] theorem setStarted_srcBase : (setStarted s).srcBase = s.srcBase := rfl
@[simp] theorem setStarted_dstBase : (setStarted s).dstBase = s.dstBase := rfl
@[simp] theorem setStarted_params : (setStarted s).params = s.params := rfl
@[simp] theorem setStarted_inputs : (setStarted s).inputs = s.inputs := rfl
@[simp] theorem setStarted_lastRead : (setStarted s).lastRead = s.lastRead := rfl
@[simp] theorem setStarted_freeCount : (setStarted s).freeCount = s.freeCount := rfl

/-! the end bits (R28) -/

@[simp] theorem setEnded_endian : (setEnded s).endian = s.endian := rfl
@[simp] theorem setEnded_key : (setEnded s).key = s.key := rfl
@[simp] theorem setEnded_keyEn : (setEnded s).keyEn = s.keyEn := rfl
@[simp] theorem setEnded_srcLen : (setEnded s).srcLen = s.srcLen := rfl
@[simp] theorem setEnded_dstCap : (setEnded s).dstCap = s.dstCap := rfl
@[simp] theorem setEnded_busy : (setEnded s).busy = false := rfl
@[simp] theorem setEnded_done : (setEnded s).done = true := rfl
@[simp] theorem setEnded_result : (setEnded s).result = s.result := rfl
@[simp] theorem setEnded_code : (setEnded s).code = s.code := rfl
@[simp] theorem setEnded_lat : (setEnded s).lat = s.lat := rfl
@[simp] theorem setEnded_eng : (setEnded s).eng = s.eng := rfl
@[simp] theorem setEnded_src : (setEnded s).src = s.src := rfl
@[simp] theorem setEnded_dst : (setEnded s).dst = s.dst := rfl
@[simp] theorem setEnded_srcBase : (setEnded s).srcBase = s.srcBase := rfl
@[simp] theorem setEnded_dstBase : (setEnded s).dstBase = s.dstBase := rfl
@[simp] theorem setEnded_params : (setEnded s).params = s.params := rfl
@[simp] theorem setEnded_inputs : (setEnded s).inputs = s.inputs := rfl
@[simp] theorem setEnded_lastRead : (setEnded s).lastRead = s.lastRead := rfl
@[simp] theorem setEnded_freeCount : (setEnded s).freeCount = s.freeCount := rfl

/-! the latches (R30) -/

@[simp] theorem latch_endian : (latch s).endian = s.endian := rfl
@[simp] theorem latch_key : (latch s).key = s.key := rfl
@[simp] theorem latch_keyEn : (latch s).keyEn = s.keyEn := rfl
@[simp] theorem latch_srcLen : (latch s).srcLen = s.srcLen := rfl
@[simp] theorem latch_dstCap : (latch s).dstCap = s.dstCap := rfl
@[simp] theorem latch_busy : (latch s).busy = s.busy := rfl
@[simp] theorem latch_done : (latch s).done = s.done := rfl
@[simp] theorem latch_result : (latch s).result = s.result := rfl
@[simp] theorem latch_code : (latch s).code = s.code := rfl
@[simp] theorem latch_lat : (latch s).lat = ⟨s.endian, s.key, s.keyEn, s.srcLen, s.dstCap⟩ := rfl
@[simp] theorem latch_eng : (latch s).eng = s.eng := rfl
@[simp] theorem latch_src : (latch s).src = s.src := rfl
@[simp] theorem latch_dst : (latch s).dst = s.dst := rfl
@[simp] theorem latch_srcBase : (latch s).srcBase = s.srcBase := rfl
@[simp] theorem latch_dstBase : (latch s).dstBase = s.dstBase := rfl
@[simp] theorem latch_params : (latch s).params = s.params := rfl
@[simp] theorem latch_inputs : (latch s).inputs = s.inputs := rfl
@[simp] theorem latch_lastRead : (latch s).lastRead = s.lastRead := rfl
@[simp] theorem latch_freeCount : (latch s).freeCount = s.freeCount := rfl

/-! the start of a command (R22, R30) -/

@[simp] theorem startCommand_endian (code : Word) : (startCommand code s).endian = s.endian := rfl
@[simp] theorem startCommand_key (code : Word) : (startCommand code s).key = s.key := rfl
@[simp] theorem startCommand_keyEn (code : Word) : (startCommand code s).keyEn = s.keyEn := rfl
@[simp] theorem startCommand_srcLen (code : Word) : (startCommand code s).srcLen = s.srcLen := rfl
@[simp] theorem startCommand_dstCap (code : Word) : (startCommand code s).dstCap = s.dstCap := rfl
@[simp] theorem startCommand_busy (code : Word) : (startCommand code s).busy = true := rfl
@[simp] theorem startCommand_done (code : Word) : (startCommand code s).done = false := rfl
@[simp] theorem startCommand_result (code : Word) : (startCommand code s).result = s.result := rfl
@[simp] theorem startCommand_code (code : Word) : (startCommand code s).code = some code := rfl
@[simp] theorem startCommand_lat (code : Word) : (startCommand code s).lat = ⟨s.endian, s.key, s.keyEn, s.srcLen, s.dstCap⟩ := rfl
@[simp] theorem startCommand_eng (code : Word) : (startCommand code s).eng = s.eng := rfl
@[simp] theorem startCommand_src (code : Word) : (startCommand code s).src = s.src := rfl
@[simp] theorem startCommand_dst (code : Word) : (startCommand code s).dst = s.dst := rfl
@[simp] theorem startCommand_srcBase (code : Word) : (startCommand code s).srcBase = s.srcBase := rfl
@[simp] theorem startCommand_dstBase (code : Word) : (startCommand code s).dstBase = s.dstBase := rfl
@[simp] theorem startCommand_params (code : Word) : (startCommand code s).params = s.params := rfl
@[simp] theorem startCommand_inputs (code : Word) : (startCommand code s).inputs = s.inputs := rfl
@[simp] theorem startCommand_lastRead (code : Word) : (startCommand code s).lastRead = s.lastRead := rfl
@[simp] theorem startCommand_freeCount (code : Word) : (startCommand code s).freeCount = s.freeCount := rfl

/-! one DST byte (R10) -/

@[simp] theorem setDst_endian (i : Nat) (v : Byte) : (s.setDst i v).endian = s.endian := rfl
@[simp] theorem setDst_key (i : Nat) (v : Byte) : (s.setDst i v).key = s.key := rfl
@[simp] theorem setDst_keyEn (i : Nat) (v : Byte) : (s.setDst i v).keyEn = s.keyEn := rfl
@[simp] theorem setDst_srcLen (i : Nat) (v : Byte) : (s.setDst i v).srcLen = s.srcLen := rfl
@[simp] theorem setDst_dstCap (i : Nat) (v : Byte) : (s.setDst i v).dstCap = s.dstCap := rfl
@[simp] theorem setDst_busy (i : Nat) (v : Byte) : (s.setDst i v).busy = s.busy := rfl
@[simp] theorem setDst_done (i : Nat) (v : Byte) : (s.setDst i v).done = s.done := rfl
@[simp] theorem setDst_result (i : Nat) (v : Byte) : (s.setDst i v).result = s.result := rfl
@[simp] theorem setDst_code (i : Nat) (v : Byte) : (s.setDst i v).code = s.code := rfl
@[simp] theorem setDst_lat (i : Nat) (v : Byte) : (s.setDst i v).lat = s.lat := rfl
@[simp] theorem setDst_eng (i : Nat) (v : Byte) : (s.setDst i v).eng = s.eng := rfl
@[simp] theorem setDst_src (i : Nat) (v : Byte) : (s.setDst i v).src = s.src := rfl
@[simp] theorem setDst_dst (i : Nat) (v : Byte) : (s.setDst i v).dst = s.dst.set i v := rfl
@[simp] theorem setDst_srcBase (i : Nat) (v : Byte) : (s.setDst i v).srcBase = s.srcBase := rfl
@[simp] theorem setDst_dstBase (i : Nat) (v : Byte) : (s.setDst i v).dstBase = s.dstBase := rfl
@[simp] theorem setDst_params (i : Nat) (v : Byte) : (s.setDst i v).params = s.params := rfl
@[simp] theorem setDst_inputs (i : Nat) (v : Byte) : (s.setDst i v).inputs = s.inputs := rfl
@[simp] theorem setDst_lastRead (i : Nat) (v : Byte) : (s.setDst i v).lastRead = s.lastRead := rfl
@[simp] theorem setDst_freeCount (i : Nat) (v : Byte) : (s.setDst i v).freeCount = s.freeCount := rfl

/-! unspecified DST bytes (R251) -/

@[simp] theorem freeDst_endian (n : Nat) : (s.freeDst n).endian = s.endian := rfl
@[simp] theorem freeDst_key (n : Nat) : (s.freeDst n).key = s.key := rfl
@[simp] theorem freeDst_keyEn (n : Nat) : (s.freeDst n).keyEn = s.keyEn := rfl
@[simp] theorem freeDst_srcLen (n : Nat) : (s.freeDst n).srcLen = s.srcLen := rfl
@[simp] theorem freeDst_dstCap (n : Nat) : (s.freeDst n).dstCap = s.dstCap := rfl
@[simp] theorem freeDst_busy (n : Nat) : (s.freeDst n).busy = s.busy := rfl
@[simp] theorem freeDst_done (n : Nat) : (s.freeDst n).done = s.done := rfl
@[simp] theorem freeDst_result (n : Nat) : (s.freeDst n).result = s.result := rfl
@[simp] theorem freeDst_code (n : Nat) : (s.freeDst n).code = s.code := rfl
@[simp] theorem freeDst_lat (n : Nat) : (s.freeDst n).lat = s.lat := rfl
@[simp] theorem freeDst_eng (n : Nat) : (s.freeDst n).eng = s.eng := rfl
@[simp] theorem freeDst_src (n : Nat) : (s.freeDst n).src = s.src := rfl
@[simp] theorem freeDst_dst (n : Nat) : (s.freeDst n).dst = s.dst.setPrefix n (fun i => Config.freeByte (s.freeCount + i)) := rfl
@[simp] theorem freeDst_srcBase (n : Nat) : (s.freeDst n).srcBase = s.srcBase := rfl
@[simp] theorem freeDst_dstBase (n : Nat) : (s.freeDst n).dstBase = s.dstBase := rfl
@[simp] theorem freeDst_params (n : Nat) : (s.freeDst n).params = s.params := rfl
@[simp] theorem freeDst_inputs (n : Nat) : (s.freeDst n).inputs = s.inputs := rfl
@[simp] theorem freeDst_lastRead (n : Nat) : (s.freeDst n).lastRead = s.lastRead := rfl
@[simp] theorem freeDst_freeCount (n : Nat) : (s.freeDst n).freeCount = s.freeCount + n := rfl

/-! the internal registers forgotten (R42) -/

@[simp] theorem forgetInternal_endian : (forgetInternal s).endian = s.endian := rfl
@[simp] theorem forgetInternal_key : (forgetInternal s).key = s.key := rfl
@[simp] theorem forgetInternal_keyEn : (forgetInternal s).keyEn = s.keyEn := rfl
@[simp] theorem forgetInternal_srcLen : (forgetInternal s).srcLen = s.srcLen := rfl
@[simp] theorem forgetInternal_dstCap : (forgetInternal s).dstCap = s.dstCap := rfl
@[simp] theorem forgetInternal_busy : (forgetInternal s).busy = s.busy := rfl
@[simp] theorem forgetInternal_done : (forgetInternal s).done = s.done := rfl
@[simp] theorem forgetInternal_result : (forgetInternal s).result = s.result := rfl
@[simp] theorem forgetInternal_code : (forgetInternal s).code = s.code := rfl
@[simp] theorem forgetInternal_lat : (forgetInternal s).lat = Latches.free s.freeCount := rfl
@[simp] theorem forgetInternal_eng : (forgetInternal s).eng = Engine.free s.freeCount := rfl
@[simp] theorem forgetInternal_src : (forgetInternal s).src = s.src := rfl
@[simp] theorem forgetInternal_dst : (forgetInternal s).dst = s.dst := rfl
@[simp] theorem forgetInternal_srcBase : (forgetInternal s).srcBase = s.srcBase := rfl
@[simp] theorem forgetInternal_dstBase : (forgetInternal s).dstBase = s.dstBase := rfl
@[simp] theorem forgetInternal_params : (forgetInternal s).params = s.params := rfl
@[simp] theorem forgetInternal_inputs : (forgetInternal s).inputs = s.inputs := rfl
@[simp] theorem forgetInternal_lastRead : (forgetInternal s).lastRead = s.lastRead := rfl
@[simp] theorem forgetInternal_freeCount : (forgetInternal s).freeCount = s.freeCount + 7 := rfl

/-! the end of a command (R283) -/

@[simp] theorem endCommand_endian (r : ResultWord) : (endCommand r s).endian = s.endian := rfl
@[simp] theorem endCommand_key (r : ResultWord) : (endCommand r s).key = s.key := rfl
@[simp] theorem endCommand_keyEn (r : ResultWord) : (endCommand r s).keyEn = s.keyEn := rfl
@[simp] theorem endCommand_srcLen (r : ResultWord) : (endCommand r s).srcLen = s.srcLen := rfl
@[simp] theorem endCommand_dstCap (r : ResultWord) : (endCommand r s).dstCap = s.dstCap := rfl
@[simp] theorem endCommand_busy (r : ResultWord) : (endCommand r s).busy = false := rfl
@[simp] theorem endCommand_done (r : ResultWord) : (endCommand r s).done = true := rfl
@[simp] theorem endCommand_result (r : ResultWord) : (endCommand r s).result = r := rfl
@[simp] theorem endCommand_code (r : ResultWord) : (endCommand r s).code = none := rfl
@[simp] theorem endCommand_lat (r : ResultWord) : (endCommand r s).lat = Latches.free s.freeCount := rfl
@[simp] theorem endCommand_eng (r : ResultWord) : (endCommand r s).eng = Engine.free s.freeCount := rfl
@[simp] theorem endCommand_src (r : ResultWord) : (endCommand r s).src = s.src := rfl
@[simp] theorem endCommand_dst (r : ResultWord) : (endCommand r s).dst = s.dst := rfl
@[simp] theorem endCommand_srcBase (r : ResultWord) : (endCommand r s).srcBase = s.srcBase := rfl
@[simp] theorem endCommand_dstBase (r : ResultWord) : (endCommand r s).dstBase = s.dstBase := rfl
@[simp] theorem endCommand_params (r : ResultWord) : (endCommand r s).params = s.params := rfl
@[simp] theorem endCommand_inputs (r : ResultWord) : (endCommand r s).inputs = s.inputs := rfl
@[simp] theorem endCommand_lastRead (r : ResultWord) : (endCommand r s).lastRead = s.lastRead := rfl
@[simp] theorem endCommand_freeCount (r : ResultWord) : (endCommand r s).freeCount = s.freeCount + 7 := rfl

/-! finish (R283) -/

@[simp] theorem finish_endian (v : Nat) : (finish v s).endian = s.endian := rfl
@[simp] theorem finish_key (v : Nat) : (finish v s).key = s.key := rfl
@[simp] theorem finish_keyEn (v : Nat) : (finish v s).keyEn = s.keyEn := rfl
@[simp] theorem finish_srcLen (v : Nat) : (finish v s).srcLen = s.srcLen := rfl
@[simp] theorem finish_dstCap (v : Nat) : (finish v s).dstCap = s.dstCap := rfl
@[simp] theorem finish_busy (v : Nat) : (finish v s).busy = false := rfl
@[simp] theorem finish_done (v : Nat) : (finish v s).done = true := rfl
@[simp] theorem finish_result (v : Nat) : (finish v s).result = BitVec.ofNat 64 v := rfl
@[simp] theorem finish_code (v : Nat) : (finish v s).code = none := rfl
@[simp] theorem finish_lat (v : Nat) : (finish v s).lat = Latches.free s.freeCount := rfl
@[simp] theorem finish_eng (v : Nat) : (finish v s).eng = Engine.free s.freeCount := rfl
@[simp] theorem finish_src (v : Nat) : (finish v s).src = s.src := rfl
@[simp] theorem finish_dst (v : Nat) : (finish v s).dst = s.dst := rfl
@[simp] theorem finish_srcBase (v : Nat) : (finish v s).srcBase = s.srcBase := rfl
@[simp] theorem finish_dstBase (v : Nat) : (finish v s).dstBase = s.dstBase := rfl
@[simp] theorem finish_params (v : Nat) : (finish v s).params = s.params := rfl
@[simp] theorem finish_inputs (v : Nat) : (finish v s).inputs = s.inputs := rfl
@[simp] theorem finish_lastRead (v : Nat) : (finish v s).lastRead = s.lastRead := rfl
@[simp] theorem finish_freeCount (v : Nat) : (finish v s).freeCount = s.freeCount + 7 := rfl

/-! raise (R283) -/

@[simp] theorem raiseError_endian (k : ErrKind) : (raiseError k s).endian = s.endian := rfl
@[simp] theorem raiseError_key (k : ErrKind) : (raiseError k s).key = s.key := rfl
@[simp] theorem raiseError_keyEn (k : ErrKind) : (raiseError k s).keyEn = s.keyEn := rfl
@[simp] theorem raiseError_srcLen (k : ErrKind) : (raiseError k s).srcLen = s.srcLen := rfl
@[simp] theorem raiseError_dstCap (k : ErrKind) : (raiseError k s).dstCap = s.dstCap := rfl
@[simp] theorem raiseError_busy (k : ErrKind) : (raiseError k s).busy = false := rfl
@[simp] theorem raiseError_done (k : ErrKind) : (raiseError k s).done = true := rfl
@[simp] theorem raiseError_result (k : ErrKind) : (raiseError k s).result = BitVec.ofInt 64 k.code := rfl
@[simp] theorem raiseError_code (k : ErrKind) : (raiseError k s).code = none := rfl
@[simp] theorem raiseError_lat (k : ErrKind) : (raiseError k s).lat = Latches.free s.freeCount := rfl
@[simp] theorem raiseError_eng (k : ErrKind) : (raiseError k s).eng = Engine.free s.freeCount := rfl
@[simp] theorem raiseError_src (k : ErrKind) : (raiseError k s).src = s.src := rfl
@[simp] theorem raiseError_dst (k : ErrKind) : (raiseError k s).dst = s.dst := rfl
@[simp] theorem raiseError_srcBase (k : ErrKind) : (raiseError k s).srcBase = s.srcBase := rfl
@[simp] theorem raiseError_dstBase (k : ErrKind) : (raiseError k s).dstBase = s.dstBase := rfl
@[simp] theorem raiseError_params (k : ErrKind) : (raiseError k s).params = s.params := rfl
@[simp] theorem raiseError_inputs (k : ErrKind) : (raiseError k s).inputs = s.inputs := rfl
@[simp] theorem raiseError_lastRead (k : ErrKind) : (raiseError k s).lastRead = s.lastRead := rfl
@[simp] theorem raiseError_freeCount (k : ErrKind) : (raiseError k s).freeCount = s.freeCount + 7 := rfl

/-! KS_INIT (R101) -/

@[simp] theorem ksInit_endian (key : Word) : (ksInit key s).endian = s.endian := rfl
@[simp] theorem ksInit_key (key : Word) : (ksInit key s).key = s.key := rfl
@[simp] theorem ksInit_keyEn (key : Word) : (ksInit key s).keyEn = s.keyEn := rfl
@[simp] theorem ksInit_srcLen (key : Word) : (ksInit key s).srcLen = s.srcLen := rfl
@[simp] theorem ksInit_dstCap (key : Word) : (ksInit key s).dstCap = s.dstCap := rfl
@[simp] theorem ksInit_busy (key : Word) : (ksInit key s).busy = s.busy := rfl
@[simp] theorem ksInit_done (key : Word) : (ksInit key s).done = s.done := rfl
@[simp] theorem ksInit_result (key : Word) : (ksInit key s).result = s.result := rfl
@[simp] theorem ksInit_code (key : Word) : (ksInit key s).code = s.code := rfl
@[simp] theorem ksInit_lat (key : Word) : (ksInit key s).lat = s.lat := rfl
@[simp] theorem ksInit_eng (key : Word) : (ksInit key s).eng = { s.eng with ks := key } := rfl
@[simp] theorem ksInit_src (key : Word) : (ksInit key s).src = s.src := rfl
@[simp] theorem ksInit_dst (key : Word) : (ksInit key s).dst = s.dst := rfl
@[simp] theorem ksInit_srcBase (key : Word) : (ksInit key s).srcBase = s.srcBase := rfl
@[simp] theorem ksInit_dstBase (key : Word) : (ksInit key s).dstBase = s.dstBase := rfl
@[simp] theorem ksInit_params (key : Word) : (ksInit key s).params = s.params := rfl
@[simp] theorem ksInit_inputs (key : Word) : (ksInit key s).inputs = s.inputs := rfl
@[simp] theorem ksInit_lastRead (key : Word) : (ksInit key s).lastRead = s.lastRead := rfl
@[simp] theorem ksInit_freeCount (key : Word) : (ksInit key s).freeCount = s.freeCount := rfl

/-! KS_NEXT (R102) -/

@[simp] theorem ksNext_endian : (ksNext s).2.endian = s.endian := rfl
@[simp] theorem ksNext_key : (ksNext s).2.key = s.key := rfl
@[simp] theorem ksNext_keyEn : (ksNext s).2.keyEn = s.keyEn := rfl
@[simp] theorem ksNext_srcLen : (ksNext s).2.srcLen = s.srcLen := rfl
@[simp] theorem ksNext_dstCap : (ksNext s).2.dstCap = s.dstCap := rfl
@[simp] theorem ksNext_busy : (ksNext s).2.busy = s.busy := rfl
@[simp] theorem ksNext_done : (ksNext s).2.done = s.done := rfl
@[simp] theorem ksNext_result : (ksNext s).2.result = s.result := rfl
@[simp] theorem ksNext_code : (ksNext s).2.code = s.code := rfl
@[simp] theorem ksNext_lat : (ksNext s).2.lat = s.lat := rfl
@[simp] theorem ksNext_eng : (ksNext s).2.eng = { s.eng with ks := ksStep s.params s.eng.ks } := rfl
@[simp] theorem ksNext_src : (ksNext s).2.src = s.src := rfl
@[simp] theorem ksNext_dst : (ksNext s).2.dst = s.dst := rfl
@[simp] theorem ksNext_srcBase : (ksNext s).2.srcBase = s.srcBase := rfl
@[simp] theorem ksNext_dstBase : (ksNext s).2.dstBase = s.dstBase := rfl
@[simp] theorem ksNext_params : (ksNext s).2.params = s.params := rfl
@[simp] theorem ksNext_inputs : (ksNext s).2.inputs = s.inputs := rfl
@[simp] theorem ksNext_lastRead : (ksNext s).2.lastRead = s.lastRead := rfl
@[simp] theorem ksNext_freeCount : (ksNext s).2.freeCount = s.freeCount := rfl

/-! W_START (R120) -/

@[simp] theorem wStart_endian (o : Nat) : (wStart o s).endian = s.endian := rfl
@[simp] theorem wStart_key (o : Nat) : (wStart o s).key = s.key := rfl
@[simp] theorem wStart_keyEn (o : Nat) : (wStart o s).keyEn = s.keyEn := rfl
@[simp] theorem wStart_srcLen (o : Nat) : (wStart o s).srcLen = s.srcLen := rfl
@[simp] theorem wStart_dstCap (o : Nat) : (wStart o s).dstCap = s.dstCap := rfl
@[simp] theorem wStart_busy (o : Nat) : (wStart o s).busy = s.busy := rfl
@[simp] theorem wStart_done (o : Nat) : (wStart o s).done = s.done := rfl
@[simp] theorem wStart_result (o : Nat) : (wStart o s).result = s.result := rfl
@[simp] theorem wStart_code (o : Nat) : (wStart o s).code = s.code := rfl
@[simp] theorem wStart_lat (o : Nat) : (wStart o s).lat = s.lat := rfl
@[simp] theorem wStart_eng (o : Nat) : (wStart o s).eng = { s.eng with outPos := o, bitsUsed := 8, ctrlPos := none } := rfl
@[simp] theorem wStart_src (o : Nat) : (wStart o s).src = s.src := rfl
@[simp] theorem wStart_dst (o : Nat) : (wStart o s).dst = s.dst := rfl
@[simp] theorem wStart_srcBase (o : Nat) : (wStart o s).srcBase = s.srcBase := rfl
@[simp] theorem wStart_dstBase (o : Nat) : (wStart o s).dstBase = s.dstBase := rfl
@[simp] theorem wStart_params (o : Nat) : (wStart o s).params = s.params := rfl
@[simp] theorem wStart_inputs (o : Nat) : (wStart o s).inputs = s.inputs := rfl
@[simp] theorem wStart_lastRead (o : Nat) : (wStart o s).lastRead = s.lastRead := rfl
@[simp] theorem wStart_freeCount (o : Nat) : (wStart o s).freeCount = s.freeCount := rfl

/-! PUTBYTE (R122) -/

@[simp] theorem putByte_endian (v : Byte) : (putByte v s).endian = s.endian := rfl
@[simp] theorem putByte_key (v : Byte) : (putByte v s).key = s.key := rfl
@[simp] theorem putByte_keyEn (v : Byte) : (putByte v s).keyEn = s.keyEn := rfl
@[simp] theorem putByte_srcLen (v : Byte) : (putByte v s).srcLen = s.srcLen := rfl
@[simp] theorem putByte_dstCap (v : Byte) : (putByte v s).dstCap = s.dstCap := rfl
@[simp] theorem putByte_busy (v : Byte) : (putByte v s).busy = s.busy := rfl
@[simp] theorem putByte_done (v : Byte) : (putByte v s).done = s.done := rfl
@[simp] theorem putByte_result (v : Byte) : (putByte v s).result = s.result := rfl
@[simp] theorem putByte_code (v : Byte) : (putByte v s).code = s.code := rfl
@[simp] theorem putByte_lat (v : Byte) : (putByte v s).lat = s.lat := rfl
@[simp] theorem putByte_eng (v : Byte) : (putByte v s).eng = { s.eng with outPos := s.eng.outPos + 1 } := rfl
@[simp] theorem putByte_src (v : Byte) : (putByte v s).src = s.src := rfl
@[simp] theorem putByte_dst (v : Byte) : (putByte v s).dst = s.dst.set s.eng.outPos v := rfl
@[simp] theorem putByte_srcBase (v : Byte) : (putByte v s).srcBase = s.srcBase := rfl
@[simp] theorem putByte_dstBase (v : Byte) : (putByte v s).dstBase = s.dstBase := rfl
@[simp] theorem putByte_params (v : Byte) : (putByte v s).params = s.params := rfl
@[simp] theorem putByte_inputs (v : Byte) : (putByte v s).inputs = s.inputs := rfl
@[simp] theorem putByte_lastRead (v : Byte) : (putByte v s).lastRead = s.lastRead := rfl
@[simp] theorem putByte_freeCount (v : Byte) : (putByte v s).freeCount = s.freeCount := rfl

/-! the cursor p (R145) -/

@[simp] theorem moveP_endian (k : Nat) : (moveP k s).endian = s.endian := rfl
@[simp] theorem moveP_key (k : Nat) : (moveP k s).key = s.key := rfl
@[simp] theorem moveP_keyEn (k : Nat) : (moveP k s).keyEn = s.keyEn := rfl
@[simp] theorem moveP_srcLen (k : Nat) : (moveP k s).srcLen = s.srcLen := rfl
@[simp] theorem moveP_dstCap (k : Nat) : (moveP k s).dstCap = s.dstCap := rfl
@[simp] theorem moveP_busy (k : Nat) : (moveP k s).busy = s.busy := rfl
@[simp] theorem moveP_done (k : Nat) : (moveP k s).done = s.done := rfl
@[simp] theorem moveP_result (k : Nat) : (moveP k s).result = s.result := rfl
@[simp] theorem moveP_code (k : Nat) : (moveP k s).code = s.code := rfl
@[simp] theorem moveP_lat (k : Nat) : (moveP k s).lat = s.lat := rfl
@[simp] theorem moveP_eng (k : Nat) : (moveP k s).eng = { s.eng with p := s.eng.p + k } := rfl
@[simp] theorem moveP_src (k : Nat) : (moveP k s).src = s.src := rfl
@[simp] theorem moveP_dst (k : Nat) : (moveP k s).dst = s.dst := rfl
@[simp] theorem moveP_srcBase (k : Nat) : (moveP k s).srcBase = s.srcBase := rfl
@[simp] theorem moveP_dstBase (k : Nat) : (moveP k s).dstBase = s.dstBase := rfl
@[simp] theorem moveP_params (k : Nat) : (moveP k s).params = s.params := rfl
@[simp] theorem moveP_inputs (k : Nat) : (moveP k s).inputs = s.inputs := rfl
@[simp] theorem moveP_lastRead (k : Nat) : (moveP k s).lastRead = s.lastRead := rfl
@[simp] theorem moveP_freeCount (k : Nat) : (moveP k s).freeCount = s.freeCount := rfl

/-! HDR_WRITE (R201) -/

@[simp] theorem hdrWrite_endian (n : Word) : (hdrWrite n s).endian = s.endian := rfl
@[simp] theorem hdrWrite_key (n : Word) : (hdrWrite n s).key = s.key := rfl
@[simp] theorem hdrWrite_keyEn (n : Word) : (hdrWrite n s).keyEn = s.keyEn := rfl
@[simp] theorem hdrWrite_srcLen (n : Word) : (hdrWrite n s).srcLen = s.srcLen := rfl
@[simp] theorem hdrWrite_dstCap (n : Word) : (hdrWrite n s).dstCap = s.dstCap := rfl
@[simp] theorem hdrWrite_busy (n : Word) : (hdrWrite n s).busy = s.busy := rfl
@[simp] theorem hdrWrite_done (n : Word) : (hdrWrite n s).done = s.done := rfl
@[simp] theorem hdrWrite_result (n : Word) : (hdrWrite n s).result = s.result := rfl
@[simp] theorem hdrWrite_code (n : Word) : (hdrWrite n s).code = s.code := rfl
@[simp] theorem hdrWrite_lat (n : Word) : (hdrWrite n s).lat = s.lat := rfl
@[simp] theorem hdrWrite_eng (n : Word) : (hdrWrite n s).eng = s.eng := rfl
@[simp] theorem hdrWrite_src (n : Word) : (hdrWrite n s).src = s.src := rfl
@[simp] theorem hdrWrite_dst (n : Word) : (hdrWrite n s).dst = s.dst.setList 0 (ser compressOrder n) := rfl
@[simp] theorem hdrWrite_srcBase (n : Word) : (hdrWrite n s).srcBase = s.srcBase := rfl
@[simp] theorem hdrWrite_dstBase (n : Word) : (hdrWrite n s).dstBase = s.dstBase := rfl
@[simp] theorem hdrWrite_params (n : Word) : (hdrWrite n s).params = s.params := rfl
@[simp] theorem hdrWrite_inputs (n : Word) : (hdrWrite n s).inputs = s.inputs := rfl
@[simp] theorem hdrWrite_lastRead (n : Word) : (hdrWrite n s).lastRead = s.lastRead := rfl
@[simp] theorem hdrWrite_freeCount (n : Word) : (hdrWrite n s).freeCount = s.freeCount := rfl

/-! DPREP's registers (R250) -/

@[simp] theorem setStream_endian (e : ByteOrder) (n : Word) : (setStream e n s).endian = s.endian := rfl
@[simp] theorem setStream_key (e : ByteOrder) (n : Word) : (setStream e n s).key = s.key := rfl
@[simp] theorem setStream_keyEn (e : ByteOrder) (n : Word) : (setStream e n s).keyEn = s.keyEn := rfl
@[simp] theorem setStream_srcLen (e : ByteOrder) (n : Word) : (setStream e n s).srcLen = s.srcLen := rfl
@[simp] theorem setStream_dstCap (e : ByteOrder) (n : Word) : (setStream e n s).dstCap = s.dstCap := rfl
@[simp] theorem setStream_busy (e : ByteOrder) (n : Word) : (setStream e n s).busy = s.busy := rfl
@[simp] theorem setStream_done (e : ByteOrder) (n : Word) : (setStream e n s).done = s.done := rfl
@[simp] theorem setStream_result (e : ByteOrder) (n : Word) : (setStream e n s).result = s.result := rfl
@[simp] theorem setStream_code (e : ByteOrder) (n : Word) : (setStream e n s).code = s.code := rfl
@[simp] theorem setStream_lat (e : ByteOrder) (n : Word) : (setStream e n s).lat = s.lat := rfl
@[simp] theorem setStream_eng (e : ByteOrder) (n : Word) : (setStream e n s).eng = { s.eng with e := e, n := n, enc := s.lat.keyEn, need := n.toNat } := rfl
@[simp] theorem setStream_src (e : ByteOrder) (n : Word) : (setStream e n s).src = s.src := rfl
@[simp] theorem setStream_dst (e : ByteOrder) (n : Word) : (setStream e n s).dst = s.dst := rfl
@[simp] theorem setStream_srcBase (e : ByteOrder) (n : Word) : (setStream e n s).srcBase = s.srcBase := rfl
@[simp] theorem setStream_dstBase (e : ByteOrder) (n : Word) : (setStream e n s).dstBase = s.dstBase := rfl
@[simp] theorem setStream_params (e : ByteOrder) (n : Word) : (setStream e n s).params = s.params := rfl
@[simp] theorem setStream_inputs (e : ByteOrder) (n : Word) : (setStream e n s).inputs = s.inputs := rfl
@[simp] theorem setStream_lastRead (e : ByteOrder) (n : Word) : (setStream e n s).lastRead = s.lastRead := rfl
@[simp] theorem setStream_freeCount (e : ByteOrder) (n : Word) : (setStream e n s).freeCount = s.freeCount := rfl

/-! the start of DECODE (R160) -/

@[simp] theorem enterDecode_endian : (enterDecode s).endian = s.endian := rfl
@[simp] theorem enterDecode_key : (enterDecode s).key = s.key := rfl
@[simp] theorem enterDecode_keyEn : (enterDecode s).keyEn = s.keyEn := rfl
@[simp] theorem enterDecode_srcLen : (enterDecode s).srcLen = s.srcLen := rfl
@[simp] theorem enterDecode_dstCap : (enterDecode s).dstCap = s.dstCap := rfl
@[simp] theorem enterDecode_busy : (enterDecode s).busy = true := rfl
@[simp] theorem enterDecode_done : (enterDecode s).done = false := rfl
@[simp] theorem enterDecode_result : (enterDecode s).result = s.result := rfl
@[simp] theorem enterDecode_code : (enterDecode s).code = none := rfl
@[simp] theorem enterDecode_lat : (enterDecode s).lat = s.lat := rfl
@[simp] theorem enterDecode_eng : (enterDecode s).eng = { s.eng with reader := rStart 4, outPos := 0 } := rfl
@[simp] theorem enterDecode_src : (enterDecode s).src = s.src := rfl
@[simp] theorem enterDecode_dst : (enterDecode s).dst = s.dst := rfl
@[simp] theorem enterDecode_srcBase : (enterDecode s).srcBase = s.srcBase := rfl
@[simp] theorem enterDecode_dstBase : (enterDecode s).dstBase = s.dstBase := rfl
@[simp] theorem enterDecode_params : (enterDecode s).params = s.params := rfl
@[simp] theorem enterDecode_inputs : (enterDecode s).inputs = s.inputs := rfl
@[simp] theorem enterDecode_lastRead : (enterDecode s).lastRead = s.lastRead := rfl
@[simp] theorem enterDecode_freeCount : (enterDecode s).freeCount = s.freeCount := rfl

end

end Sys2Proof.Machine
end

