-- ==== Sys2Proof/Laws/Frames.lean ====
section
/-! SUPPORT. What each shared operation leaves alone. The operations inside a command change DST and the internal
registers only; `Worked s t` says so once, and every field's lemma follows from it. -/

namespace Sys2Proof.Machine

/-- `t` is `s` but for DST and the internal registers. -/
def Worked (s t : State) : Prop := t = { s with dst := t.dst, eng := t.eng }

theorem Worked.refl (s : State) : Worked s s := rfl

theorem Worked.trans {s t u : State} (h : Worked s t) (k : Worked t u) : Worked s u := by
  unfold Worked at *
  rw [k, h]

/-- The fields a `Worked` step keeps, by name. -/
theorem Worked.lat {s t : State} (h : Worked s t) : t.lat = s.lat := by rw [h]
theorem Worked.src {s t : State} (h : Worked s t) : t.src = s.src := by rw [h]
theorem Worked.params {s t : State} (h : Worked s t) : t.params = s.params := by rw [h]
theorem Worked.busy {s t : State} (h : Worked s t) : t.busy = s.busy := by rw [h]
theorem Worked.code {s t : State} (h : Worked s t) : t.code = s.code := by rw [h]
theorem Worked.inputs {s t : State} (h : Worked s t) : t.inputs = s.inputs := by rw [h]
theorem Worked.freeCount {s t : State} (h : Worked s t) : t.freeCount = s.freeCount := by rw [h]
theorem Worked.nSrc {s t : State} (h : Worked s t) : t.nSrc = s.nSrc := by rw [State.nSrc, h.lat]; rfl
theorem Worked.cap {s t : State} (h : Worked s t) : t.cap = s.cap := by rw [State.cap, h.lat]; rfl
theorem Worked.srcByte {s t : State} (h : Worked s t) (i : Nat) : t.srcByte i = s.srcByte i := by
  rw [State.srcByte, h.src]; rfl
theorem Worked.overlapping {s t : State} (h : Worked s t) : t.overlapping = s.overlapping := by
  unfold Worked at h; rw [h]; rfl

/-- A command that ends after such work has ended in the sense of `Ended`. -/
theorem ended_endCommand {s t : State} (h : Worked s t) (r : ResultWord) : Ended r s (endCommand r t) := by
  unfold Worked at h; rw [h]; rfl

theorem ended_finish {s t : State} (h : Worked s t) (v : Nat) : Ended (BitVec.ofNat 64 v) s (finish v t) :=
  ended_endCommand h _

theorem ended_raiseError {s t : State} (h : Worked s t) (k : ErrKind) :
    Ended (BitVec.ofInt 64 k.code) s (raiseError k t) :=
  ended_endCommand h _

theorem failedWith_raiseError (k : ErrKind) (s : State) : FailedWith k s (raiseError k s) :=
  ⟨ended_raiseError (Worked.refl s) k, rfl⟩

/-! ### The operations -/

theorem worked_setDst (s : State) (i : Nat) (v : Byte) : Worked s (s.setDst i v) := rfl
theorem worked_ksInit (key : Word) (s : State) : Worked s (ksInit key s) := rfl
theorem worked_ksNext (s : State) : Worked s (ksNext s).2 := rfl
theorem worked_wStart (o : Nat) (s : State) : Worked s (wStart o s) := rfl
theorem worked_putByte (v : Byte) (s : State) : Worked s (putByte v s) := rfl
theorem worked_moveP (k : Nat) (s : State) : Worked s (moveP k s) := rfl
theorem worked_hdrWrite (n : Word) (s : State) : Worked s (hdrWrite n s) := rfl
theorem worked_setStream (e : ByteOrder) (n : Word) (s : State) : Worked s (setStream e n s) := rfl

theorem worked_xorDst (a : Nat) (ks : List Byte) (s : State) : Worked s (xorDst a ks s) := by
  induction ks generalizing a s with
  | nil => exact Worked.refl s
  | cons k ks ih => exact (worked_setDst s a _).trans (ih _ _)

theorem worked_xorGroup (e : ByteOrder) (a count : Nat) (s : State) : Worked s (xorGroup e a count s) :=
  (worked_ksNext s).trans (worked_xorDst _ _ _)

theorem worked_xorGroups (e : ByteOrder) (k g : Nat) (s : State) : Worked s (xorGroups e k g s) := by
  induction k generalizing g s with
  | zero => exact Worked.refl s
  | succ k ih => exact (worked_xorGroup e _ _ s).trans (ih _ _)

theorem worked_ksXor (k : Nat) (key : Word) (e : ByteOrder) (s : State) : Worked s (ksXor k key e s) := by
  have h := (worked_ksInit key s).trans (worked_xorGroups e (k / 4) 0 _)
  unfold ksXor
  simp only
  split
  · exact h
  · exact h.trans (worked_xorGroup _ _ _ _)

theorem worked_openControl (s : State) : Worked s (openControl s) := by
  unfold openControl
  split <;> rfl

theorem worked_putBit (b : Bool) (s : State) : Worked s (putBit b s) := by
  refine (worked_openControl s).trans ?_
  unfold putBit
  simp only
  split <;> rfl

theorem worked_sendItems (items : List ChannelItem) (s : State) : Worked s (sendItems items s) := by
  induction items generalizing s with
  | nil => exact Worked.refl s
  | cons i is ih =>
    refine Worked.trans (?_ : Worked s (sendItem s i)) (ih _)
    cases i with
    | bit b => exact worked_putBit b s
    | byte v => exact worked_putByte v s

theorem worked_encodeDecision (t : Decision) (s : State) : Worked s (encodeDecision t s) := by
  have bit := fun b s => worked_putBit b s
  have byte := fun v s => worked_putByte v s
  cases t with
  | literal b => exact (bit _ _).trans (byte _ _)
  | copy d l =>
    unfold encodeDecision
    simp only
    split
    · exact ((((bit _ _).trans (bit _ _)).trans (bit _ _)).trans (bit _ _)).trans (byte _ _)
    · split
      · exact (((bit _ _).trans (bit _ _)).trans (byte _ _)).trans (byte _ _)
      · exact ((((bit _ _).trans (bit _ _)).trans (byte _ _)).trans (byte _ _)).trans (byte _ _)

theorem worked_encodeEos (s : State) : Worked s (encodeEos s) :=
  (((((worked_putBit _ _).trans (worked_putBit _ _)).trans (worked_putBit _ _)).trans (worked_putBit _ _))).trans
    (worked_putByte _ _)

theorem worked_parseFrom (finder : (Nat → Byte) → Nat → Nat → Decision) (fuel : Nat) (s : State) :
    Worked s (parseFrom finder fuel s) := by
  induction fuel generalizing s with
  | zero => exact Worked.refl s
  | succ fuel ih =>
    unfold parseFrom
    split
    · exact ((worked_encodeDecision _ s).trans (worked_moveP _ _)).trans (ih _)
    · exact Worked.refl s

theorem worked_writeStream (finder : (Nat → Byte) → Nat → Nat → Decision) (need : Nat) (s : State) :
    Worked s (writeStream finder need s) := by
  have h : Worked s { wStart 4 (hdrWrite s.lat.nSrc { s with eng := { s.eng with need := need, n := s.lat.nSrc } }) with
      eng := { (wStart 4 (hdrWrite s.lat.nSrc { s with eng := { s.eng with need := need, n := s.lat.nSrc } })).eng with p := 0 } } := rfl
  exact (h.trans (worked_parseFrom finder _ _)).trans (worked_encodeEos _)

theorem worked_copySrc (k i : Nat) (s : State) : Worked s (copySrc k i s) := by
  induction k generalizing i s with
  | zero => exact Worked.refl s
  | succ k ih => exact (worked_setDst s i _).trans (ih _ _)

theorem worked_copyBytes (d k : Nat) (s : State) : Worked s (copyBytes d k s) := by
  induction k generalizing s with
  | zero => exact Worked.refl s
  | succ k ih => exact (worked_putByte _ s).trans (ih _)

end Sys2Proof.Machine
end

