-- ==== Sys2Proof/Laws/Channel.lean ====
section
/-! SUPPORT. What PUTBYTE, PUTBIT and the reservation of a control byte do to DST and to the writer's registers. -/

namespace Sys2Proof.Machine

/-- PUTBYTE: one byte appended (R122). -/
theorem get_putByte (v : Byte) (s : State) (x : Nat) :
    (putByte v s).dst.get x = if x = s.eng.outPos then some v else s.dst.get x :=
  get_set _ _ _ _

/-- PUTBIT with a full control byte, or none: a new control byte is reserved at `out_pos` and holds the bit (R121). -/
theorem putBit_opens (b : Bool) (s : State) (h : s.eng.bitsUsed = 8) (x : Nat) :
    (putBit b s).eng =
      { s.eng with ctrlPos := some s.eng.outPos, outPos := s.eng.outPos + 1, bitsUsed := 1 } ∧
    (putBit b s).dst.get x =
      if x = s.eng.outPos then some ((BitVec.ofBool b).setWidth 8) else s.dst.get x := by
  have ho : openControl s =
      { s.setDst s.eng.outPos 0 with
        eng := { s.eng with ctrlPos := some s.eng.outPos, outPos := s.eng.outPos + 1, bitsUsed := 0 } } := if_pos h
  unfold putBit
  simp only [ho]
  refine ⟨trivial, ?_⟩
  rw [setDst_dst, get_set]
  split
  · simp [State.dstByte, State.setDst]
  · rename_i hx
    exact get_set_ne _ _ hx

/-- PUTBIT into an open control byte: its next bit is set, no byte is appended (R121, R130). -/
theorem putBit_fills (b : Bool) (s : State) (c : Nat) (h : s.eng.bitsUsed ≠ 8) (hc : s.eng.ctrlPos = some c) (x : Nat) :
    (putBit b s).eng = { s.eng with bitsUsed := s.eng.bitsUsed + 1 } ∧
    (putBit b s).dst.get x =
      if x = c then some (s.dstByte c ||| ((BitVec.ofBool b).setWidth 8 <<< s.eng.bitsUsed)) else s.dst.get x := by
  have ho : openControl s = s := if_neg h
  unfold putBit
  simp only [ho, hc]
  exact ⟨trivial, get_set _ _ _ _⟩

/-- No operation of the writer lets `bits_used` pass 8 (R33). -/
theorem bitsUsed_putBit (b : Bool) (s : State) (h : s.eng.bitsUsed ≤ 8) : (putBit b s).eng.bitsUsed ≤ 8 := by
  by_cases h8 : s.eng.bitsUsed = 8
  · rw [(putBit_opens b s h8 0).1]
    show 1 ≤ 8
    omega
  · have ho : openControl s = s := if_neg h8
    have he : (putBit b s).eng.bitsUsed = s.eng.bitsUsed + 1 := by
      unfold putBit
      simp only [ho]
      split <;> rfl
    omega

end Sys2Proof.Machine
end

