-- ==== Sys2Proof/Laws/Commands.lean ====
section
/-! SUPPORT. When a command's checks pass, and what each command answers in either case. -/

namespace Sys2Proof.Machine

/-- ENDIAN codes by value (R73). -/
theorem endianOf_cases (w : Word) :
    (endianOf w = some (some .little) ∧ w.toNat = 0) ∨ (endianOf w = some (some .big) ∧ w.toNat = 1) ∨
    (endianOf w = some none ∧ w.toNat = 2) ∨ (endianOf w = none ∧ 2 < w.toNat) := by
  unfold endianOf
  split
  · exact .inl ⟨rfl, ‹_›⟩
  · exact .inr (.inl ⟨rfl, ‹_›⟩)
  · exact .inr (.inr (.inl ⟨rfl, ‹_›⟩))
  · rename_i h0 h1 h2
    have h0 : w.toNat ≠ 0 := fun h => h0 h
    have h1 : w.toNat ≠ 1 := fun h => h1 h
    have h2 : w.toNat ≠ 2 := fun h => h2 h
    exact .inr (.inr (.inr ⟨rfl, by omega⟩))

/-- The checks of COMPRESS and ARCHIVE pass exactly under a fixed order, a source within MAX_LEN and a capacity of
MAX_SIZE; otherwise the first failing check says which kind is raised (R241, R287). -/
theorem compressPrep_cases (s : State) :
    (compressPrep s = .ok (maxSize s.nSrc) ∧ s.lat.eIn.toNat < 2 ∧ s.nSrc ≤ s.params.maxLen ∧ maxSize s.nSrc ≤ s.cap) ∨
    (compressPrep s = .error .invalidArgument ∧ (2 ≤ s.lat.eIn.toNat ∨ s.params.maxLen < s.nSrc)) ∨
    (compressPrep s = .error .outOfMemory ∧ s.lat.eIn.toNat < 2 ∧ s.nSrc ≤ s.params.maxLen ∧
      s.cap < maxSize s.nSrc) := by
  obtain ⟨he, h⟩ | ⟨he, h⟩ | ⟨he, h⟩ | ⟨he, h⟩ := endianOf_cases s.lat.eIn
  case inr.inr.inl => exact .inr (.inl ⟨by simp [compressPrep, he], .inl (by omega)⟩)
  case inr.inr.inr => exact .inr (.inl ⟨by simp [compressPrep, he], .inl (by omega)⟩)
  all_goals
    by_cases h1 : s.params.maxLen < s.nSrc
    · exact .inr (.inl ⟨by simp [compressPrep, he, h1], .inr h1⟩)
    · by_cases h2 : s.cap < maxSize s.nSrc
      · exact .inr (.inr ⟨by simp [compressPrep, he, h1, h2], by omega, by omega, h2⟩)
      · exact .inl ⟨by simp [compressPrep, he, h1, h2], by omega, by omega, by omega⟩

/-- COMPRESS and ARCHIVE: refused, failed in a check with DST untouched, or the stream written, encrypted and its size
the result (R241, R242). -/
theorem compressWith_cases (finder : (Nat → Byte) → Nat → Nat → Decision) (s : State) :
    (compressWith finder s = .refused .buffersOverlap ∧ s.overlapping = true) ∨
    (∃ k, compressPrep s = .error k ∧ compressWith finder s = .next (raiseError k s)) ∨
    (s.overlapping = false ∧ compressPrep s = .ok (maxSize s.nSrc) ∧
      compressWith finder s = .next (encryptAndFinish (writeStream finder (maxSize s.nSrc) s))) := by
  unfold compressWith
  by_cases h : s.overlapping = true
  · exact .inl ⟨by simp [h], h⟩
  · obtain ⟨hp, -⟩ | ⟨hp, -⟩ | ⟨hp, -⟩ := compressPrep_cases s
    · exact .inr (.inr ⟨by simpa using h, hp, by simp [h, hp]⟩)
    · exact .inr (.inl ⟨_, hp, by simp [h, hp]⟩)
    · exact .inr (.inl ⟨_, hp, by simp [h, hp]⟩)

/-- The end of COMPRESS and ARCHIVE in the sense of `Ended`. -/
theorem ended_encryptAndFinish {s t : State} (h : Worked s t) :
    Ended (BitVec.ofNat 64 t.eng.outPos) s (encryptAndFinish t) :=
  ended_finish (h.trans (worked_ksXor _ _ _ _)) _

/-- A declared length DPREP accepts is within MAX_LEN and is the header read in the order it gives (R208, R222,
R250). -/
theorem dprep_ok {c : Option Nat} {s : State} {e : ByteOrder} {n : Word} (h : dprep c s = .ok (e, n)) :
    4 ≤ s.nSrc ∧ n = hdrCandidate e s ∧ n.toNat ≤ s.params.maxLen := by
  have sound : ∀ k e n, resolve k s = some (e, n) → n = hdrCandidate e s ∧ n.toNat ≤ s.params.maxLen := by
    intro k e n hr
    have bound : ∀ v k', plausible s.params v k' = true → v.toNat ≤ s.params.maxLen := fun v k' hp => by
      simp only [plausible, Bool.and_eq_true, decide_eq_true_eq] at hp
      exact hp.1
    unfold resolve at hr
    simp only at hr
    split at hr
    · cases hr; exact ⟨rfl, bound _ _ ‹_›⟩
    · split at hr
      · cases hr; exact ⟨rfl, bound _ _ ‹_›⟩
      · split at hr
        · cases hr; exact ⟨rfl, bound _ _ ‹_›⟩
        · split at hr
          · cases hr; exact ⟨rfl, bound _ _ ‹_›⟩
          · cases hr
  unfold dprep at h
  split at h
  · cases h
  · split at h
    · cases h
    · split at h
      · cases h
      · rename_i h0 h4
        split at h
        · split at h
          · cases h
          · rename_i r hr
            cases h
            exact ⟨by omega, sound _ _ _ hr⟩
        · split at h
          · cases h
          · cases h
            exact ⟨by omega, rfl, by omega⟩

/-- Decompression's checks pass only with the declared length within `cap` (R244, R245). -/
theorem decompressPrep_ok {c : Option Nat} {small : ErrKind} {s : State} {e : ByteOrder} {n : Word}
    (h : decompressPrep c small s = .ok (e, n)) : dprep c s = .ok (e, n) ∧ n.toNat ≤ s.cap := by
  unfold decompressPrep at h
  split at h
  · cases h
  · rename_i e' n' hd
    split at h
    · cases h
    · cases h
      exact ⟨hd, by omega⟩

/-- DECOMPRESS_BUF and DECOMPRESS_BUF2: refused, failed in a check with DST untouched, or DECODE run with a declared
length within `cap` (R244, R245). -/
theorem decompressWith_cases (c : Option Nat) (small : ErrKind) (s : State) :
    (decompressWith c small s = .refused .buffersOverlap ∧ s.overlapping = true) ∨
    (∃ k, decompressPrep c small s = .error k ∧ decompressWith c small s = .next (raiseError k s)) ∨
    (∃ e n, s.overlapping = false ∧ decompressPrep c small s = .ok (e, n) ∧
      decompressWith c small s = decode (setStream e n s)) := by
  unfold decompressWith
  by_cases h : s.overlapping = true
  · exact .inl ⟨by simp [h], h⟩
  · cases hp : decompressPrep c small s with
    | error k => exact .inr (.inl ⟨k, rfl, by simp [h]⟩)
    | ok p =>
      obtain ⟨e, n⟩ := p
      exact .inr (.inr ⟨e, n, by simpa using h, rfl, by simp [h]⟩)

/-- The checks of CRYPT (R247). -/
theorem cryptPrep_cases (s : State) :
    (∃ e, cryptPrep s = .ok e ∧ endianOf s.lat.eIn = some (some e) ∧ s.nSrc ≤ s.cap) ∨
    (cryptPrep s = .error .invalidArgument ∧ 2 ≤ s.lat.eIn.toNat) ∨
    (cryptPrep s = .error .bufferTooSmall ∧ s.lat.eIn.toNat < 2 ∧ s.cap < s.nSrc) := by
  obtain ⟨he, h⟩ | ⟨he, h⟩ | ⟨he, h⟩ | ⟨he, h⟩ := endianOf_cases s.lat.eIn
  case inr.inr.inl => exact .inr (.inl ⟨by simp [cryptPrep, he], by omega⟩)
  case inr.inr.inr => exact .inr (.inl ⟨by simp [cryptPrep, he], by omega⟩)
  all_goals
    by_cases hc : s.cap < s.nSrc
    · exact .inr (.inr ⟨by simp [cryptPrep, he, hc], by omega, hc⟩)
    · exact .inl ⟨_, by simp [cryptPrep, he, hc], he, by omega⟩

/-- CRYPT: refused, failed in a check with DST untouched, or the copied source encrypted (R247). -/
theorem execCrypt_cases (s : State) :
    (execCrypt s = .refused .buffersOverlap ∧ s.overlapping = true) ∨
    (∃ k, cryptPrep s = .error k ∧ execCrypt s = .next (raiseError k s)) ∨
    (∃ e, s.overlapping = false ∧ cryptPrep s = .ok e ∧
      execCrypt s = .next (finish s.nSrc (ksXor s.nSrc s.lat.key e (copySrc s.nSrc 0 s)))) := by
  unfold execCrypt
  by_cases h : s.overlapping = true
  · exact .inl ⟨by simp [h], h⟩
  · cases hp : cryptPrep s with
    | error k => exact .inr (.inl ⟨k, rfl, by simp [h]⟩)
    | ok e => exact .inr (.inr ⟨e, by simpa using h, rfl, by simp [h]⟩)

/-- The copied source bytes. -/
theorem get_copySrc (k i : Nat) (s : State) (x : Nat) :
    (copySrc k i s).dst.get x = if i ≤ x ∧ x < i + k then some (s.srcByte x) else s.dst.get x := by
  induction k generalizing i s with
  | zero =>
    have h : ¬ (i ≤ x ∧ x < i + 0) := by omega
    rw [if_neg h]; rfl
  | succ k ih =>
    rw [copySrc, ih]
    by_cases h1 : x = i
    · subst h1
      have h : ¬ (x + 1 ≤ x ∧ x < x + 1 + k) := by omega
      have h' : x ≤ x ∧ x < x + (k + 1) := by omega
      rw [if_neg h, if_pos h', setDst_dst, get_set_same]
    · by_cases h2 : i + 1 ≤ x ∧ x < i + 1 + k
      · have h3 : i ≤ x ∧ x < i + (k + 1) := by omega
        rw [if_pos h2, if_pos h3]; rfl
      · have h3 : ¬ (i ≤ x ∧ x < i + (k + 1)) := by omega
        rw [if_neg h2, if_neg h3, setDst_dst, get_set_ne _ _ h1]

end Sys2Proof.Machine
end

