-- ==== Sys2Proof/Laws/Reader.lean ====
section
/-! SUPPORT. What the bit reader can do: a successful read moves the cursor on inside the stream and keeps at most 8
control bits. -/

namespace Sys2Proof.Machine

/-- `r'` is `r` moved on, by at least one byte, past bytes that the stream has. -/
def Advanced (P : Nat → Option Byte) (r r' : Reader) : Prop :=
  r.inPos < r'.inPos ∧ ∀ i, r.inPos ≤ i → i < r'.inPos → (P i).isSome = true

/-- As `Advanced`, or the cursor stays. -/
def Moved (P : Nat → Option Byte) (r r' : Reader) : Prop :=
  r.inPos ≤ r'.inPos ∧ ∀ i, r.inPos ≤ i → i < r'.inPos → (P i).isSome = true

theorem Moved.trans_advanced {P : Nat → Option Byte} {r r' r'' : Reader} (h : Moved P r r') (k : Advanced P r' r'') :
    Advanced P r r'' := by
  refine ⟨lt_of_le_of_lt h.1 k.1, fun i hi hi' => ?_⟩
  by_cases hm : i < r'.inPos
  · exact h.2 i hi hm
  · exact k.2 i (by omega) hi'

theorem Moved.trans {P : Nat → Option Byte} {r r' r'' : Reader} (h : Moved P r r') (k : Moved P r' r'') :
    Moved P r r'' := by
  refine ⟨le_trans h.1 k.1, fun i hi hi' => ?_⟩
  by_cases hm : i < r'.inPos
  · exact h.2 i hi hm
  · exact k.2 i (by omega) hi'

theorem Advanced.moved {P : Nat → Option Byte} {r r' : Reader} (h : Advanced P r r') : Moved P r r' :=
  ⟨le_of_lt h.1, h.2⟩

/-- A byte read: the stream's byte at the cursor, the cursor one further. -/
theorem fetchByte_some {P : Nat → Option Byte} {r r' : Reader} {v : Byte} (h : fetchByte P r = some (v, r')) :
    P r.inPos = some v ∧ r' = { r with inPos := r.inPos + 1 } := by
  unfold fetchByte at h
  split at h
  · cases h
  · rename_i w hw
    simp only [Option.some.injEq, Prod.mk.injEq] at h
    obtain ⟨rfl, rfl⟩ := h
    exact ⟨hw, rfl⟩

theorem advanced_next {P : Nat → Option Byte} {r : Reader} {v : Byte} (h : P r.inPos = some v) (c : Byte) (b : Nat) :
    Advanced P r ⟨r.inPos + 1, c, b⟩ := by
  refine ⟨Nat.lt_succ_self _, fun i hi hi' => ?_⟩
  have : i = r.inPos := by simp only at hi'; omega
  rw [this, h]; rfl

/-- GETBYTE succeeds with the stream's byte at the cursor (R127). -/
theorem getByte_ok {P : Nat → Option Byte} {r r' : Reader} {v : Byte} (h : getByte P r = .ok (v, r')) :
    P r.inPos = some v ∧ r' = { r with inPos := r.inPos + 1 } := by
  unfold getByte at h
  split at h
  · cases h
  · rename_i w hw
    simp only [Except.ok.injEq] at h
    exact fetchByte_some (h ▸ hw)

theorem getByte_advanced {P : Nat → Option Byte} {r r' : Reader} {v : Byte} (h : getByte P r = .ok (v, r')) :
    Advanced P r r' := by
  obtain ⟨hv, rfl⟩ := getByte_ok h
  exact advanced_next hv _ _

/-- GETBIT: bit 0 of the control byte in hand, or of the next byte where none is left (R126). -/
theorem getBit_ok {P : Nat → Option Byte} {r r' : Reader} {b : Bool} (h : getBit P r = .ok (b, r')) :
    (r.bitsLeft ≠ 0 ∧ b = r.cur.getLsbD 0 ∧ r' = ⟨r.inPos, r.cur >>> 1, r.bitsLeft - 1⟩) ∨
    (r.bitsLeft = 0 ∧ ∃ v, P r.inPos = some v ∧ b = v.getLsbD 0 ∧ r' = ⟨r.inPos + 1, v >>> 1, 7⟩) := by
  unfold getBit refill at h
  by_cases h0 : r.bitsLeft = 0
  · rw [if_pos h0] at h
    cases hf : fetchByte P r with
    | none => rw [hf] at h; cases h
    | some p =>
      obtain ⟨v, r1⟩ := p
      obtain ⟨hv, rfl⟩ := fetchByte_some hf
      rw [hf] at h
      simp only [Except.ok.injEq, Prod.mk.injEq] at h
      obtain ⟨rfl, rfl⟩ := h
      exact .inr ⟨h0, v, hv, rfl, rfl⟩
  · rw [if_neg h0] at h
    simp only [Except.ok.injEq, Prod.mk.injEq] at h
    obtain ⟨rfl, rfl⟩ := h
    exact .inl ⟨h0, rfl, rfl⟩

theorem getBit_moved {P : Nat → Option Byte} {r r' : Reader} {b : Bool} (h : getBit P r = .ok (b, r')) :
    Moved P r r' := by
  obtain ⟨_, _, rfl⟩ | ⟨_, v, hv, _, rfl⟩ := getBit_ok h
  · exact ⟨le_refl _, fun i hi hi' => absurd hi' (by simp only; omega)⟩
  · exact (advanced_next hv _ _).moved

theorem getBit_bitsLeft {P : Nat → Option Byte} {r r' : Reader} {b : Bool} (h : getBit P r = .ok (b, r'))
    (hr : r.bitsLeft ≤ 8) : r'.bitsLeft ≤ 8 := by
  obtain ⟨_, _, rfl⟩ | ⟨_, v, _, _, rfl⟩ := getBit_ok h
  · simp only; omega
  · simp

theorem getByte_bitsLeft {P : Nat → Option Byte} {r r' : Reader} {v : Byte} (h : getByte P r = .ok (v, r')) :
    r'.bitsLeft = r.bitsLeft := by
  obtain ⟨_, rfl⟩ := getByte_ok h
  rfl

/-- A bind in the decoder succeeds through a success of its first part. -/
theorem bind_ok {α β : Type} {x : Except DecodeError α} {f : α → Except DecodeError β} {b : β}
    (h : (x >>= f) = .ok b) : ∃ a, x = .ok a ∧ f a = .ok b := by
  cases x with
  | error e => cases h
  | ok a => exact ⟨a, rfl, h⟩

/-- Every token has at least one payload byte, read last, so decoding one moves the cursor on inside the stream (R82,
R318); at most 8 control bits are left. -/
theorem decodeToken_ok {P : Nat → Option Byte} {r r' : Reader} {t : WireToken} (h : decodeToken P r = .ok (t, r')) :
    Advanced P r r' ∧ (r.bitsLeft ≤ 8 → r'.bitsLeft ≤ 8) := by
  unfold decodeToken at h
  obtain ⟨⟨c0, r0⟩, h0, h⟩ := bind_ok h
  have m0 := getBit_moved h0
  have b0 := getBit_bitsLeft h0
  simp only at h
  split at h
  · obtain ⟨⟨b, r1⟩, h1, h⟩ := bind_ok h
    cases h
    exact ⟨m0.trans_advanced (getByte_advanced h1), fun hr => by rw [getByte_bitsLeft h1]; exact b0 hr⟩
  · obtain ⟨⟨c1, r1⟩, h1, h⟩ := bind_ok h
    have m1 := m0.trans (getBit_moved h1)
    have b1 := fun hr => getBit_bitsLeft h1 (b0 hr)
    simp only at h
    split at h
    · obtain ⟨⟨v0, r2⟩, h2, h⟩ := bind_ok h
      obtain ⟨⟨v1, r3⟩, h3, h⟩ := bind_ok h
      have a3 := (m1.trans (getByte_advanced h2).moved).trans_advanced (getByte_advanced h3)
      have e3 : r3.bitsLeft = r1.bitsLeft := by rw [getByte_bitsLeft h3, getByte_bitsLeft h2]
      simp only at h
      split at h
      · obtain ⟨⟨e, r4⟩, h4, h⟩ := bind_ok h
        cases h
        exact ⟨a3.moved.trans_advanced (getByte_advanced h4),
          fun hr => by rw [getByte_bitsLeft h4, e3]; exact b1 hr⟩
      · cases h
        exact ⟨a3, fun hr => by rw [e3]; exact b1 hr⟩
    · obtain ⟨⟨l1, r2⟩, h2, h⟩ := bind_ok h
      obtain ⟨⟨l0, r3⟩, h3, h⟩ := bind_ok h
      obtain ⟨⟨x, r4⟩, h4, h⟩ := bind_ok h
      cases h
      exact ⟨((m1.trans (getBit_moved h2)).trans (getBit_moved h3)).trans_advanced (getByte_advanced h4),
        fun hr => by
          rw [getByte_bitsLeft h4]; exact getBit_bitsLeft h3 (getBit_bitsLeft h2 (b1 hr))⟩

/-- The plaintext stream has exactly `n_src` bytes (R127). -/
theorem plainByte_isSome (s : State) (i : Nat) : (s.plainByte i).isSome = decide (i < s.nSrc) := by
  unfold State.plainByte
  split <;> simp_all

end Sys2Proof.Machine
end

