-- ==== Sys2Proof/Laws/Tokens.lean ====
section
/-! SUPPORT. What a token's meaning, and one iteration of DECODE, can answer. -/

namespace Sys2Proof.Machine

/-- `t` is `s` with output bytes appended: `out_pos` has grown within `N` and `cap`, DST differs only between the old
and the new `out_pos`, and nothing else has changed. -/
def Appended (s t : State) : Prop :=
  s.eng.outPos ≤ t.eng.outPos ∧ t.eng.outPos ≤ s.declared ∧ t.eng.outPos ≤ s.cap ∧
  t = { s with dst := t.dst, eng := { s.eng with outPos := t.eng.outPos } } ∧
  (∀ a, a < s.eng.outPos ∨ t.eng.outPos ≤ a → t.dst.get a = s.dst.get a) ∧ (s.dst.wf → t.dst.wf)

theorem eng_copyBytes (d k : Nat) (s : State) :
    (copyBytes d k s).eng = { s.eng with outPos := s.eng.outPos + k } := by
  induction k generalizing s with
  | zero => rfl
  | succ k ih =>
    rw [copyBytes, ih]
    simp only [putByte_eng]
    congr 1
    omega

theorem get_copyBytes_outside (d k : Nat) (s : State) (a : Nat) (h : a < s.eng.outPos ∨ s.eng.outPos + k ≤ a) :
    (copyBytes d k s).dst.get a = s.dst.get a := by
  induction k generalizing s with
  | zero => rfl
  | succ k ih =>
    rw [copyBytes, ih _ (by simp only [putByte_eng]; omega), putByte_dst, get_set_ne]
    omega

theorem wf_copyBytes (d k : Nat) (s : State) (h : s.dst.wf) : (copyBytes d k s).dst.wf := by
  induction k generalizing s with
  | zero => exact h
  | succ k ih => exact ih _ (set_wf h _ _)

/-- COPY_EXEC appends within the limits, raises BadFormat outside the format's, or faults beyond `cap` (R166). -/
theorem copyExec_cases (d l : Nat) (s : State) :
    (∃ t, copyExec d l s = .next t ∧ Appended s t ∧ t = copyBytes d l s ∧ d ≤ s.eng.outPos ∧
      s.eng.outPos + l ≤ s.declared) ∨
    (copyExec d l s = .next (raiseInDecode s) ∧ (s.eng.outPos < d ∨ s.declared < s.eng.outPos + l)) ∨
    (copyExec d l s = .fault .dstOutOfBounds ∧ s.cap < s.declared) := by
  unfold copyExec
  split
  · rename_i h; exact .inr (.inl ⟨rfl, .inl h⟩)
  · rename_i h1
    split
    · rename_i h; exact .inr (.inl ⟨rfl, .inr h⟩)
    · rename_i h2
      split
      · exact .inr (.inr ⟨rfl, by omega⟩)
      · rename_i h3
        have he := eng_copyBytes d l s
        have ho : (copyBytes d l s).eng.outPos = s.eng.outPos + l := by rw [he]
        refine .inl ⟨_, rfl, ⟨by omega, by omega, by omega, ?_, ?_, wf_copyBytes d l s⟩, rfl, by omega, by omega⟩
        · have hw := worked_copyBytes d l s
          rw [Worked, he] at hw
          rw [ho]
          exact hw
        · intro a ha
          rw [ho] at ha
          exact get_copyBytes_outside d l s a ha

/-- A token appends output, ends the command at EndOfStream, raises BadFormat, or faults where `N` is above `cap`. -/
theorem execWire_cases (t : WireToken) (s : State) :
    (∃ u, execWire t s = .next u ∧ Appended s u) ∨
    (execWire t s = .next (finish s.declared s) ∧ t = .eos ∧ s.eng.outPos = s.declared) ∨
    execWire t s = .next (raiseInDecode s) ∨
    (execWire t s = .fault .dstOutOfBounds ∧ s.cap < s.declared) := by
  have copy : ∀ d l, execWire t s = copyExec d l s →
      (∃ u, execWire t s = .next u ∧ Appended s u) ∨
      (execWire t s = .next (finish s.declared s) ∧ t = .eos ∧ s.eng.outPos = s.declared) ∨
      execWire t s = .next (raiseInDecode s) ∨
      (execWire t s = .fault .dstOutOfBounds ∧ s.cap < s.declared) := by
    intro d l h
    rw [h]
    obtain ⟨u, h1, h2, -⟩ | ⟨h1, -⟩ | h1 := copyExec_cases d l s
    · exact .inl ⟨u, h1, h2⟩
    · exact .inr (.inr (.inl h1))
    · exact .inr (.inr (.inr h1))
  cases t with
  | lit b =>
    simp only [execWire, execLit]
    split
    · exact .inr (.inr (.inl rfl))
    · split
      · exact .inr (.inr (.inr ⟨rfl, by omega⟩))
      · refine .inl ⟨_, rfl, ⟨by simp, ?_, ?_, rfl, ?_, fun h => set_wf h _ _⟩⟩
        · simp only [putByte_eng]; omega
        · simp only [putByte_eng]; omega
        · intro a ha
          simp only [putByte_eng] at ha
          exact get_set_ne _ _ (by omega)
  | scopy l x => exact copy _ _ rfl
  | eos =>
    simp only [execWire, execEos]
    split
    · exact .inr (.inr (.inl rfl))
    · rename_i h
      exact .inr (.inl ⟨rfl, trivial, not_not.1 h⟩)
  | lcopy dx lf =>
    by_cases h : longDistance dx = 0
    · exact .inr (.inr (.inl (by simp [execWire, execLcopy, h])))
    · exact copy (longDistance dx) (plainLength lf) (by simp [execWire, execLcopy, h])
  | lcopyx dx e =>
    by_cases h : longDistance dx = 0
    · exact .inr (.inr (.inl (by simp [execWire, execLcopyx, h])))
    · exact copy (longDistance dx) (escapeLength e) (by simp [execWire, execLcopyx, h])

/-- `exec` on a decoded token is the token's meaning. -/
@[simp] theorem exec_toInstr (t : WireToken) (s : State) : exec t.toInstr s = execWire t s := by cases t <;> rfl

/-- A token fetched: the decoder's token, the reader past it (R127). -/
theorem fetchToken_ok {s s' : State} {t : WireToken} (h : fetchToken s = .ok (t, s')) :
    ∃ r, decodeToken s.plainByte s.eng.reader = .ok (t, r) ∧ s' = { s with eng := { s.eng with reader := r } } := by
  unfold fetchToken at h
  split at h
  · cases h
  · rename_i t' r hd
    cases h
    exact ⟨r, hd, rfl⟩

/-- One iteration of DECODE: output is appended and the reader has moved on inside SRC, or the command has ended, or
`N` is above `cap` (R160). -/
theorem tokenStep_cases (s : State) :
    (∃ r u, tokenStep s = .next u ∧ Appended { s with eng := { s.eng with reader := r } } u ∧
      s.eng.reader.inPos < r.inPos ∧ r.inPos ≤ s.nSrc ∧ (s.eng.reader.bitsLeft ≤ 8 → r.bitsLeft ≤ 8)) ∨
    (∃ r, tokenStep s = .next (finish s.declared { s with eng := { s.eng with reader := r } }) ∧
      s.eng.outPos = s.declared) ∨
    (∃ r, tokenStep s = .next (raiseInDecode { s with eng := { s.eng with reader := r } })) ∨
    (tokenStep s = .fault .dstOutOfBounds ∧ s.cap < s.declared) := by
  unfold tokenStep
  cases hf : fetchToken s with
  | error e => exact .inr (.inr (.inl ⟨s.eng.reader, rfl⟩))
  | ok p =>
    obtain ⟨t, s'⟩ := p
    obtain ⟨r, hd, rfl⟩ := fetchToken_ok hf
    obtain ⟨⟨hlt, hin⟩, hb⟩ := decodeToken_ok hd
    have hle : r.inPos ≤ s.nSrc := by
      have := hin (r.inPos - 1) (by omega) (by omega)
      rw [plainByte_isSome, decide_eq_true_eq] at this
      omega
    obtain ⟨u, h1, h2⟩ | ⟨h1, -, h2⟩ | h1 | ⟨h1, h2⟩ := execWire_cases t { s with eng := { s.eng with reader := r } }
    · exact .inl ⟨r, u, h1, h2, hlt, hle, hb⟩
    · exact .inr (.inl ⟨r, h1, h2⟩)
    · exact .inr (.inr (.inl ⟨r, h1⟩))
    · exact .inr (.inr (.inr ⟨h1, h2⟩))

end Sys2Proof.Machine
end

