-- ==== Sys2Proof/Laws/Host.lean ====
section
/-! SUPPORT. What the host's accesses, reset and one step of the machine can do. -/

namespace Sys2Proof.Machine

/-- A register write starts a command, or replaces operand registers only (R21 to R29). -/
theorem writeReg_cases (offset : Nat) (v : Word) (s : State) :
    (offset = 0 ∧ s.busy = false ∧ writeReg offset v s = startCommand v s) ∨
    (∃ endian key keyEn srcLen dstCap,
      writeReg offset v s = s.withOperands endian key keyEn srcLen dstCap) := by
  unfold writeReg
  split
  · by_cases h : s.busy = true
    · exact .inr ⟨_, _, _, _, _, if_pos h⟩
    · exact .inl ⟨rfl, by simpa using h, if_neg h⟩
  all_goals exact .inr ⟨_, _, _, _, _, rfl⟩

/-- A buffer access is refused while BUSY, a fault beyond any buffer, and otherwise what the host asked for. -/
theorem bufferAccess_cases (offset count : Nat) (after s : State) :
    (bufferAccess offset count after s = .refused .bufferAccessWhileBusy ∧ s.busy = true) ∨
    (bufferAccess offset count after s = .fault .noSuchOffset ∧ s.busy = false ∧ 0xFFFFFFFF < offset + count) ∨
    (bufferAccess offset count after s = .next after ∧ s.busy = false ∧ offset + count ≤ 0xFFFFFFFF) := by
  unfold bufferAccess
  by_cases h : s.busy = true
  · exact .inl ⟨if_pos h, h⟩
  · by_cases h' : maxBufferBytes < offset + count
    · exact .inr (.inl ⟨by simp [h, h'], by simpa using h, h'⟩)
    · exact .inr (.inr ⟨by simp [h, h'], by simpa using h, Nat.le_of_not_lt h'⟩)

/-- A host access to a buffer's bytes is a `bufferAccess` that ends where the access ends. -/
theorem hostAccess_buffer {op : HostOp} {k : Nat} (h : op.bufferReach = some k) (s : State) :
    ∃ offset count after, offset + count = k ∧ hostAccess op s = bufferAccess offset count after s := by
  cases op <;> simp only [HostOp.bufferReach, Option.some.injEq, reduceCtorEq] at h <;> exact ⟨_, _, _, h, rfl⟩

/-- Overlapping buffers share an address (R69). -/
theorem overlapping_shares {s : State} (h : s.overlapping = true) :
    ∃ x, (s.srcBase ≤ x ∧ x < s.srcBase + s.nSrc) ∧ (s.dstBase ≤ x ∧ x < s.dstBase + s.cap) := by
  simp only [State.overlapping, Bool.and_eq_true, decide_eq_true_eq] at h
  exact ⟨max s.srcBase s.dstBase, by omega, by omega⟩

/-- A reset is refused where it would cut short a command over overlapping buffers; otherwise DST is kept from the end
of what the command writes on (R310). -/
theorem resetBlock_cases (s : State) :
    (resetBlock s = .refused .buffersOverlap ∧ runsOverlapped s = true) ∨
    (∃ t, resetBlock s = .next t ∧ runsOverlapped s = false ∧ t.busy = false ∧ t.done = false ∧ t.code = none ∧
      t.eng = Engine.reset ∧ t.src = s.src ∧ t.params = s.params ∧ t.inputs = s.inputs ∧
      DstKeptFrom (writeExtent s) s t ∧ (s.dst.wf → t.dst.wf)) := by
  unfold resetBlock
  by_cases h : runsOverlapped s = true
  · exact .inl ⟨if_pos h, h⟩
  · refine .inr ⟨_, if_neg h, by simpa using h, rfl, rfl, rfl, rfl, rfl, rfl, rfl, fun a ha => ?_,
      fun hw => setPrefix_wf hw _ _⟩
    exact (get_setPrefix _ _ _ a).trans (if_neg (by omega))

/-- The engine is idle, runs the command it holds, executes the next token, or raises BadFormat at an underrun. -/
theorem engineStep_cases (s : State) :
    (engineStep s = .next s ∧ s.busy = false) ∨
    (∃ code, s.code = some code ∧ s.busy = true ∧ engineStep s = exec (decodeCommand code) { s with code := none }) ∨
    (s.code = none ∧ s.busy = true ∧ engineStep s = tokenStep s) := by
  by_cases hb : s.busy = true
  · cases hc : s.code with
    | some code => exact .inr (.inl ⟨code, rfl, hb, by simp [engineStep, hb, hc]⟩)
    | none =>
      refine .inr (.inr ⟨rfl, hb, ?_⟩)
      unfold engineStep tokenStep
      rw [if_pos hb, hc]
      cases fetchToken s with
      | error e => rfl
      | ok p => exact exec_toInstr p.1 p.2
  · exact .inl ⟨by simp [engineStep, hb], by simpa using hb⟩

/-- A step is the engine's move, or the next host access; a WAIT that is over too early, with the engine idle, polls
STATUS again. -/
theorem step_cases (s : State) :
    (∃ rest, step s = engineStep { s with inputs := rest } ∧ (rest = s.inputs ∨ s.inputs = .letRun :: rest)) ∨
    (∃ op rest, s.inputs = op :: rest ∧ step s = hostAccess op { s with inputs := rest }) ∨
    (∃ rest, s.inputs = .wait :: rest ∧ s.busy = false ∧ s.done = false ∧ step s = hostAccess .wait s) := by
  unfold step nextMove
  split
  · rename_i h
    exact .inl ⟨[], by rw [← h], .inl h.symm⟩
  · rename_i rest h
    exact .inl ⟨rest, rfl, .inr h⟩
  · rename_i rest h
    by_cases hd : s.done = true
    · exact .inr (.inl ⟨_, rest, h, if_pos hd⟩)
    · by_cases hb : s.busy = true
      · exact .inl ⟨s.inputs, by rw [if_neg hd, if_pos hb], .inl rfl⟩
      · exact .inr (.inr ⟨rest, h, by simpa using hb, by simpa using hd, by rw [if_neg hd, if_neg hb]⟩)
  · rename_i op rest _ _ h
    exact .inr (.inl ⟨op, rest, h, rfl⟩)

end Sys2Proof.Machine
end

