-- ==== Sys2Proof/Laws/Keystream.lean ====
section
/-! SUPPORT. What one XOR pass over consecutive DST bytes, and one keystream group, do. -/

namespace Sys2Proof.Machine

@[simp] theorem ser_length (e : ByteOrder) (w : Word) : (ser e w).length = 4 := by cases e <;> rfl

@[simp] theorem ksNext_word (s : State) : (ksNext s).1 = ksStep s.params s.eng.ks := rfl

/-- Every byte in reach is XORed with its own key byte; every other byte is as before. -/
theorem get_xorDst (a : Nat) (ks : List Byte) (s : State) (x : Nat) :
    (xorDst a ks s).dst.get x =
      if a ≤ x ∧ x < a + ks.length then some (s.dstByte x ^^^ ks.getD (x - a) 0) else s.dst.get x := by
  induction ks generalizing a s with
  | nil =>
    have h : ¬ (a ≤ x ∧ x < a + ([] : List Byte).length) := by simp
    rw [if_neg h]; rfl
  | cons k ks ih =>
    simp only [xorDst, ih, List.length_cons]
    by_cases h1 : x = a
    · subst h1
      have h : ¬ (x + 1 ≤ x ∧ x < x + 1 + ks.length) := by omega
      have h' : x ≤ x ∧ x < x + (ks.length + 1) := by omega
      rw [if_neg h, if_pos h']
      simp
    · by_cases h2 : a + 1 ≤ x ∧ x < a + 1 + ks.length
      · have h3 : a ≤ x ∧ x < a + (ks.length + 1) := by omega
        have h4 : x - a = (x - (a + 1)) + 1 := by omega
        rw [if_pos h2, if_pos h3, dstByte_setDst, if_neg h1, h4, List.getD_cons_succ]
      · have h3 : ¬ (a ≤ x ∧ x < a + (ks.length + 1)) := by omega
        rw [if_neg h2, if_neg h3, setDst_dst, get_set_ne _ _ h1]

theorem eng_xorDst (a : Nat) (ks : List Byte) (s : State) : (xorDst a ks s).eng = s.eng := by
  induction ks generalizing a s with
  | nil => rfl
  | cons k ks ih => exact ih _ _

/-- One group XORs `count` bytes with the leading bytes of the next keystream word, which stays in `KS` (R103, R104). -/
theorem get_xorGroup (e : ByteOrder) (a count : Nat) (h : count ≤ 4) (s : State) (x : Nat) :
    (xorGroup e a count s).dst.get x =
      if a ≤ x ∧ x < a + count then
        some (s.dstByte x ^^^ (ser e (ksStep s.params s.eng.ks)).getD (x - a) 0)
      else s.dst.get x := by
  rw [xorGroup, get_xorDst, ksNext_word, List.length_take, ser_length, Nat.min_eq_left h]
  split
  · rename_i hx
    have hlt : x - a < count := by omega
    have htake : ((ser e (ksStep s.params s.eng.ks)).take count).getD (x - a) 0
        = (ser e (ksStep s.params s.eng.ks)).getD (x - a) 0 := by
      simp [List.getD_eq_getElem?_getD, hlt]
    rw [htake]; rfl
  · rfl

theorem eng_xorGroup (e : ByteOrder) (a count : Nat) (s : State) :
    (xorGroup e a count s).eng = { s.eng with ks := ksStep s.params s.eng.ks } := by
  rw [xorGroup, eng_xorDst]; rfl

end Sys2Proof.Machine
end

