-- ==== Sys2Proof/Laws/PerInstr.lean ====
section
/-! SUPPORT. Statements made once per instruction, as syntax. -/

namespace Sys2Proof.Laws.EncodingShape

open Sys2Proof.Machine

/-- An instruction is encoded either as a command word, and then it is a command, or as a token of one control byte and
one to three payload bytes from a fresh writer (spec/30_encoding.md R70, R82), and then it is none. -/
def Statement (i : Instr) : Prop :=
  match encode i with
  | .command _ => isCommand i = true
  | .token bytes => isCommand i = false ∧ 2 ≤ bytes.length ∧ bytes.length ≤ 4

theorem lit (b : Byte) : Statement (.lit b) := ⟨rfl, Nat.le_of_ble_eq_true rfl, Nat.le_of_ble_eq_true rfl⟩
theorem scopy (l : BitVec 2) (x : Byte) : Statement (.scopy l x) := ⟨rfl, Nat.le_of_ble_eq_true rfl, Nat.le_of_ble_eq_true rfl⟩
theorem eos : Statement .eos := ⟨rfl, Nat.le_of_ble_eq_true rfl, Nat.le_of_ble_eq_true rfl⟩
theorem lcopy (dx : BitVec 13) (lf : BitVec 3) : Statement (.lcopy dx lf) := ⟨rfl, Nat.le_of_ble_eq_true rfl, Nat.le_of_ble_eq_true rfl⟩
theorem lcopyx (dx : BitVec 13) (e : Byte) : Statement (.lcopyx dx e) := ⟨rfl, Nat.le_of_ble_eq_true rfl, Nat.le_of_ble_eq_true rfl⟩
theorem compress : Statement .compress := rfl
theorem archive : Statement .archive := rfl
theorem maxCompressedSize : Statement .maxCompressedSize := rfl
theorem decompressBuf : Statement .decompressBuf := rfl
theorem decompressBuf2 : Statement .decompressBuf2 := rfl
theorem decompressSize : Statement .decompressSize := rfl
theorem crypt : Statement .crypt := rfl
theorem illegalCmd (code : Word) : Statement (.illegalCmd code) := rfl

end Sys2Proof.Laws.EncodingShape
end

