-- ==== Sys2Proof/Tests/Slice0.lean ====
section
/-! SUPPORT. The model's own tests, each of one step or one operation, with the expected values of
spec/95_test_vectors.md, and for every statement with hypotheses a state that meets them. -/

namespace Sys2Proof.Tests

open Sys2Proof.Machine

/-! ### Small states -/

/-- The example parameters of spec/95_test_vectors.md (G1): not the hardware's. -/
def exampleParams : Params := ⟨0x20E32736, 0x3039, 0x00FFFFFF⟩

/-- A started command's state: operands latched, BUSY. -/
def started (src : List Byte) (cap eIn key : Word) (keyEn : Bool) : State :=
  { State.reset with
    params := exampleParams, busy := true, src := Memory.setList [] 0 src
    lat := { eIn := eIn, key := key, keyEn := keyEn, nSrc := BitVec.ofNat 32 src.length, cap := cap } }

/-- A state inside DECODE: declared length and capacity `n`, some output bytes written. -/
def decodingState (n : Word) (out : List Byte) : State :=
  { State.reset with
    params := exampleParams, busy := true, dst := Memory.setList [] 0 out
    lat := { Latches.reset with cap := n }
    eng := { Engine.reset with n := n, outPos := out.length } }

/-- An idle state with one host access to come. -/
def awaiting (op : HostOp) : State := { State.reset with params := exampleParams, inputs := [op] }

/-- The outcome is a command's end with this RESULT and these DST bytes from offset 0 on. -/
def endsWith (o : Host.Outcome State Fault Refusal) (r : Int) (dst : List Byte) : Bool :=
  match o with
  | .next t => t.done && !t.busy && decide (t.result.toInt = r) && decide (t.dst = Memory.setList [] 0 dst)
  | _ => false

/-- The outcome is a command's end with this RESULT, whatever DST holds. -/
def endsWithResult (o : Host.Outcome State Fault Refusal) (r : Int) : Bool :=
  match o with
  | .next t => t.done && !t.busy && decide (t.result.toInt = r)
  | _ => false

/-- The outcome is a next state still inside DECODE with this `out_pos` and these DST bytes. -/
def goesOnWith (o : Host.Outcome State Fault Refusal) (outPos : Nat) (dst : List Byte) : Bool :=
  match o with
  | .next t => t.busy && decide (t.eng.outPos = outPos) && decide (t.dst = Memory.setList [] 0 dst)
  | _ => false

/-! ### WellFormed: one ill-formed term per check -/

theorem test_scopy_with_eos_pattern_is_ill_formed : (Instr.scopy 0 0xFF).wellFormed = false := by decide

theorem test_lcopy_with_length_field_zero_is_ill_formed : (Instr.lcopy 5 0).wellFormed = false := by decide

theorem test_illegal_command_with_a_legal_code_is_ill_formed : (Instr.illegalCmd 7).wellFormed = false := by decide

theorem test_distance_zero_is_well_formed_but_not_legal :
    (Instr.lcopy 0x1FFF 1).wellFormed = true ∧ (Instr.lcopy 0x1FFF 1).legal = false := by decide

/-! ### Decoding: words written out from R71, R76 and the vectors T1 to T20 of section 2.4 -/

theorem test_decode_lit : decodeEncoding (.token [0b00000001, 0x41]) = some (.lit 0x41) := by decide

theorem test_decode_scopy : decodeEncoding (.token [0b00001000, 0xFF]) = some (.scopy 0b01 0xFF) := by decide

theorem test_decode_scopy_high_bit_first :
    decodeEncoding (.token [0b00000100, 0xFD]) = some (.scopy 0b10 0xFD) := by decide

theorem test_decode_eos : decodeEncoding (.token [0b00000000, 0xFF]) = some .eos := by decide

theorem test_decode_lcopy : decodeEncoding (.token [0b00000010, 0xED, 0xFF]) = some (.lcopy 0x1FFD 5) := by decide

theorem test_decode_lcopyx :
    decodeEncoding (.token [0b00000010, 0xF0, 0xFF, 0xFE]) = some (.lcopyx 0x1FFE 0xFE) := by decide

theorem test_decode_commands :
    (List.range 9).map (fun k => decodeCommand (BitVec.ofNat 32 k)) =
      [.illegalCmd 0, .compress, .archive, .maxCompressedSize, .decompressBuf, .decompressBuf2, .decompressSize,
       .crypt, .illegalCmd 8] := by decide

/-- F1 and F6: no token where the payload ends early. -/
theorem test_decode_underrun :
    decodeEncoding (.token [0b00000001]) = none ∧ decodeEncoding (.token [0b00000010, 0xF8, 0xFF]) = none := by
  decide

/-- L3-2: a control byte between the two control bits of one token. -/
theorem test_encode_stream_of_every_form :
    encodeStream 26 .little [.lit 0x41, .lit 0x42, .lit 0x43, .scopy 2 0xFD, .lcopy 0x1FFD 6, .lcopyx 0x1FFE 3, .eos] =
      [0x1A, 0, 0, 0, 0x27, 0x41, 0x42, 0x43, 0xFD, 0x05, 0xEE, 0xFF, 0xF0, 0xFF, 0x03, 0xFF] := by decide

/-- T2, T6, T15, T18: the COPY statement's token. -/
theorem test_assemble_copy :
    assemble (.copy 2 1) = some (.lcopy 0x1FFE 1) ∧ assemble (.copy 2 256) = some (.scopy 0 0) ∧
    assemble (.copy 2 8191) = some (.lcopy 0 1) ∧ assemble (.copy 264 8191) = some (.lcopyx 0 0xFF) ∧
    assemble (.copy 265 1) = none := by decide

/-- R170: the last length and distance of the short form, the first past each, and the last plain long length. -/
theorem test_form_selection :
    assemble (.copy 5 256) = some (.scopy 3 0) ∧ assemble (.copy 6 256) = some (.lcopy (0x100 ^^^ 0x1FFF) 5) ∧
    assemble (.copy 5 257) = some (.lcopy (0x101 ^^^ 0x1FFF) 4) ∧ assemble (.copy 8 1) = some (.lcopy 0x1FFE 7) ∧
    assemble (.copy 9 1) = some (.lcopyx 0x1FFE 0) := by decide

/-! ### Tokens -/

/-- R161, example. -/
theorem test_lit : goesOnWith (exec (.lit 0x41) (decodingState 4 [])) 1 [0x41] = true := by decide

/-- F11: a literal that would pass N. -/
theorem test_lit_past_declared_length :
    endsWithResult (exec (.lit 0x41) (decodingState 0 [])) (-3) = true := by decide

/-- R162, example: an overlapping copy. -/
theorem test_scopy : goesOnWith (exec (.scopy 1 0xFF) (decodingState 4 [0x41])) 4 [0x41, 0x41, 0x41, 0x41] = true := by
  decide

/-- F8: a copy that reaches before the output. -/
theorem test_scopy_before_output : endsWithResult (exec (.scopy 0 0) (decodingState 3 [0x41])) (-3) = true := by decide

theorem test_eos : endsWith (exec .eos (decodingState 1 [0x41])) 1 [0x41] = true := by decide

/-- F10: EndOfStream before N bytes. -/
theorem test_eos_too_early : endsWithResult (exec .eos (decodingState 5 [0x41])) (-3) = true := by decide

/-- R164, example: `ED FF`. -/
theorem test_lcopy :
    goesOnWith (exec (.lcopy 0x1FFD 5) (decodingState 8 [0x41, 0x42])) 8
      [0x41, 0x42, 0x41, 0x42, 0x41, 0x42, 0x41, 0x42] = true := by decide

/-- F4: distance 0. -/
theorem test_lcopy_distance_zero : endsWithResult (exec (.lcopy 0x1FFF 7) (decodingState 9 [0x41])) (-3) = true := by
  decide

/-- D5: LCOPYX 9,1. -/
theorem test_lcopyx :
    goesOnWith (exec (.lcopyx 0x1FFE 0) (decodingState 10 [0x41])) 10 (List.replicate 10 0x41) = true := by decide

/-- F5: distance 0. -/
theorem test_lcopyx_distance_zero : endsWithResult (exec (.lcopyx 0x1FFF 0) (decodingState 10 [0x41])) (-3) = true := by
  decide

/-! ### Commands -/

/-- L1-1 (example constants). -/
theorem test_compress :
    endsWith (exec .compress (started [0x41, 0x41, 0x41, 0x41] 10 0 0 false)) 9
      [0x3D, 0x30, 0, 0, 0x6F, 0x57, 0x23, 0xD3, 0x20] = true := by decide

/-- C4: the worst case is needed although the output would fit. -/
theorem test_compress_out_of_memory :
    endsWith (exec .compress (started [0x41, 0x41, 0x41, 0x41] 9 0 0 false)) (-2) [] = true := by decide

/-- L1-1 (example constants). -/
theorem test_archive :
    endsWith (exec .archive (started [0x41, 0x41, 0x41, 0x41] 10 0 0 false)) 10
      [0x3D, 0x30, 0, 0, 0x71, 0x57, 0x9D, 0x92, 0x9E, 0xD8] = true := by decide

/-- C1 for ARCHIVE: AUTO is rejected. -/
theorem test_archive_auto : endsWith (exec .archive (started [0x41] 10 2 0 false)) (-1) [] = true := by decide

/-- S4; S11: above 32 bits. -/
theorem test_max_compressed_size :
    endsWith (exec .maxCompressedSize (started [1, 2, 3, 4] 0 9 0 false)) 10 [] = true ∧
    maxSize 0xFFFFFFFF = 4831838213 := by decide

/-- D2 of section 2.4. -/
theorem test_decompress_buf :
    endsWith (exec .decompressBuf (started [4, 0, 0, 0, 0x11, 0x41, 0xFF, 0, 0xFF] 16 0 0 false)) 4
      [0x41, 0x41, 0x41, 0x41] = true := by decide

/-- L1-1 decrypted (example constants). -/
theorem test_decompress_buf_encrypted :
    endsWith (exec .decompressBuf (started [0x3D, 0x30, 0, 0, 0x6F, 0x57, 0x23, 0xD3, 0x20] 4 0 0 true)) 4
      [0x41, 0x41, 0x41, 0x41] = true := by decide

/-- L3-2 under AUTO: every token form. -/
theorem test_decompress_buf2 :
    endsWith (exec .decompressBuf2 (started
      [0x1A, 0, 0, 0, 0x27, 0x41, 0x42, 0x43, 0xFD, 0x05, 0xEE, 0xFF, 0xF0, 0xFF, 0x03, 0xFF] 26 2 0 false)) 26
      ([0x41, 0x42, 0x43, 0x41, 0x42, 0x43, 0x41, 0x43, 0x41, 0x43, 0x41, 0x43, 0x41, 0x43] ++
        List.replicate 12 0x43) = true := by decide

/-- R9: the capacity fallback of AUTO. -/
theorem test_decompress_buf2_too_small :
    endsWith (exec .decompressBuf2 (started [4, 0, 0, 0, 0x11, 0x41, 0xFF, 0, 0xFF] 3 2 0 false)) (-4) [] = true := by
  decide

/-- R2, R3 of section 2.6: AUTO takes BIG; neither order is plausible. -/
theorem test_decompress_size :
    endsWith (exec .decompressSize (started [0, 0, 0, 4] 0 2 0 false)) 4 [] = true ∧
    endsWith (exec .decompressSize (started [1, 0, 0, 1] 0 2 0 false)) (-3) [] = true := by decide

/-- C8: ENDIAN is checked before the length. -/
theorem test_decompress_size_priority :
    endsWith (exec .decompressSize (started [0, 0] 0 7 0 false)) (-1) [] = true := by decide

/-- K6, K7 (example constants). -/
theorem test_crypt :
    endsWith (exec .crypt (started [1, 2, 3, 4, 5] 5 0 0x12345678 false)) 5 [0x50, 0x93, 0x72, 0x0F, 0xB3] = true ∧
    endsWith (exec .crypt (started [1, 2, 3, 4, 5] 5 1 0x12345678 false)) 5 [0x0A, 0x73, 0x92, 0x55, 0x6A] = true := by
  decide

/-- C15. -/
theorem test_crypt_too_small : endsWith (exec .crypt (started [1, 2, 3, 4, 5] 4 0 0 false)) (-4) [] = true := by decide

/-- C17. -/
theorem test_illegal_command : endsWith (exec (.illegalCmd 8) (started [] 0 0 0 false)) (-1) [] = true := by decide

/-! ### Match Finder -/

/-- M1 and M3. -/
theorem test_find :
    find (fun i => ([0x41, 0x42, 0x58, 0x41, 0x42, 0x59, 0x41, 0x42] : List Byte).getD i 0) 8 6 = .copy 3 2 ∧
    find (fun _ => 0x41) 4 1 = .copy 1 3 := by decide

/-! ### The step, the host and the placing of an instruction -/

/-- The row's bits placed for the next step run as the instruction the decoder reads from them, for a row of each kind:
LIT past a declared length of 0 raises BadFormat, MAX_COMPRESSED_SIZE of length 0 gives 6. -/
theorem test_fetch_word_runs :
    endsWithResult (step (State.reset.withFetchWord 8 1)) (-3) = true ∧
    endsWithResult (step (State.reset.withFetchWord 32 3)) 6 = true ∧
    decodeTableWord 8 1 = some (.lit 0) ∧ decodeTableWord 32 3 = some .maxCompressedSize := by decide

/-- R22: a CMD write starts the command and the engine has not moved yet. -/
theorem test_cmd_write_starts :
    (match step (awaiting (.writeReg 0 3)) with
      | .next t => t.busy && !t.done && decide (t.code = some 3) && decide (statusWord t = 1)
      | _ => false) = true := by decide

/-! ### Witnesses: each statement's hypotheses can be met -/

theorem witness_step_runs_started_command :
    (∃ (s : State) (code : Word), s.busy = true ∧ s.code = some code ∧ s.inputs = []) ∧
    (∃ (s : State) (code : Word), s.busy = true ∧ s.code = some code ∧ s.inputs = .letRun :: [.wait]) ∧
    (∃ (s : State) (code : Word), s.busy = true ∧ s.code = some code ∧ s.inputs = .wait :: [.readReg 0x20] ∧
      s.done = false) :=
  ⟨⟨{ started [] 0 0 0 false with code := some 3 }, 3, by decide⟩,
    ⟨{ started [] 0 0 0 false with code := some 3, inputs := [.letRun, .wait] }, 3, by decide⟩,
    ⟨{ started [] 0 0 0 false with code := some 3, inputs := [.wait, .readReg 0x20] }, 3, by decide⟩⟩

/-- The plain stream `lit 0x41` from offset 4 on. -/
def atLiteral : State :=
  { decodingState 4 [] with
    src := Memory.setList [] 4 [1, 0x41], lat := { Latches.reset with nSrc := 6, cap := 4 }
    eng := { (decodingState 4 []).eng with reader := rStart 4 } }

/-- Is the token at the reader's place this one, with the reader past it there? -/
def atToken (s : State) (t : WireToken) (r : Reader) : Bool :=
  match decodeToken s.plainByte s.eng.reader with
  | .ok p => decide (p = (t, r))
  | .error _ => false

theorem witness_step_runs_decoded_token :
    (∃ s : State, s.busy = true ∧ s.code = none ∧ atToken s (.lit 0x41) ⟨6, 0, 7⟩ = true ∧ s.inputs = []) ∧
    (∃ s : State, s.busy = true ∧ s.code = none ∧ atToken s (.lit 0x41) ⟨6, 0, 7⟩ = true ∧
      s.inputs = .letRun :: [.wait]) ∧
    (∃ s : State, s.busy = true ∧ s.code = none ∧ atToken s (.lit 0x41) ⟨6, 0, 7⟩ = true ∧
      s.inputs = .wait :: [.readReg 0x20] ∧ s.done = false) :=
  ⟨⟨atLiteral, by decide⟩, ⟨{ atLiteral with inputs := [.letRun, .wait] }, by decide⟩,
    ⟨{ atLiteral with inputs := [.wait, .readReg 0x20] }, by decide⟩⟩

theorem witness_step_at_underrun :
    ∃ (s : State) (e : DecodeError), s.inputs = [] ∧ s.busy = true ∧ s.code = none ∧
      (match decodeToken s.plainByte s.eng.reader with
        | .ok _ => false
        | .error e' => decide (e' = e)) = true :=
  ⟨decodingState 4 [], .controlUnderrun, by decide⟩

theorem witness_idle_step : ∃ s : State, s.inputs = [] ∧ s.busy = false := ⟨State.reset, by decide⟩

theorem witness_wait_done : ∃ (s : State) (rest : List HostOp), s.inputs = .wait :: rest ∧ s.done = true :=
  ⟨{ awaiting .wait with done := true }, [], by decide⟩

theorem witness_wait_busy :
    ∃ (s : State) (rest : List HostOp), s.inputs = .wait :: rest ∧ s.done = false ∧ s.busy = true :=
  ⟨{ awaiting .wait with busy := true }, [], by decide⟩

theorem witness_wait_idle :
    ∃ (s : State) (rest : List HostOp), s.inputs = .wait :: rest ∧ s.done = false ∧ s.busy = false :=
  ⟨awaiting .wait, [], by decide⟩

theorem witness_let_run : ∃ (s : State) (rest : List HostOp), s.inputs = .letRun :: rest :=
  ⟨awaiting .letRun, [], by decide⟩

theorem witness_cmd_write :
    ∃ (s : State) (code : Word) (rest : List HostOp), s.inputs = .writeReg 0 code :: rest ∧ s.busy = false :=
  ⟨awaiting (.writeReg 0 3), 3, [], by decide⟩

theorem witness_register_write :
    ∃ (s : State) (o : Nat) (v : Word) (rest : List HostOp), s.inputs = .writeReg o v :: rest :=
  ⟨awaiting (.writeReg 0x04 2), 0x04, 2, [], by decide⟩

theorem witness_register_write_while_busy : ∃ s : State, s.busy = true := ⟨started [] 0 0 0 false, by decide⟩

theorem witness_read_register : ∃ (s : State) (o : Nat) (rest : List HostOp), s.inputs = .readReg o :: rest :=
  ⟨awaiting (.readReg 0x18), 0x18, [], by decide⟩

theorem witness_reserved_offset :
    (0x1C : Nat) ∉ [0x00, 0x04, 0x08, 0x0C, 0x10, 0x14] ∧
    (0x28 : Nat) ∉ [0x04, 0x08, 0x0C, 0x10, 0x14, 0x18, 0x20, 0x24] := by decide

theorem witness_buffer_access_while_busy :
    ∃ (s : State) (o : Nat) (rest : List HostOp), s.inputs = .readSrc o :: rest ∧ s.busy = true :=
  ⟨{ awaiting (.readSrc 0) with busy := true }, 0, [], by decide⟩

/-- At the last offset a buffer has. -/
theorem witness_buffer_write_while_idle :
    ∃ (s : State) (o : Nat) (bytes : List Byte) (rest : List HostOp),
      s.inputs = .writeSrc o bytes :: rest ∧ s.busy = false ∧ o + bytes.length ≤ 0xFFFFFFFF :=
  ⟨awaiting (.writeSrc 0xFFFFFFFE [7]), 0xFFFFFFFE, [7], [], by decide⟩

theorem witness_dst_write_while_idle :
    ∃ (s : State) (o : Nat) (bytes : List Byte) (rest : List HostOp),
      s.inputs = .writeDst o bytes :: rest ∧ s.busy = false ∧ o + bytes.length ≤ 0xFFFFFFFF :=
  ⟨awaiting (.writeDst 0 [7]), 0, [7], [], by decide⟩

theorem witness_buffer_write_outside :
    ∃ (s : State) (o : Nat) (bytes : List Byte) (rest : List HostOp),
      s.inputs = .writeDst o bytes :: rest ∧ s.busy = false ∧ 0xFFFFFFFF < o + bytes.length :=
  ⟨awaiting (.writeDst 0xFFFFFFFF [7]), 0xFFFFFFFF, [7], [], by decide⟩

/-- At the last offset a buffer has. -/
theorem witness_buffer_read_while_idle :
    (∃ (s : State) (o : Nat) (rest : List HostOp), s.inputs = .readSrc o :: rest ∧ s.busy = false ∧ o < 0xFFFFFFFF) ∧
    (∃ (s : State) (o : Nat) (rest : List HostOp), s.inputs = .readDst o :: rest ∧ s.busy = false ∧ o < 0xFFFFFFFF) :=
  ⟨⟨awaiting (.readSrc 0xFFFFFFFE), 0xFFFFFFFE, [], by decide⟩, ⟨awaiting (.readDst 0), 0, [], by decide⟩⟩

/-- At the first offset no buffer has. -/
theorem witness_buffer_read_outside :
    (∃ (s : State) (o : Nat) (rest : List HostOp), s.inputs = .readSrc o :: rest ∧ s.busy = false ∧ 0xFFFFFFFF ≤ o) ∧
    (∃ (s : State) (o : Nat) (rest : List HostOp), s.inputs = .readDst o :: rest ∧ s.busy = false ∧ 0xFFFFFFFF ≤ o) :=
  ⟨⟨awaiting (.readSrc 0xFFFFFFFF), 0xFFFFFFFF, [], by decide⟩,
    ⟨awaiting (.readDst 0xFFFFFFFF), 0xFFFFFFFF, [], by decide⟩⟩

theorem witness_place : ∃ (s : State) (a b : Nat) (rest : List HostOp),
    s.inputs = .place a b :: rest ∧ s.busy = false := ⟨awaiting (.place 1 2), 1, 2, [], by decide⟩

theorem witness_overlap :
    ∃ (s : State) (x : Nat), (s.srcBase ≤ x ∧ x < s.srcBase + s.nSrc) ∧ (s.dstBase ≤ x ∧ x < s.dstBase + s.cap) :=
  ⟨{ started [1, 2] 4 0 0 false with dstBase := 1 }, 1, by decide⟩

theorem witness_reset_while_busy :
    ∃ (s : State) (rest : List HostOp), s.inputs = .reset :: rest ∧ s.busy = true ∧ runsOverlapped s = false ∧
      writeExtent s = 4 :=
  ⟨{ started [4, 0, 0, 0, 0x11, 0x41, 0xFF, 0, 0xFF] 16 0 0 false with inputs := [.reset], code := some 4 }, [],
    by decide⟩

theorem witness_engine_moves :
    ∃ s : State, s.busy = true ∧ s.inputs = [] ∧ endsWithResult (step s) 5 = true :=
  ⟨{ started [1, 2, 3, 4, 5] 5 0 0 false with code := some 7 }, by decide⟩

theorem witness_plaintext_header :
    ∃ (s : State) (b0 b1 b2 b3 : Byte), (setStream .little 0 s).plainByte 0 = some b0 ∧
      (setStream .little 0 s).plainByte 1 = some b1 ∧ (setStream .little 0 s).plainByte 2 = some b2 ∧
      (setStream .little 0 s).plainByte 3 = some b3 :=
  ⟨started [0x3D, 0x30, 0, 0] 0 0 0 true, 4, 0, 0, 0, by decide⟩

theorem witness_packed_stream :
    ∃ (items : List ChannelItem) (P : Nat → Option Byte),
      items.length = 2 ∧ ∀ i, i < (pack 8 items).length → P (0 + i) = (pack 8 items)[i]? :=
  ⟨[.bit true, .byte 0x41], listStream [1, 0x41], by decide⟩

theorem witness_read_past_end : ∃ (s : State) (r : Reader), s.nSrc ≤ r.inPos ∧ r.bitsLeft = 0 :=
  ⟨State.reset, rStart 0, by decide⟩

theorem witness_read_inside : ∃ (s : State) (r : Reader), r.inPos < s.nSrc ∧ r.bitsLeft = 0 :=
  ⟨started [1] 0 0 0 false, rStart 0, by decide⟩

theorem witness_well_formed :
    (Instr.lcopyx 0x1FFF 0xFF).wellFormed = true ∧ (Instr.illegalCmd 0xFFFFFFFF).wellFormed = true := by decide

theorem witness_proper_tokens : properTokens [.lit 0x41, .scopy 3 0, .lcopy 0 7, .lcopyx 0x1FFE 0xFF] := by
  unfold properTokens
  decide

theorem witness_legal :
    (Instr.scopy 0 0).legal = true ∧ (Instr.lcopy 0x1FFE 1).legal = true ∧ (Instr.lcopyx 0 0xFF).legal = true := by
  decide

theorem witness_literal_fits : ∃ s : State, s.eng.outPos < s.declared ∧ s.declared ≤ s.cap :=
  ⟨decodingState 1 [], by decide⟩

theorem witness_literal_too_late : ∃ s : State, s.declared ≤ s.eng.outPos := ⟨decodingState 1 [0x41], by decide⟩

/-- Each format, a well-formed term of it, at a distance equal to the whole output and a length that just reaches the
declared length. -/
theorem witness_copies_fit :
    (∃ s : State, (Instr.scopy 1 0xFF).wellFormed = true ∧ 256 - (0xFF : Byte).toNat = s.eng.outPos ∧
      s.eng.outPos + ((1 : BitVec 2).toNat + 2) = s.declared ∧ s.declared ≤ s.cap) ∧
    (∃ s : State, (Instr.lcopy 0x1FFE 7).wellFormed = true ∧
      1 ≤ ((0x1FFE : BitVec 13) ^^^ 0x1FFF#13).toNat ∧ ((0x1FFE : BitVec 13) ^^^ 0x1FFF#13).toNat = s.eng.outPos ∧
      s.eng.outPos + ((7 : BitVec 3).toNat + 1) = s.declared ∧ s.declared ≤ s.cap) ∧
    (∃ s : State, (Instr.lcopyx 0x1FFE 0xFF).wellFormed = true ∧
      1 ≤ ((0x1FFE : BitVec 13) ^^^ 0x1FFF#13).toNat ∧ ((0x1FFE : BitVec 13) ^^^ 0x1FFF#13).toNat = s.eng.outPos ∧
      s.eng.outPos + ((0xFF : Byte).toNat + 9) = s.declared ∧ s.declared ≤ s.cap) :=
  ⟨⟨decodingState 4 [0x41], by decide⟩, ⟨decodingState 9 [0x41], by decide⟩, ⟨decodingState 265 [0x41], by decide⟩⟩

/-- Distance 0, a reach before the output, a passing of the declared length, each by a well-formed term. -/
theorem witness_copies_illegal :
    ((Instr.lcopy 0x1FFF 1).wellFormed = true ∧ ((0x1FFF : BitVec 13) ^^^ 0x1FFF#13).toNat = 0) ∧
    (∃ s : State, (Instr.scopy 0 0).wellFormed = true ∧ s.eng.outPos < 256 - (0 : Byte).toNat) ∧
    (∃ s : State, (Instr.scopy 3 0xFF).wellFormed = true ∧ 256 - (0xFF : Byte).toNat ≤ s.eng.outPos ∧
      s.declared < s.eng.outPos + ((3 : BitVec 2).toNat + 2)) :=
  ⟨by decide, ⟨decodingState 300 [0x41], by decide⟩, ⟨decodingState 5 [0x41], by decide⟩⟩

theorem witness_eos :
    (∃ s : State, s.eng.outPos = s.declared) ∧ (∃ s : State, s.eng.outPos ≠ s.declared) :=
  ⟨⟨decodingState 0 [], by decide⟩, ⟨decodingState 1 [], by decide⟩⟩

/-- The limits of MATCH_LEN are reached and missed. -/
theorem witness_match_len :
    matchLen (fun _ => 0x41) 300 1 1 = 264 ∧ matchLen (fun i => if i = 2 then 0x42 else 0x41) 4 1 1 = 1 := by decide +kernel

theorem witness_find_both_ways :
    find (fun _ => 0x41) 3 1 = .copy 1 2 ∧ find (fun i => BitVec.ofNat 8 i) 4 2 = .literal 2 := by decide

theorem witness_parse_goes_on :
    (0 : Nat) < 3 ∧ decisions find (fun _ => 0x41) 3 3 0 = [.literal 0x41, .copy 1 2] := by decide

theorem witness_copy_range :
    (1 ≤ 8191 ∧ 8191 ≤ 8191 ∧ 2 ≤ 264 ∧ 264 ≤ 264) ∧ assemble (.copy 264 8191) = some (.lcopyx 0 0xFF) := by decide

theorem witness_endian_outside_domain : ∃ s : State, s.overlapping = false ∧ 2 < s.lat.eIn.toNat :=
  ⟨started [1, 2, 3, 4] 4 3 0 false, by decide⟩

theorem witness_endian_auto : ∃ s : State, s.overlapping = false ∧ s.lat.eIn = 2 :=
  ⟨started [1, 2, 3, 4] 4 2 0 false, by decide⟩

/-- `MAX_LEN` of 2 is passed, and a capacity one below MAX_SIZE. -/
theorem witness_compression_checks :
    (∃ s : State, s.overlapping = false ∧ s.lat.eIn.toNat < 2 ∧ s.params.maxLen < s.nSrc) ∧
    (∃ s : State, s.overlapping = false ∧ s.lat.eIn.toNat < 2 ∧ s.nSrc ≤ s.params.maxLen ∧ s.cap < maxSize s.nSrc) :=
  ⟨⟨{ started [1, 2, 3] 100 0 0 false with params := ⟨0, 0, 2⟩ }, by decide⟩, ⟨started [1, 2, 3, 4] 9 1 0 false, by decide⟩⟩

theorem witness_compression_completes :
    ∃ s : State, s.overlapping = false ∧ s.lat.eIn.toNat < 2 ∧ s.nSrc ≤ s.params.maxLen ∧ maxSize s.nSrc ≤ s.cap :=
  ⟨started [1, 2, 3, 4] 10 1 0 false, by decide⟩

theorem witness_crypt :
    (∃ s : State, s.overlapping = false ∧ endianOf s.lat.eIn = some (some .big) ∧ s.nSrc ≤ s.cap) ∧
    (∃ s : State, s.overlapping = false ∧ endianOf s.lat.eIn = some (some .little) ∧ s.cap < s.nSrc) :=
  ⟨⟨started [1, 2] 2 1 0 false, by decide⟩, ⟨started [1, 2] 1 0 0 false, by decide⟩⟩

theorem witness_decompression_checks :
    (∃ s : State, s.overlapping = false ∧ s.lat.eIn.toNat ≤ 2 ∧ s.nSrc = 0) ∧
    (∃ s : State, s.overlapping = false ∧ s.lat.eIn.toNat ≤ 2 ∧ 1 ≤ s.nSrc ∧ s.nSrc < 4) ∧
    (∃ s : State, s.overlapping = false ∧ 4 ≤ s.nSrc ∧ endianOf s.lat.eIn = some (some .little) ∧
      s.params.maxLen < (hdrCandidate .little s).toNat) ∧
    (∃ s : State, s.overlapping = false ∧ 4 ≤ s.nSrc ∧ endianOf s.lat.eIn = some (some .little) ∧
      (hdrCandidate .little s).toNat ≤ s.params.maxLen ∧ s.cap < (hdrCandidate .little s).toNat) :=
  ⟨⟨started [] 4 2 0 false, by decide⟩, ⟨started [1, 2, 3] 4 0 0 false, by decide⟩,
    ⟨started [0xFF, 0xFF, 0xFF, 0xFF] 4 0 0 false, by decide⟩, ⟨started [4, 0, 0, 0] 3 0 0 false, by decide⟩⟩

/-- DPREP answers both ways. -/
theorem witness_dprep :
    (∃ s : State, (match dprep none s with
      | .ok p => decide (p = (ByteOrder.little, 4))
      | .error _ => false) = true) ∧
    (∃ s : State, (match dprep none s with
      | .ok _ => false
      | .error k => decide (k = ErrKind.badFormat)) = true) :=
  ⟨⟨started [4, 0, 0, 0] 4 0 0 false, by decide⟩, ⟨started [1] 4 0 0 false, by decide⟩⟩

/-- Two sources that agree on the header and differ after it. -/
theorem witness_same_header :
    ∃ (s : State) (m : Memory), m ≠ s.src ∧ ∀ i, i < 4 → m.get i = s.src.get i :=
  ⟨started [4, 0, 0, 0, 1] 4 0 0 false, Memory.setList [] 0 [4, 0, 0, 0, 2], by decide⟩

theorem witness_auto :
    (∃ s : State, resolve none s = some (.little, 4)) ∧
    (∃ s : State, (hdrCandidate .big s).toNat ≤ s.params.maxLen) ∧
    (∃ s : State, (hdrCandidate .little s).toNat ≤ s.params.maxLen ∧ (hdrCandidate .little s).toNat ≤ 300) :=
  ⟨⟨started [4, 0, 0, 0] 4 2 0 false, by decide⟩, ⟨started [0, 1, 0, 0] 4 2 0 false, by decide⟩,
    ⟨started [0, 1, 0, 0] 300 2 0 false, by decide⟩⟩

/-- The capacity fallback, both candidates within MAX_LEN and above the capacity, and LITTLE alone within MAX_LEN. -/
theorem witness_auto_fallback :
    (∃ s : State, 3 < (hdrCandidate .big s).toNat ∧ 3 < (hdrCandidate .little s).toNat ∧
      (hdrCandidate .big s).toNat ≤ s.params.maxLen ∧ (hdrCandidate .little s).toNat ≤ s.params.maxLen) ∧
    (∃ s : State, s.params.maxLen < (hdrCandidate .big s).toNat ∧
      (hdrCandidate .little s).toNat ≤ s.params.maxLen) :=
  ⟨⟨started [0, 1, 1, 0] 3 2 0 false, by decide⟩, ⟨started [4, 0, 0, 0] 3 2 0 false, by decide⟩⟩

/-- Under AUTO: an order found and none, a length just above `cap` with and without the capacity, the fallback. -/
theorem witness_auto_decompression :
    (∃ s : State, s.overlapping = false ∧ s.lat.eIn = 2 ∧ 4 ≤ s.nSrc ∧ s.cap < (4 : Word).toNat ∧
      resolve none s = some (.little, 4) ∧ resolve (some s.cap) s = some (.little, 4)) ∧
    (∃ s : State, s.overlapping = false ∧ s.lat.eIn = 2 ∧ 4 ≤ s.nSrc ∧ s.cap < (hdrCandidate .big s).toNat ∧
      s.cap < (hdrCandidate .little s).toNat ∧ (hdrCandidate .big s).toNat ≤ s.params.maxLen) ∧
    (∃ s : State, s.overlapping = false ∧ s.lat.eIn = 2 ∧ 4 ≤ s.nSrc ∧ resolve none s = none ∧
      s.params.maxLen < (hdrCandidate .big s).toNat ∧ s.params.maxLen < (hdrCandidate .little s).toNat) :=
  ⟨⟨started [4, 0, 0, 0] 3 2 0 false, by decide⟩, ⟨started [0, 1, 1, 0] 3 2 0 false, by decide⟩,
    ⟨started [1, 0, 0, 1] 3 2 0 false, by decide⟩⟩

/-- D3 with two bytes after EndOfStream: every hypothesis of the decoding statement. -/
theorem witness_well_formed_stream :
    ∃ (s : State) (ts : List WireToken) (trailing out : List Byte),
      (match decompressPrep none .outOfMemory s with
        | .ok p => decide (p = (ByteOrder.little, 3))
        | .error _ => false) = true ∧
      s.overlapping = false ∧ (∀ t ∈ ts, t.toInstr.wellFormed = true ∧ t ≠ .eos) ∧ replay ts = some out ∧
      out.length = (3 : Word).toNat ∧
      ∀ j, (setStream .little 3 s).plainByte (4 + j) = (encodeTokens (ts ++ [.eos]) ++ trailing)[j]? := by
  refine ⟨started [3, 0, 0, 0, 5, 0x41, 0xF1, 0xFF, 0xFF, 0x12, 0x34] 3 0 0 false, [.lit 0x41, .lcopy 0x1FFE 1],
    [0x12, 0x34], [0x41, 0x41, 0x41], by decide, by decide, by decide, by decide, by decide, ?_⟩
  intro j
  by_cases h : j < 7
  · have small : ∀ k, k < 7 → (setStream .little 3 (started [3, 0, 0, 0, 5, 0x41, 0xF1, 0xFF, 0xFF, 0x12, 0x34]
        3 0 0 false)).plainByte (4 + k) = (encodeTokens ([.lit 0x41, .lcopy 0x1FFE 1] ++ [.eos]) ++ [0x12, 0x34])[k]? := by
      decide
    exact small j h
  · have hp : (setStream .little 3 (started [3, 0, 0, 0, 5, 0x41, 0xF1, 0xFF, 0xFF, 0x12, 0x34] 3 0 0 false)).nSrc = 11 := by
      decide
    have hl : (encodeTokens (([.lit 0x41, .lcopy 0x1FFE 1] : List WireToken) ++ [WireToken.eos]) ++ [0x12, 0x34]).length = 7 := by decide
    rw [State.plainByte, hp, if_neg (by omega), List.getElem?_eq_none (by omega)]

theorem witness_same_stream_buf2 :
    ∃ s : State, s.inputs = [] ∧ s.overlapping = false ∧ endsWithResult (exec .decompressBuf2 s) 3 = true ∧
      (match decompressPrep (some s.cap) .bufferTooSmall s with
        | .ok p => decide (p = (ByteOrder.little, 3))
        | .error _ => false) = true :=
  ⟨started [3, 0, 0, 0, 5, 0x41, 0xF1, 0xFF, 0xFF] 3 0 0 false, by decide⟩

theorem witness_not_overlapping : ∃ s : State, s.overlapping = false ∧ 0 < s.nSrc ∧ 0 < s.cap :=
  ⟨started [1] 1 0 0 false, by decide⟩

/-- A compressed source and a state that holds its output as SRC. -/
theorem witness_round_trip :
    ∃ s u : State, endsWith (exec .compress s) 9 [0x3D, 0x30, 0, 0, 0x6F, 0x57, 0x23, 0xD3, 0x20] = true ∧
      u.params = s.params ∧ u.overlapping = false ∧ u.lat.eIn = 0 ∧ u.lat.keyEn = true ∧ u.lat.key = s.lat.key ∧
      u.nSrc = 9 ∧ s.nSrc ≤ u.cap ∧
      u.src = Memory.setList [] 0 [0x3D, 0x30, 0, 0, 0x6F, 0x57, 0x23, 0xD3, 0x20] :=
  ⟨started [0x41, 0x41, 0x41, 0x41] 10 0 0 false,
    started [0x3D, 0x30, 0, 0, 0x6F, 0x57, 0x23, 0xD3, 0x20] 4 0 0 true, by decide⟩

theorem witness_size_prediction :
    ∃ s : State, endsWithResult (exec .decompressBuf s) 4 = true ∧ s.inputs = [] ∧ s.overlapping = false :=
  ⟨started [4, 0, 0, 0, 0x11, 0x41, 0xFF, 0, 0xFF] 16 0 0 false, by decide⟩

/-- Two states that agree on a command's operands and differ in what an earlier command left. -/
theorem witness_same_operands :
    ∃ s s' : State, s ≠ s' ∧ s'.lat = s.lat ∧ s'.src = s.src ∧ s'.params = s.params ∧ s'.srcBase = s.srcBase ∧
      s'.dstBase = s.dstBase ∧ isCommand .crypt = true ∧ endsWithResult (exec .crypt s) 2 = true :=
  ⟨started [1, 2] 2 0 0 false, { started [1, 2] 2 0 0 false with dst := [(0, 9)], result := 5, freeCount := 3 }, by decide⟩

theorem witness_invariant_inside_decode :
    ∃ s : State, Inv s ∧ s.busy = true ∧ s.code = none ∧ 0 < s.eng.outPos :=
  ⟨decodingState 4 [0x41], ⟨by decide, by decide, by decide, by decide, by decide, by decide, by decide, by decide,
    by decide⟩, by decide, by decide, by decide⟩

/-- An idle state whose host reads past every buffer. -/
def readsOutside : State := awaiting (.readDst 0xFFFFFFFF)

/-- A BUSY state whose host reads DST. -/
def readsWhileBusy : State := { awaiting (.readDst 0) with busy := true }

/-- A CRYPT started over buffers that share the address 1. -/
def cryptOverlapped : State := { started [1, 2] 2 0 0 false with code := some 7, dstBase := 1 }

/-- Each stop the last statement allows does occur, in a state with the invariant. -/
theorem witness_stops :
    (Inv readsOutside ∧ (match step readsOutside with
      | .fault f => decide (f = .noSuchOffset)
      | _ => false) = true) ∧
    (Inv readsWhileBusy ∧ (match step readsWhileBusy with
      | .refused r => decide (r = .bufferAccessWhileBusy)
      | _ => false) = true) ∧
    (Inv cryptOverlapped ∧ (match step cryptOverlapped with
      | .refused r => decide (r = .buffersOverlap)
      | _ => false) = true) :=
  ⟨⟨⟨by decide, by decide, by decide, by decide, by decide, by decide, by decide, by decide, by decide⟩, by decide⟩,
    ⟨⟨by decide, by decide, by decide, by decide, by decide, by decide, by decide, by decide, by decide⟩, by decide⟩,
    ⟨⟨by decide, by decide, by decide, by decide, by decide, by decide, by decide, by decide, by decide⟩, by decide⟩⟩

end Sys2Proof.Tests
end

section
/-! SUPPORT. The byte order helpers are inverse to each other, and the header candidate of R202 is the header of the
plaintext view (O16). -/

namespace Sys2Proof

/-- The bytes of a concatenation, from the low end up. -/
theorem extract_concat (x3 x2 x1 x0 : Byte) :
    (x3 ++ x2 ++ x1 ++ x0).extractLsb' 0 8 = x0 ∧ (x3 ++ x2 ++ x1 ++ x0).extractLsb' 8 8 = x1 ∧
    (x3 ++ x2 ++ x1 ++ x0).extractLsb' 16 8 = x2 ∧ (x3 ++ x2 ++ x1 ++ x0).extractLsb' 24 8 = x3 := by
  have above {v w start len : Nat} {x : BitVec v} {y : BitVec w} (h : w ≤ start) :
      (x ++ y).extractLsb' start len = x.extractLsb' (start - w) len := BitVec.extractLsb'_append_eq_of_le h
  refine ⟨BitVec.extractLsb'_append_eq_right, ?_, ?_, ?_⟩
  · exact (above (by decide)).trans BitVec.extractLsb'_append_eq_right
  · exact (above (by decide)).trans ((above (by decide)).trans BitVec.extractLsb'_append_eq_right)
  · exact (above (by decide)).trans ((above (by decide)).trans BitVec.extractLsb'_append_eq_left)

/-- A word is the concatenation of its four bytes. -/
theorem concat_extract (w : BitVec (8 + 8 + 8 + 8)) :
    w.extractLsb' 24 8 ++ w.extractLsb' 16 8 ++ w.extractLsb' 8 8 ++ w.extractLsb' 0 8 = w := by
  rw [BitVec.extractLsb'_append_extractLsb'_eq_extractLsb' (show 24 = 16 + 8 from rfl),
    BitVec.extractLsb'_append_extractLsb'_eq_extractLsb' (show 16 = 8 + 8 from rfl),
    BitVec.extractLsb'_append_extractLsb'_eq_extractLsb' (show 8 = 0 + 8 from rfl), BitVec.extractLsb'_eq_self]

theorem concat_xor (x3 x2 x1 x0 y3 y2 y1 y0 : Byte) :
    (x3 ^^^ y3) ++ (x2 ^^^ y2) ++ (x1 ^^^ y1) ++ (x0 ^^^ y0) =
      (x3 ++ x2 ++ x1 ++ x0) ^^^ (y3 ++ y2 ++ y1 ++ y0) := by
  simp only [BitVec.xor_append]

/-- `ser_E` gives back the bytes `par_E` read (R10). -/
theorem ser_par (e : ByteOrder) (b0 b1 b2 b3 : Byte) : ser e (par e b0 b1 b2 b3) = [b0, b1, b2, b3] := by
  cases e with
  | little =>
    obtain ⟨h0, h1, h2, h3⟩ := extract_concat b3 b2 b1 b0
    simp only [ser, par, List.cons.injEq, and_true]
    exact ⟨h0, h1, h2, h3⟩
  | big =>
    obtain ⟨h3, h2, h1, h0⟩ := extract_concat b0 b1 b2 b3
    simp only [ser, par, List.cons.injEq, and_true]
    exact ⟨h0, h1, h2, h3⟩

/-- `par_E` reads back what `ser_E` wrote (R10). -/
theorem par_getD_ser (e : ByteOrder) (w : Word) :
    par e ((ser e w).getD 0 0) ((ser e w).getD 1 0) ((ser e w).getD 2 0) ((ser e w).getD 3 0) = w := by
  cases e with
  | little => exact concat_extract w
  | big => exact concat_extract w

theorem par_xor (e : ByteOrder) (a0 a1 a2 a3 k0 k1 k2 k3 : Byte) :
    par e (a0 ^^^ k0) (a1 ^^^ k1) (a2 ^^^ k2) (a3 ^^^ k3) = par e a0 a1 a2 a3 ^^^ par e k0 k1 k2 k3 := by
  cases e with
  | little => exact concat_xor ..
  | big => exact concat_xor ..

end Sys2Proof

namespace Sys2Proof.Machine

/-- A defined byte of the plaintext view is the SRC byte, decrypted when `enc` is set (R127). -/
theorem plainByte_some {s : State} {i : Nat} {b : Byte} (h : s.plainByte i = some b) :
    b = s.srcByte i ^^^ (if s.eng.enc then ksByte s.params s.lat.key s.eng.e i else 0) := by
  unfold State.plainByte at h
  split at h
  · exact (Option.some.inj h).symm
  · cases h

/-- Under `setStream e n`, bytes 0 to 3 of the plaintext view are decrypted with the first keystream word. -/
theorem plainByte_setStream_header {e : ByteOrder} {n : Word} {s : State} {i : Nat} {b : Byte} (hi : i < 4)
    (h : (setStream e n s).plainByte i = some b) :
    b = s.srcByte i ^^^ (if s.lat.keyEn then (ser e (ksWord s.params s.lat.key 0)).getD i 0 else 0) := by
  have hb := plainByte_some h
  rw [ksByte, Nat.div_eq_of_lt hi, Nat.mod_eq_of_lt hi] at hb
  exact hb

/-- XOR passes through `par_E` byte by byte, so decrypting the four bytes is decrypting the word (R202, R221). -/
theorem hdrCandidate_eq_par_plain (e : ByteOrder) (n : Word) (s : State) (b0 b1 b2 b3 : Byte)
    (h0 : (setStream e n s).plainByte 0 = some b0) (h1 : (setStream e n s).plainByte 1 = some b1)
    (h2 : (setStream e n s).plainByte 2 = some b2) (h3 : (setStream e n s).plainByte 3 = some b3) :
    hdrCandidate e s = par e b0 b1 b2 b3 := by
  rw [plainByte_setStream_header (by decide) h0, plainByte_setStream_header (by decide) h1,
    plainByte_setStream_header (by decide) h2, plainByte_setStream_header (by decide) h3]
  unfold hdrCandidate
  cases s.lat.keyEn with
  | true => simp only [if_true, par_xor, par_getD_ser]
  | false => simp

/-- Settles O16: `par_E` of the plaintext bytes is `par_E` of the SRC bytes XOR the first keystream word. -/
theorem headerCandidateIsPlaintextHeader : Obligations.HeaderCandidateIsPlaintextHeader :=
  ⟨ser_par, hdrCandidate_eq_par_plain⟩

end Sys2Proof.Machine
end

section
/-! SUPPORT. What no instruction changes: SRC, the operand registers, the placement, the parameters and the host's own
fields (O51). -/

namespace Sys2Proof.Machine

/-- `t` is `s` but for what an instruction may change: STATUS, RESULT, the waiting code, DST, the latches, the internal
registers and the count of free values. -/
def HostSideKept (s t : State) : Prop :=
  t = { s with
    busy := t.busy, done := t.done, result := t.result, code := t.code
    dst := t.dst, lat := t.lat, eng := t.eng, freeCount := t.freeCount }

theorem HostSideKept.trans {s t u : State} (h : HostSideKept s t) (k : HostSideKept t u) : HostSideKept s u := by
  unfold HostSideKept at *
  rw [k, h]

theorem Worked.hostSideKept {s t : State} (h : Worked s t) : HostSideKept s t := by
  unfold Worked at h; rw [h]; rfl

theorem Ended.hostSideKept {r : ResultWord} {s t : State} (h : Ended r s t) : HostSideKept s t := by
  unfold Ended at h; rw [h]; rfl

theorem Appended.hostSideKept {s t : State} (h : Appended s t) : HostSideKept s t := by
  obtain ⟨-, -, -, ht, -⟩ := h
  rw [ht]; rfl

theorem hostSideKept_raiseError (k : ErrKind) (s : State) : HostSideKept s (raiseError k s) := rfl
theorem hostSideKept_raiseInDecode (s : State) : HostSideKept s (raiseInDecode s) := rfl
theorem hostSideKept_finish (v : Nat) (s : State) : HostSideKept s (finish v s) := rfl
theorem hostSideKept_enterDecode (s : State) : HostSideKept s (enterDecode s) := rfl
theorem hostSideKept_setReader (r : Reader) (s : State) :
    HostSideKept s { s with eng := { s.eng with reader := r } } := rfl

theorem hostSideKept_execWire {w : WireToken} {s t : State} (h : execWire w s = .next t) : HostSideKept s t := by
  obtain ⟨u, hu, ha⟩ | ⟨hu, -⟩ | hu | ⟨hu, -⟩ := execWire_cases w s <;> rw [hu] at h <;> cases h
  · exact ha.hostSideKept
  · exact hostSideKept_finish _ s
  · exact hostSideKept_raiseInDecode s

theorem hostSideKept_tokenStep {s t : State} (h : tokenStep s = .next t) : HostSideKept s t := by
  obtain ⟨r, u, hu, ha, -⟩ | ⟨r, hu, -⟩ | ⟨r, hu⟩ | ⟨hu, -⟩ := tokenStep_cases s <;> rw [hu] at h <;> cases h
  · exact (hostSideKept_setReader r s).trans ha.hostSideKept
  · exact (hostSideKept_setReader r s).trans (hostSideKept_finish _ _)
  · exact (hostSideKept_setReader r s).trans (hostSideKept_raiseInDecode _)

theorem hostSideKept_decodeLoop {fuel : Nat} {s t : State} (h : decodeLoop fuel s = .next t) : HostSideKept s t := by
  induction fuel generalizing s with
  | zero => cases h; rfl
  | succ fuel ih =>
    unfold decodeLoop at h
    split at h
    · split at h
      · rename_i u hu
        exact (hostSideKept_tokenStep hu).trans (ih h)
      · cases h
      · cases h
    · cases h; rfl

theorem hostSideKept_decode {s t : State} (h : decode s = .next t) : HostSideKept s t :=
  (hostSideKept_enterDecode s).trans (hostSideKept_decodeLoop h)

theorem hostSideKept_compressWith {finder : (Nat → Byte) → Nat → Nat → Decision} {s t : State}
    (h : compressWith finder s = .next t) : HostSideKept s t := by
  obtain ⟨hu, -⟩ | ⟨k, -, hu⟩ | ⟨-, -, hu⟩ := compressWith_cases finder s <;> rw [hu] at h <;> cases h
  · exact hostSideKept_raiseError k s
  · exact (ended_encryptAndFinish (worked_writeStream finder _ s)).hostSideKept

theorem hostSideKept_decompressWith {c : Option Nat} {small : ErrKind} {s t : State}
    (h : decompressWith c small s = .next t) : HostSideKept s t := by
  obtain ⟨hu, -⟩ | ⟨k, -, hu⟩ | ⟨e, n, -, -, hu⟩ := decompressWith_cases c small s <;> rw [hu] at h
  · cases h
  · cases h
    exact hostSideKept_raiseError k s
  · exact (worked_setStream e n s).hostSideKept.trans (hostSideKept_decode h)

theorem hostSideKept_execDecompressSize {s t : State} (h : execDecompressSize s = .next t) : HostSideKept s t := by
  unfold execDecompressSize at h
  split at h <;> cases h
  · exact hostSideKept_raiseError _ s
  · exact hostSideKept_finish _ s

theorem hostSideKept_execCrypt {s t : State} (h : execCrypt s = .next t) : HostSideKept s t := by
  obtain ⟨hu, -⟩ | ⟨k, -, hu⟩ | ⟨e, -, -, hu⟩ := execCrypt_cases s <;> rw [hu] at h <;> cases h
  · exact hostSideKept_raiseError k s
  · exact (ended_finish ((worked_copySrc _ _ s).trans (worked_ksXor _ _ _ _)) _).hostSideKept

/-- No instruction of the table changes the host's side of the state. -/
theorem hostSideKept_exec {i : Instr} {s t : State} (h : exec i s = .next t) : HostSideKept s t := by
  cases i with
  | lit b => exact hostSideKept_execWire (w := .lit b) h
  | scopy l x => exact hostSideKept_execWire (w := .scopy l x) h
  | eos => exact hostSideKept_execWire (w := .eos) h
  | lcopy dx lf => exact hostSideKept_execWire (w := .lcopy dx lf) h
  | lcopyx dx e => exact hostSideKept_execWire (w := .lcopyx dx e) h
  | compress => exact hostSideKept_compressWith h
  | archive => exact hostSideKept_compressWith h
  | maxCompressedSize => cases h; exact hostSideKept_finish _ s
  | decompressBuf => exact hostSideKept_decompressWith h
  | decompressBuf2 => exact hostSideKept_decompressWith h
  | decompressSize => exact hostSideKept_execDecompressSize h
  | crypt => exact hostSideKept_execCrypt h
  | illegalCmd code => cases h; exact hostSideKept_raiseError _ s

/-- Settles O51: every instruction keeps the host's side of the state, by cases on the instruction. -/
theorem instructionsLeaveSourceAndOperandsAlone : Obligations.InstructionsLeaveSourceAndOperandsAlone := by
  intro i s t h
  have hk : HostSideKept s t := hostSideKept_exec h
  rw [hk]
  exact ⟨rfl, rfl, rfl, rfl, rfl, rfl, rfl, rfl, rfl, rfl, rfl⟩

end Sys2Proof.Machine
end

section
/-! SUPPORT. The register map, the start of a command by a write to CMD, and reset (O1, O5, O8, O55). -/

namespace Sys2Proof.Machine

/-- A register write as a step is the write itself (R21). -/
theorem step_writeReg {s : State} {offset : Nat} {v : Word} {rest : List HostOp}
    (h : s.inputs = .writeReg offset v :: rest) : step s = .next (writeReg offset v { s with inputs := rest }) := by
  simp [step, nextMove, h, hostAccess]

/-- A register read as a step changes the host's record only (R60). -/
theorem step_readReg {s : State} {offset : Nat} {rest : List HostOp} (h : s.inputs = .readReg offset :: rest) :
    step s = .next { s with inputs := rest, lastRead := readReg offset s } := by
  simp only [step, nextMove, h, hostAccess]
  rfl

/-- A CMD write while idle starts the command (R22). -/
theorem writeReg_cmd_idle {s : State} (v : Word) (h : s.busy = false) : writeReg 0x00 v s = startCommand v s := by
  simp [writeReg, h]

/-- An offset at which R21 lists no writable register ignores writes. -/
theorem writeReg_reserved {offset : Nat} (h : offset ∉ [0x00, 0x04, 0x08, 0x0C, 0x10, 0x14]) (v : Word) (s : State) :
    writeReg offset v s = s := by
  unfold writeReg
  split
  case h_7 => rfl
  all_goals exact absurd h (by decide)

/-- An offset at which R21 lists no readable register reads as 0. -/
theorem readReg_reserved {offset : Nat} (h : offset ∉ [0x04, 0x08, 0x0C, 0x10, 0x14, 0x18, 0x20, 0x24]) (s : State) :
    readReg offset s = 0 := by
  unfold readReg
  split
  case h_9 => rfl
  all_goals exact absurd h (by decide)

/-- KEY_EN keeps bit 0 of what is written; bits 31:1 read as 0 (R25). -/
theorem readReg_writeReg_keyEn (v : Word) (s : State) : readReg 0x0C (writeReg 0x0C v s) = v &&& 1 := by
  ext i hi
  show ((BitVec.ofBool (v.getLsbD 0)).setWidth 32)[i] = (v &&& 1)[i]
  by_cases h : i = 0 <;> simp [h]

/-- The two RESULT registers are the two halves of RESULT (R29). -/
theorem readReg_result_halves (s : State) : readReg 0x24 s ++ readReg 0x20 s = s.result := by
  show s.result.extractLsb' 32 32 ++ s.result.extractLsb' 0 32 = s.result
  rw [BitVec.extractLsb'_append_extractLsb'_eq_extractLsb' (by decide)]
  simp

/-- STATUS holds BUSY in bit 0, DONE in bit 1 and zeros above (R28). -/
theorem readReg_status (s : State) :
    (readReg 0x18 s).getLsbD 0 = s.busy ∧ (readReg 0x18 s).getLsbD 1 = s.done ∧ readReg 0x18 s &&& 0xFFFFFFFC = 0 := by
  show (statusWord s).getLsbD 0 = s.busy ∧ (statusWord s).getLsbD 1 = s.done ∧ statusWord s &&& 0xFFFFFFFC = 0
  unfold statusWord
  cases s.busy <;> cases s.done <;> decide

/-- Settles O8, the register map, one fact about each kind of access. -/
theorem registerMapReadsAndWrites : Obligations.RegisterMapReadsAndWrites :=
  ⟨fun s v => ⟨rfl, rfl, readReg_writeReg_keyEn v s, rfl, rfl⟩, fun _ _ => ⟨rfl, rfl, rfl, rfl, rfl⟩,
    fun _ _ _ _ h => step_writeReg h, fun s _ v h => writeReg_reserved h v s, fun s _ h => readReg_reserved h s,
    readReg_result_halves, readReg_status, fun _ _ _ h => step_readReg h⟩

/-- Settles O5: the step is the CMD write, which starts the command. -/
theorem cmdWriteWhileIdleStartsCommand : Obligations.CmdWriteWhileIdleStartsCommand := by
  intro s code rest h hidle
  rw [step_writeReg h, writeReg_cmd_idle (s := { s with inputs := rest }) code hidle]
  rfl

/-- Every register reads 0 at reset (R41). -/
theorem readReg_reset (offset : Nat) : readReg offset State.reset = 0 := by
  unfold readReg
  split <;> rfl

/-- Settles O1: every register of the reset state is 0. -/
theorem resetStateIsIdleAndZero : Obligations.ResetStateIsIdleAndZero :=
  ⟨readReg_reset, rfl, rfl, rfl, rfl, rfl⟩

/-- A block that is idle, with no code waiting, meets the invariant once its buffers are canonical and its bit counts
are within 8: the clauses about DECODE are about a BUSY block. -/
theorem inv_idle {s : State} (hsrc : s.src.wf) (hdst : s.dst.wf) (hbusy : s.busy = false) (hcode : s.code = none)
    (hused : s.eng.bitsUsed ≤ 8) (hleft : s.eng.reader.bitsLeft ≤ 8) : Inv s where
  srcWf := hsrc
  dstWf := hdst
  busyNotDone := by simp [hbusy]
  codeOnlyBusy := by simp [hcode]
  bitsUsed := hused
  bitsLeft := hleft
  outInDeclared := by simp [hbusy]
  declaredInCap := by simp [hbusy]
  declaredInMax := by simp [hbusy]

/-- Settles O55: the reset state is idle, with empty buffers. -/
theorem resetSatisfiesTheInvariant : Obligations.ResetSatisfiesTheInvariant :=
  inv_idle .nil .nil rfl rfl (le_refl 8) (Nat.zero_le 8)

end Sys2Proof.Machine
end

section
/-! SUPPORT. COMPRESS and ARCHIVE as a sequence of channel items: the stream they write is a list of control bits and
payload bytes that depends on the source only, sent through the writer. What holds of every item sent then holds of the
whole stream. -/

namespace Sys2Proof.Machine

/-- What ENCODE_TOKEN sends for a decision (R169 to R173). -/
def Decision.channelItems : Decision → List ChannelItem
  | .literal b => [.bit true, .byte b]
  | .copy d l =>
    if d ≤ shortMaxDist ∧ l ≤ shortMaxLen ∧ ¬ (d = 1 ∧ l = 2) then
      [.bit false, .bit false, .bit ((l - 2) / 2 == 1), .bit ((l - 2) % 2 == 1), .byte (BitVec.ofNat 8 (256 - d))]
    else if l ≤ longMaxPlainLen then
      [.bit false, .bit true, .byte ((longCopyWord d (l - 1)).extractLsb' 0 8),
        .byte ((longCopyWord d (l - 1)).extractLsb' 8 8)]
    else
      [.bit false, .bit true, .byte ((longCopyWord d 0).extractLsb' 0 8), .byte ((longCopyWord d 0).extractLsb' 8 8),
        .byte (BitVec.ofNat 8 (l - 9))]

/-- The items of a whole parse, EndOfStream after the last decision (R145, R174). -/
def streamItems (finder : (Nat → Byte) → Nat → Nat → Decision) (src : Nat → Byte) (n : Nat) : List ChannelItem :=
  (decisions finder src n n 0).flatMap Decision.channelItems ++ WireToken.eos.items

/-- The writer where PARSE starts: behind the header, no control byte open, the cursor `p` at 0 (R145, R241). -/
def streamStart (need : Nat) (s : State) : State :=
  let t := wStart 4 (hdrWrite s.lat.nSrc { s with eng := { s.eng with need := need, n := s.lat.nSrc } })
  { t with eng := { t.eng with p := 0 } }

theorem encodeDecision_eq_sendItems (t : Decision) (s : State) : encodeDecision t s = sendItems t.channelItems s := by
  cases t with
  | literal b => rfl
  | copy d l =>
    simp only [encodeDecision, Decision.channelItems]
    split
    · rfl
    · split <;> rfl

theorem encodeEos_eq_sendItems (s : State) : encodeEos s = sendItems WireToken.eos.items s := rfl

theorem length_channelItems_le (t : Decision) : t.channelItems.length ≤ 5 := by
  cases t with
  | literal b => exact Nat.le_of_ble_eq_true rfl
  | copy d l =>
    simp only [Decision.channelItems]
    split
    · exact Nat.le_of_ble_eq_true rfl
    · split <;> exact Nat.le_of_ble_eq_true rfl

/-! ### The cursor `p` and the writer do not meet -/

theorem sendItem_moveP (i : ChannelItem) (k : Nat) (s : State) : sendItem (moveP k s) i = moveP k (sendItem s i) := by
  cases i with
  | byte v => rfl
  | bit b =>
    have ho : openControl (moveP k s) = moveP k (openControl s) := by
      unfold openControl
      rw [apply_ite (moveP k)]
      rfl
    simp only [sendItem, putBit, ho, moveP_eng]
    split <;> rfl

theorem sendItems_moveP (items : List ChannelItem) (k : Nat) (s : State) :
    sendItems items (moveP k s) = moveP k (sendItems items s) := by
  induction items generalizing s with
  | nil => rfl
  | cons i is ih =>
    show sendItems is (sendItem (moveP k s) i) = moveP k (sendItems is (sendItem s i))
    rw [sendItem_moveP, ih]

theorem moveP_moveP (j k : Nat) (s : State) : moveP j (moveP k s) = moveP (k + j) s := by
  simp [moveP, Nat.add_assoc]

theorem sendItems_append (is js : List ChannelItem) (s : State) :
    sendItems (is ++ js) s = sendItems js (sendItems is s) :=
  List.foldl_append

theorem p_sendItem (i : ChannelItem) (s : State) : (sendItem s i).eng.p = s.eng.p := by
  cases i with
  | byte v => rfl
  | bit b =>
    have ho : (openControl s).eng.p = s.eng.p := by
      unfold openControl
      split <;> rfl
    simp only [sendItem, putBit]
    split <;> exact ho

theorem p_sendItems (items : List ChannelItem) (s : State) : (sendItems items s).eng.p = s.eng.p := by
  induction items generalizing s with
  | nil => rfl
  | cons i is ih => exact (ih _).trans (p_sendItem i s)

/-- The loop of PARSE sends the items of its decisions and moves `p` on (R145). -/
theorem parseFrom_eq_sendItems (finder : (Nat → Byte) → Nat → Nat → Decision) (fuel : Nat) (s : State) :
    ∃ k, parseFrom finder fuel s =
      moveP k (sendItems ((decisions finder s.srcByte s.nSrc fuel s.eng.p).flatMap Decision.channelItems) s) := by
  induction fuel generalizing s with
  | zero => exact ⟨0, rfl⟩
  | succ fuel ih =>
    by_cases h : s.eng.p < s.nSrc
    · let t := finder s.srcByte s.nSrc s.eng.p
      have hw : Worked s (moveP t.advance (encodeDecision t s)) := (worked_encodeDecision t s).trans (worked_moveP _ _)
      have hp : (moveP t.advance (encodeDecision t s)).eng.p = s.eng.p + t.advance := by
        rw [moveP_eng, encodeDecision_eq_sendItems, p_sendItems]
      have hsrc : (moveP t.advance (encodeDecision t s)).srcByte = s.srcByte := funext hw.srcByte
      obtain ⟨k, hk⟩ := ih (moveP t.advance (encodeDecision t s))
      refine ⟨t.advance + k, ?_⟩
      rw [parseFrom, if_pos h, hk, hsrc, hw.nSrc, hp, decisions, if_pos h, List.flatMap_cons, sendItems_append,
        sendItems_moveP, moveP_moveP, ← encodeDecision_eq_sendItems]
    · exact ⟨0, by rw [parseFrom, if_neg h, decisions, if_neg h]; rfl⟩

/-- The stream of COMPRESS and ARCHIVE is its items sent from a fresh writer behind the header (R241, R242). -/
theorem writeStream_eq_sendItems (finder : (Nat → Byte) → Nat → Nat → Decision) (need : Nat) (s : State) :
    ∃ k, writeStream finder need s = moveP k (sendItems (streamItems finder s.srcByte s.nSrc) (streamStart need s)) := by
  obtain ⟨k, hk⟩ := parseFrom_eq_sendItems finder s.nSrc (streamStart need s)
  refine ⟨k, ?_⟩
  show encodeEos (parseFrom finder s.nSrc (streamStart need s)) = _
  rw [hk, encodeEos_eq_sendItems, sendItems_moveP, ← sendItems_append]
  rfl

/-! ### What every item keeps -/

theorem outPos_sendItem_le (i : ChannelItem) (s : State) : (sendItem s i).eng.outPos ≤ s.eng.outPos + 1 := by
  cases i with
  | byte v => exact le_refl _
  | bit b =>
    have ho : (openControl s).eng.outPos ≤ s.eng.outPos + 1 := by
      unfold openControl
      split
      · exact le_refl _
      · exact Nat.le_succ _
    simp only [sendItem, putBit]
    split <;> exact ho

/-- An item takes at most one byte of DST. -/
theorem outPos_sendItems_le (items : List ChannelItem) (s : State) :
    (sendItems items s).eng.outPos ≤ s.eng.outPos + items.length := by
  induction items generalizing s with
  | nil => exact le_refl _
  | cons i is ih =>
    have h1 : (sendItems (i :: is) s).eng.outPos ≤ (sendItem s i).eng.outPos + is.length := ih _
    have h2 := outPos_sendItem_le i s
    rw [List.length_cons]
    omega

theorem wf_sendItem (i : ChannelItem) {s : State} (h : s.dst.wf) : (sendItem s i).dst.wf := by
  cases i with
  | byte v => exact set_wf h _ _
  | bit b =>
    have ho : (openControl s).dst.wf := by
      unfold openControl
      split
      · exact set_wf h _ _
      · exact h
    simp only [sendItem, putBit]
    split
    · exact set_wf ho _ _
    · exact ho

theorem wf_sendItems (items : List ChannelItem) {s : State} (h : s.dst.wf) : (sendItems items s).dst.wf := by
  induction items generalizing s with
  | nil => exact h
  | cons i is ih => exact ih (wf_sendItem i h)

theorem wf_writeStream (finder : (Nat → Byte) → Nat → Nat → Decision) (need : Nat) {s : State} (h : s.dst.wf) :
    (writeStream finder need s).dst.wf := by
  obtain ⟨k, hk⟩ := writeStream_eq_sendItems finder need s
  rw [hk]
  exact wf_sendItems _ (setList_wf h _ _)

/-- One decision for each cursor at most. -/
theorem length_decisions_le (finder : (Nat → Byte) → Nat → Nat → Decision) (src : Nat → Byte) (n fuel p : Nat) :
    (decisions finder src n fuel p).length ≤ fuel := by
  induction fuel generalizing p with
  | zero => exact le_refl 0
  | succ fuel ih =>
    unfold decisions
    split
    · exact Nat.succ_le_succ (ih _)
    · exact Nat.zero_le _

theorem length_streamItems_le (finder : (Nat → Byte) → Nat → Nat → Decision) (src : Nat → Byte) (n : Nat) :
    (streamItems finder src n).length ≤ 5 * n + 5 := by
  have hsum : ∀ ds : List Decision, (ds.flatMap Decision.channelItems).length ≤ 5 * ds.length := by
    intro ds
    induction ds with
    | nil => exact le_refl 0
    | cons d ds ih =>
      have hd := length_channelItems_le d
      simp only [List.flatMap_cons, List.length_append, List.length_cons]
      omega
  have h1 := hsum (decisions finder src n n 0)
  have h2 := length_decisions_le finder src n n 0
  have h3 : WireToken.eos.items.length = 5 := rfl
  rw [streamItems, List.length_append]
  omega

/-- A coarse bound on the stream's length, enough for RESULT to hold it as a size (R205 gives the sharp one). -/
theorem outPos_writeStream_le (finder : (Nat → Byte) → Nat → Nat → Decision) (need : Nat) (s : State) :
    (writeStream finder need s).eng.outPos ≤ 5 * s.nSrc + 9 := by
  obtain ⟨k, hk⟩ := writeStream_eq_sendItems finder need s
  have h1 := outPos_sendItems_le (streamItems finder s.srcByte s.nSrc) (streamStart need s)
  have h2 := length_streamItems_le finder s.srcByte s.nSrc
  have h3 : (streamStart need s).eng.outPos = 4 := rfl
  rw [hk, moveP_eng]
  simp only
  omega

end Sys2Proof.Machine
end

section
/-! SUPPORT. KS_XOR in closed form: DST byte `i` is XORed with `K[i]`, and the canonical form is kept. -/

namespace Sys2Proof.Machine

theorem wf_xorDst (a : Nat) (ks : List Byte) {s : State} (h : s.dst.wf) : (xorDst a ks s).dst.wf := by
  induction ks generalizing a s with
  | nil => exact h
  | cons k ks ih => exact ih _ (set_wf h _ _)

theorem wf_xorGroups (e : ByteOrder) (k g : Nat) {s : State} (h : s.dst.wf) : (xorGroups e k g s).dst.wf := by
  induction k generalizing g s with
  | zero => exact h
  | succ k ih => exact ih _ (wf_xorDst _ _ h)

theorem wf_ksXor (k : Nat) (key : Word) (e : ByteOrder) {s : State} (h : s.dst.wf) : (ksXor k key e s).dst.wf := by
  have hg : (xorGroups e (k / 4) 0 (ksInit key s)).dst.wf := wf_xorGroups e _ _ h
  simp only [ksXor]
  split
  · exact hg
  · exact wf_xorDst _ _ hg

/-- Before group `g` the next word of the keystream is `w_g` (R127). -/
def NextWordIs (key : Word) (g : Nat) (s : State) : Prop := ksStep s.params s.eng.ks = ksWord s.params key g

theorem nextWordIs_xorGroup {key : Word} {g : Nat} {s : State} (h : NextWordIs key g s) (e : ByteOrder) (a count : Nat) :
    NextWordIs key (g + 1) (xorGroup e a count s) := by
  unfold NextWordIs at *
  rw [(worked_xorGroup e a count s).params, eng_xorGroup, ksWord, h]

/-- One group of up to 4 bytes, at its place in the stream, is XORed with its bytes of `K` (R103, R104). -/
theorem get_xorGroup_ksByte {key : Word} {g : Nat} {s : State} (h : NextWordIs key g s) (e : ByteOrder) {count : Nat}
    (hc : count ≤ 4) (x : Nat) :
    (xorGroup e (4 * g) count s).dst.get x =
      if 4 * g ≤ x ∧ x < 4 * g + count then some (s.dstByte x ^^^ ksByte s.params key e x) else s.dst.get x := by
  rw [get_xorGroup e _ _ hc, h]
  by_cases hx : 4 * g ≤ x ∧ x < 4 * g + count
  · have hg : x / 4 = g := by omega
    have hm : x - 4 * g = x % 4 := by omega
    rw [if_pos hx, if_pos hx, ksByte, hg, hm]
  · rw [if_neg hx, if_neg hx]

/-- The whole groups are XORed with their bytes of `K`, and the next word is that of the group after them (R103). -/
theorem xorGroups_ksByte {key : Word} {g : Nat} {s : State} (h : NextWordIs key g s) (e : ByteOrder) (k : Nat) :
    NextWordIs key (g + k) (xorGroups e k g s) ∧
    ∀ x, (xorGroups e k g s).dst.get x =
      if 4 * g ≤ x ∧ x < 4 * (g + k) then some (s.dstByte x ^^^ ksByte s.params key e x) else s.dst.get x := by
  induction k generalizing g s with
  | zero => exact ⟨h, fun x => (if_neg (by omega)).symm⟩
  | succ k ih =>
    obtain ⟨hn, hget⟩ := ih (nextWordIs_xorGroup h e (4 * g) 4)
    have hsum : g + 1 + k = g + (k + 1) := by omega
    rw [hsum] at hn hget
    refine ⟨hn, fun x => ?_⟩
    have hone := get_xorGroup_ksByte h e (le_refl 4) x
    rw [xorGroups, hget, State.dstByte, hone, (worked_xorGroup e _ _ s).params]
    by_cases h1 : 4 * (g + 1) ≤ x ∧ x < 4 * (g + (k + 1))
    · rw [if_pos h1, if_neg (by omega), if_pos (by omega), State.dstByte]
    · rw [if_neg h1]
      exact if_congr (by omega) rfl rfl

/-- KS_XOR: DST byte `i` below `k` is XORed with `K[i]`, every other byte is as before (R103, R104, R127). -/
theorem get_ksXor (k : Nat) (key : Word) (e : ByteOrder) (s : State) (x : Nat) :
    (ksXor k key e s).dst.get x =
      if x < k then some (s.dstByte x ^^^ ksByte s.params key e x) else s.dst.get x := by
  have h0 : NextWordIs key 0 (ksInit key s) := rfl
  obtain ⟨hn, hget⟩ := xorGroups_ksByte h0 e (k / 4)
  rw [Nat.zero_add] at hn hget
  have hs : (ksInit key s).dstByte x = s.dstByte x := rfl
  simp only [ksXor]
  by_cases hk : k % 4 = 0
  · rw [if_pos hk, hget, hs]
    exact if_congr (by omega) rfl rfl
  · rw [if_neg hk, get_xorGroup_ksByte hn e (by omega), State.dstByte, hget, hs, (worked_xorGroups e _ _ _).params]
    by_cases hx : 4 * (k / 4) ≤ x ∧ x < 4 * (k / 4) + k % 4
    · rw [if_pos hx, if_neg (by omega), if_pos (by omega)]
      rfl
    · rw [if_neg hx]
      exact if_congr (by omega) rfl rfl

theorem wf_copySrc (k i : Nat) {s : State} (h : s.dst.wf) : (copySrc k i s).dst.wf := by
  induction k generalizing i s with
  | zero => exact h
  | succ k ih => exact ih _ (set_wf h _ _)

end Sys2Proof.Machine
end

section
/-! SUPPORT. How a command ends (O53): DECODE ends within its fuel, with EndOfStream or with BadFormat, and every
command that is not refused is some work on DST and the internal registers and then `endCommand`, with a size or one of
the codes -1 to -4. -/

namespace Sys2Proof.Machine

/-! ### DECODE ends -/

/-- Appended output, the reader moved on and again appended output are appended output. -/
theorem Appended.trans_reader {r r' : Reader} {s t u : State}
    (h : Appended { s with eng := { s.eng with reader := r } } t)
    (k : Appended { t with eng := { t.eng with reader := r' } } u) :
    Appended { s with eng := { s.eng with reader := r' } } u := by
  obtain ⟨hgrow, -, -, ht, hkeep, hwf⟩ := h
  obtain ⟨kgrow, kdecl, kcap, hu, kkeep, kwf⟩ := k
  simp only at hgrow hkeep kgrow kkeep
  have hd : State.declared { t with eng := { t.eng with reader := r' } } = s.declared := by rw [ht]; rfl
  have hc : State.cap { t with eng := { t.eng with reader := r' } } = s.cap := by rw [ht]; rfl
  refine ⟨le_trans hgrow kgrow, hd ▸ kdecl, hc ▸ kcap, ?_, fun a ha => ?_, fun hs => kwf (hwf hs)⟩
  · rw [hu, ht]
  · simp only at ha
    rw [kkeep a (by omega), hkeep a (by omega)]

/-- No output yet is appended output. -/
theorem Appended.refl {s : State} (hout : s.eng.outPos ≤ s.declared) (hcap : s.declared ≤ s.cap) : Appended s s :=
  ⟨le_refl _, hout, le_trans hout hcap, rfl, fun _ _ => rfl, id⟩

/-- DECODE has ended with outcome `o`: output has been appended to `s`, and then EndOfStream has ended the command at
`out_pos = N`, or BadFormat has been raised (R160, R163, R251). -/
def DecodeEnds (s : State) (o : Host.Outcome State Fault Refusal) : Prop :=
  ∃ r r' t, Appended { s with eng := { s.eng with reader := r } } t ∧
    ((o = .next (finish s.declared { t with eng := { t.eng with reader := r' } }) ∧ t.eng.outPos = s.declared) ∨
      o = .next (raiseInDecode { t with eng := { t.eng with reader := r' } }))

/-- Each token reads at least one byte of SRC, so the loop of DECODE ends before its fuel does (R318). -/
theorem decodeLoop_ends {fuel : Nat} {s : State} (hbusy : s.busy = true) (hout : s.eng.outPos ≤ s.declared)
    (hcap : s.declared ≤ s.cap) (hfuel : s.nSrc - s.eng.reader.inPos < fuel) : DecodeEnds s (decodeLoop fuel s) := by
  induction fuel generalizing s with
  | zero => exact absurd hfuel (Nat.not_lt_zero _)
  | succ fuel ih =>
    have hended : ∀ t, t.busy = false → decodeLoop fuel t = .next t := by
      intro t ht
      cases fuel with
      | zero => rfl
      | succ fuel => exact if_neg (by simp [ht])
    rw [decodeLoop, if_pos hbusy]
    obtain ⟨r, u, hu, ha, hlt, hle, -⟩ | ⟨r, hu, heq⟩ | ⟨r, hu⟩ | ⟨-, hlt⟩ := tokenStep_cases s
    · rw [hu]
      obtain ⟨-, hdecl, -, hueq, -⟩ := id ha
      have hreader : u.eng.reader = r := by rw [hueq]
      have hn : u.nSrc = s.nSrc := by rw [hueq]; rfl
      have hd : u.declared = s.declared := by rw [hueq]; rfl
      have hc : u.cap = s.cap := by rw [hueq]; rfl
      have hb : u.busy = true := by rw [hueq]; exact hbusy
      obtain ⟨r1, r2, t, ht, hend⟩ := ih hb (by rw [hd]; exact hdecl) (by rw [hd, hc]; exact hcap)
        (by rw [hn, hreader]; omega)
      rw [hd] at hend
      exact ⟨r1, r2, t, ha.trans_reader ht, hend⟩
    · rw [hu]
      exact ⟨s.eng.reader, r, s, Appended.refl hout hcap, .inl ⟨hended _ rfl, heq⟩⟩
    · rw [hu]
      exact ⟨s.eng.reader, r, s, Appended.refl hout hcap, .inr (hended _ rfl)⟩
    · omega

/-- DECODE with a declared length within `cap` ends (R318). -/
theorem decode_ends {s : State} (hcap : s.declared ≤ s.cap) : DecodeEnds (enterDecode s) (decode s) :=
  decodeLoop_ends rfl (Nat.zero_le _) hcap (Nat.lt_succ_of_le (Nat.sub_le _ _))

/-! ### RESULT -/

/-- A RESULT that is a size or one of the codes -1 to -4 (R29, R280). -/
def SizeOrCode (r : ResultWord) : Prop := 0 ≤ r.toInt ∨ r.toInt ∈ [-1, -2, -3, -4]

theorem sizeOrCode_ofNat {v : Nat} (h : v < 2 ^ 63) : SizeOrCode (BitVec.ofNat 64 v) := by
  refine .inl ?_
  rw [BitVec.toInt_ofNat', Int.bmod_def]
  omega

theorem sizeOrCode_errKind {k : ErrKind} (h : k ≠ .ioFailure) : SizeOrCode (BitVec.ofInt 64 k.code) := by
  refine .inr ?_
  cases k with
  | ioFailure => exact absurd rfl h
  | invalidArgument => decide
  | outOfMemory => decide
  | badFormat => decide
  | bufferTooSmall => decide

/-! ### No check raises IOFailure (R286) -/

theorem compressPrep_error {s : State} {k : ErrKind} (h : compressPrep s = .error k) : k ≠ .ioFailure := by
  obtain ⟨hp, -⟩ | ⟨hp, -⟩ | ⟨hp, -⟩ := compressPrep_cases s <;> rw [hp] at h <;> cases h <;> decide

theorem cryptPrep_error {s : State} {k : ErrKind} (h : cryptPrep s = .error k) : k ≠ .ioFailure := by
  obtain ⟨e, hp, -⟩ | ⟨hp, -⟩ | ⟨hp, -⟩ := cryptPrep_cases s <;> rw [hp] at h <;> cases h <;> decide

theorem dprep_error {c : Option Nat} {s : State} {k : ErrKind} (h : dprep c s = .error k) : k ≠ .ioFailure := by
  unfold dprep at h
  split at h
  · cases h; decide
  · split at h
    · cases h; decide
    · split at h
      · cases h; decide
      · split at h <;> split at h <;> cases h <;> decide

theorem decompressPrep_error {c : Option Nat} {small : ErrKind} {s : State} {k : ErrKind} (hsmall : small ≠ .ioFailure)
    (h : decompressPrep c small s = .error k) : k ≠ .ioFailure := by
  unfold decompressPrep at h
  split at h
  · rename_i k' hd
    cases h
    exact dprep_error hd
  · split at h
    · cases h; exact hsmall
    · cases h

/-! ### Every command ends -/

/-- The outcome is a command's end after work that keeps SRC and the canonical form of DST. -/
def EndsWell (s : State) (o : Host.Outcome State Fault Refusal) : Prop :=
  ∃ r t, o = .next (endCommand r t) ∧ SizeOrCode r ∧ t.src = s.src ∧ (s.dst.wf → t.dst.wf)

theorem endsWell_finish {s t : State} {v : Nat} (h : v < 2 ^ 63) (hw : Worked s t) (hwf : s.dst.wf → t.dst.wf) :
    EndsWell s (.next (finish v t)) :=
  ⟨_, t, rfl, sizeOrCode_ofNat h, hw.src, hwf⟩

theorem endsWell_raiseError {k : ErrKind} (h : k ≠ .ioFailure) (s : State) : EndsWell s (.next (raiseError k s)) :=
  ⟨_, s, rfl, sizeOrCode_errKind h, rfl, id⟩

theorem nSrc_lt (s : State) : s.nSrc < 2 ^ 32 := s.lat.nSrc.isLt

theorem endsWell_compressWith (finder : (Nat → Byte) → Nat → Nat → Decision) (s : State) :
    compressWith finder s = .refused .buffersOverlap ∨ EndsWell s (compressWith finder s) := by
  obtain ⟨h, -⟩ | ⟨k, hk, h⟩ | ⟨-, -, h⟩ := compressWith_cases finder s
  · exact .inl h
  · exact .inr (h ▸ endsWell_raiseError (compressPrep_error hk) s)
  · refine .inr (h ▸ endsWell_finish ?_ ((worked_writeStream _ _ s).trans (worked_ksXor _ _ _ _))
      fun hs => wf_ksXor _ _ _ (wf_writeStream _ _ hs))
    have hb := outPos_writeStream_le finder (maxSize s.nSrc) s
    have hn := nSrc_lt s
    omega

theorem endsWell_decode {s : State} (hcap : s.declared ≤ s.cap) : EndsWell s (decode s) := by
  obtain ⟨r, r', t, ⟨-, -, -, ht, -, hwf⟩, ⟨hend, -⟩ | hend⟩ := decode_ends hcap
  · have hn : s.declared < 2 ^ 32 := s.eng.n.isLt
    refine ⟨_, _, hend, sizeOrCode_ofNat ?_, by rw [ht]; rfl, hwf⟩
    show s.declared < 2 ^ 63
    omega
  · exact ⟨_, _, hend, sizeOrCode_errKind (k := .badFormat) (by decide), by rw [ht]; rfl, fun h => setPrefix_wf (hwf h) _ _⟩

theorem endsWell_decompressWith {c : Option Nat} {small : ErrKind} (hsmall : small ≠ .ioFailure) (s : State) :
    decompressWith c small s = .refused .buffersOverlap ∨ EndsWell s (decompressWith c small s) := by
  obtain ⟨h, -⟩ | ⟨k, hk, h⟩ | ⟨e, n, -, hp, h⟩ := decompressWith_cases c small s
  · exact .inl h
  · exact .inr (h ▸ endsWell_raiseError (decompressPrep_error hsmall hk) s)
  · have hcap : (setStream e n s).declared ≤ (setStream e n s).cap := (decompressPrep_ok hp).2
    exact .inr (h ▸ endsWell_decode hcap)

theorem endsWell_execDecompressSize (s : State) : EndsWell s (execDecompressSize s) := by
  unfold execDecompressSize
  split
  · rename_i k hk
    exact endsWell_raiseError (dprep_error hk) s
  · rename_i e n hn
    exact endsWell_finish (by have := n.isLt; omega) (Worked.refl s) id

theorem endsWell_execCrypt (s : State) :
    execCrypt s = .refused .buffersOverlap ∨ EndsWell s (execCrypt s) := by
  have hn := nSrc_lt s
  obtain ⟨h, -⟩ | ⟨k, hk, h⟩ | ⟨e, -, -, h⟩ := execCrypt_cases s
  · exact .inl h
  · exact .inr (h ▸ endsWell_raiseError (cryptPrep_error hk) s)
  · exact .inr (h ▸ endsWell_finish (by omega) ((worked_copySrc _ _ s).trans (worked_ksXor _ _ _ _))
      fun hs => wf_ksXor _ _ _ (wf_copySrc _ _ hs))

theorem maxSize_nSrc_lt (s : State) : maxSize s.nSrc < 2 ^ 63 := by
  have hn := nSrc_lt s
  unfold maxSize hdrBytes
  omega

/-- A command is refused over overlapping buffers, or ends (R288). -/
theorem endsWell_exec {i : Instr} (hi : isCommand i = true) (s : State) :
    exec i s = .refused .buffersOverlap ∨ EndsWell s (exec i s) := by
  cases i with
  | lit b => cases hi
  | scopy l x => cases hi
  | eos => cases hi
  | lcopy dx lf => cases hi
  | lcopyx dx e => cases hi
  | compress => exact endsWell_compressWith find s
  | archive => exact endsWell_compressWith findLiteral s
  | maxCompressedSize => exact .inr (endsWell_finish (maxSize_nSrc_lt s) (Worked.refl s) id)
  | decompressBuf => exact endsWell_decompressWith (by decide) s
  | decompressBuf2 => exact endsWell_decompressWith (by decide) s
  | decompressSize => exact .inr (endsWell_execDecompressSize s)
  | crypt => exact endsWell_execCrypt s
  | illegalCmd code => exact .inr (endsWell_raiseError (by decide) s)

/-- Settles O53: a command that is not refused ends by `endCommand`, with a size or a code. -/
theorem commandResultIsASizeOrAnErrorCode : Obligations.CommandResultIsASizeOrAnErrorCode := by
  intro i s hi
  obtain h | ⟨r, t, h, hr, -⟩ := endsWell_exec hi s
  · exact .inl h
  · exact .inr ⟨endCommand r t, h, rfl, rfl, hr⟩

end Sys2Proof.Machine
end

section
/-! SUPPORT. The invariant through every step (O56): a command ends idle, a token of DECODE appends within `N` or ends
the command, and a host access keeps the buffers canonical. -/

namespace Sys2Proof.Machine

/-- The next state of an outcome, where there is one, meets the invariant. -/
def KeepsInv (o : Host.Outcome State Fault Refusal) : Prop := ∀ t, o = .next t → Inv t

theorem keepsInv_next {t : State} (h : Inv t) : KeepsInv (.next t) := by
  intro u hu
  cases hu
  exact h

theorem keepsInv_refused (r : Refusal) : KeepsInv (.refused r) := fun _ h => by cases h

theorem keepsInv_fault (f : Fault) : KeepsInv (.fault f) := fun _ h => by cases h

/-- The invariant speaks of neither the host's record, nor its accesses to come, nor the operand registers, nor where
the buffers are placed. -/
theorem Inv.hostSide {s : State} (h : Inv s) (endian key : Word) (keyEn : Bool) (srcLen dstCap : Word)
    (srcBase dstBase : Nat) (inputs : List HostOp) (lastRead : Word) :
    Inv { s with
      endian := endian, key := key, keyEn := keyEn, srcLen := srcLen, dstCap := dstCap
      srcBase := srcBase, dstBase := dstBase, inputs := inputs, lastRead := lastRead } :=
  ⟨h.srcWf, h.dstWf, h.busyNotDone, h.codeOnlyBusy, h.bitsUsed, h.bitsLeft, h.outInDeclared, h.declaredInCap,
    h.declaredInMax⟩

/-- A buffer replaced by a canonical one. -/
theorem Inv.buffers {s : State} (h : Inv s) {src dst : Memory} (hsrc : src.wf) (hdst : dst.wf) :
    Inv { s with src := src, dst := dst } :=
  ⟨hsrc, hdst, h.busyNotDone, h.codeOnlyBusy, h.bitsUsed, h.bitsLeft, h.outInDeclared, h.declaredInCap,
    h.declaredInMax⟩

/-! ### The engine's moves -/

/-- After a command the bit counts are within 8, whatever the free values are (R33, R34, R42). -/
theorem inv_endCommand {s : State} (hsrc : s.src.wf) (hdst : s.dst.wf) (r : ResultWord) : Inv (endCommand r s) :=
  inv_idle hsrc hdst rfl rfl (Nat.le_of_lt_succ (Nat.mod_lt _ (by decide)))
    (Nat.le_of_lt_succ (Nat.mod_lt _ (by decide)))

theorem inv_raiseInDecode {s : State} (hsrc : s.src.wf) (hdst : s.dst.wf) : Inv (raiseInDecode s) :=
  inv_endCommand (s := s.freeDst (min s.declared s.cap)) hsrc (setPrefix_wf hdst _ _) _

theorem EndsWell.keepsInv {s : State} {o : Host.Outcome State Fault Refusal} (h : EndsWell s o) (hsrc : s.src.wf)
    (hdst : s.dst.wf) : KeepsInv o := by
  obtain ⟨r, t, rfl, -, ht, hwf⟩ := h
  exact keepsInv_next (inv_endCommand (ht ▸ hsrc) (hwf hdst) r)

theorem isCommand_decodeCommand (w : Word) : isCommand (decodeCommand w) = true := by
  unfold decodeCommand
  split <;> rfl

theorem keepsInv_command (code : Word) {s : State} (hsrc : s.src.wf) (hdst : s.dst.wf) :
    KeepsInv (exec (decodeCommand code) s) := by
  obtain h | h := endsWell_exec (isCommand_decodeCommand code) s
  · exact h ▸ keepsInv_refused _
  · exact h.keepsInv hsrc hdst

/-- Output appended inside DECODE, the reader moved on, keeps the invariant (R160). -/
theorem Inv.appended {s t : State} {r : Reader} (h : Inv s) (hbusy : s.busy = true)
    (hleft : r.bitsLeft ≤ 8) (ha : Appended { s with eng := { s.eng with reader := r } } t) : Inv t := by
  obtain ⟨-, hdecl, -, ht, -, hwf⟩ := ha
  have hdst : t.dst.wf := hwf h.dstWf
  have hout : t.eng.outPos ≤ s.declared := hdecl
  rw [ht]
  exact ⟨h.srcWf, hdst, h.busyNotDone, fun _ => hbusy, h.bitsUsed, hleft, fun _ _ => hout, h.declaredInCap,
    h.declaredInMax⟩

theorem keepsInv_tokenStep {s : State} (h : Inv s) (hbusy : s.busy = true) : KeepsInv (tokenStep s) := by
  obtain ⟨r, u, hu, ha, -, -, hleft⟩ | ⟨r, hu, -⟩ | ⟨r, hu⟩ | ⟨hu, -⟩ := tokenStep_cases s <;> rw [hu]
  · exact keepsInv_next (h.appended hbusy (hleft h.bitsLeft) ha)
  · exact keepsInv_next (inv_endCommand h.srcWf h.dstWf _)
  · exact keepsInv_next (inv_raiseInDecode h.srcWf h.dstWf)
  · exact keepsInv_fault _

theorem keepsInv_engineStep {s : State} (h : Inv s) : KeepsInv (engineStep s) := by
  obtain ⟨hu, -⟩ | ⟨code, -, -, hu⟩ | ⟨-, hbusy, hu⟩ := engineStep_cases s <;> rw [hu]
  · exact keepsInv_next h
  · exact keepsInv_command code h.srcWf h.dstWf
  · exact keepsInv_tokenStep h hbusy

/-! ### The host's accesses -/

theorem inv_startCommand {s : State} (h : Inv s) (code : Word) : Inv (startCommand code s) where
  srcWf := h.srcWf
  dstWf := h.dstWf
  busyNotDone _ := rfl
  codeOnlyBusy _ := rfl
  bitsUsed := h.bitsUsed
  bitsLeft := h.bitsLeft
  outInDeclared _ hc := by simp at hc
  declaredInCap _ hc := by simp at hc
  declaredInMax _ hc := by simp at hc

theorem inv_writeReg {s : State} (h : Inv s) (offset : Nat) (v : Word) : Inv (writeReg offset v s) := by
  obtain ⟨-, -, hu⟩ | ⟨endian, key, keyEn, srcLen, dstCap, hu⟩ := writeReg_cases offset v s <;> rw [hu]
  · exact inv_startCommand h v
  · exact h.hostSide endian key keyEn srcLen dstCap s.srcBase s.dstBase s.inputs s.lastRead

theorem Inv.setLastRead {s : State} (h : Inv s) (w : Word) : Inv { s with lastRead := w } :=
  h.hostSide s.endian s.key s.keyEn s.srcLen s.dstCap s.srcBase s.dstBase s.inputs w

theorem Inv.setInputs {s : State} (h : Inv s) (inputs : List HostOp) : Inv { s with inputs := inputs } :=
  h.hostSide s.endian s.key s.keyEn s.srcLen s.dstCap s.srcBase s.dstBase inputs s.lastRead

theorem keepsInv_bufferAccess {after : State} (h : Inv after) (offset count : Nat) (s : State) :
    KeepsInv (bufferAccess offset count after s) := by
  obtain ⟨hu, -⟩ | ⟨hu, -⟩ | ⟨hu, -⟩ := bufferAccess_cases offset count after s <;> rw [hu]
  · exact keepsInv_refused _
  · exact keepsInv_fault _
  · exact keepsInv_next h

theorem keepsInv_resetBlock {s : State} (h : Inv s) : KeepsInv (resetBlock s) := by
  obtain ⟨hu, -⟩ | ⟨t, hu, -, hbusy, -, hcode, heng, hsrc, -, -, -, hwf⟩ := resetBlock_cases s <;> rw [hu]
  · exact keepsInv_refused _
  · refine keepsInv_next (inv_idle (hsrc ▸ h.srcWf) (hwf h.dstWf) hbusy hcode ?_ ?_) <;> rw [heng]
    · exact le_refl 8
    · exact Nat.zero_le 8

theorem keepsInv_hostAccess {s : State} (h : Inv s) (op : HostOp) : KeepsInv (hostAccess op s) := by
  cases op with
  | writeReg offset v => exact keepsInv_next (inv_writeReg h offset v)
  | readReg offset => exact keepsInv_next (h.setLastRead _)
  | wait => exact keepsInv_next (h.setLastRead _)
  | letRun => exact keepsInv_next h
  | writeSrc offset bytes =>
    exact keepsInv_bufferAccess (h.buffers (setList_wf h.srcWf offset bytes) h.dstWf) offset _ s
  | writeDst offset bytes =>
    exact keepsInv_bufferAccess (h.buffers h.srcWf (setList_wf h.dstWf offset bytes)) offset _ s
  | readSrc offset => exact keepsInv_bufferAccess (h.setLastRead _) offset 1 s
  | readDst offset => exact keepsInv_bufferAccess (h.setLastRead _) offset 1 s
  | place srcBase dstBase =>
    simp only [hostAccess]
    split
    · exact keepsInv_refused _
    · exact keepsInv_next (h.hostSide s.endian s.key s.keyEn s.srcLen s.dstCap srcBase dstBase s.inputs s.lastRead)
  | reset => exact keepsInv_resetBlock h

/-- Settles O56: a step is the engine's move or a host access, and each keeps the invariant. -/
theorem stepsKeepTheInvariant : Obligations.StepsKeepTheInvariant := by
  intro s t h ht
  obtain ⟨rest, hu, -⟩ | ⟨op, rest, -, hu⟩ | ⟨rest, -, -, -, hu⟩ := step_cases s <;> rw [hu] at ht
  · exact keepsInv_engineStep (h.setInputs rest) t ht
  · exact keepsInv_hostAccess (h.setInputs rest) op t ht
  · exact keepsInv_hostAccess h .wait t ht

end Sys2Proof.Machine
end

section
/-! SUPPORT. Two runs of one command from states that agree on the latches, SRC, the parameters and the placement (O54):
the checks answer alike, the encoder sends the same items, DECODE reads the same tokens, and the DST bytes each has written
agree. -/

namespace Sys2Proof.Machine

/-- `s'` agrees with `s` on all that a command may depend on (R36, R313). -/
def SameOperands (s s' : State) : Prop :=
  s' = { s' with lat := s.lat, src := s.src, params := s.params, srcBase := s.srcBase, dstBase := s.dstBase }

namespace SameOperands

variable {s s' : State}

theorem of_eqs (hlat : s'.lat = s.lat) (hsrc : s'.src = s.src) (hparams : s'.params = s.params)
    (hsrcBase : s'.srcBase = s.srcBase) (hdstBase : s'.dstBase = s.dstBase) : SameOperands s s' := by
  unfold SameOperands
  rw [← hlat, ← hsrc, ← hparams, ← hsrcBase, ← hdstBase]

/-- Work on DST and the internal registers keeps the agreement. -/
theorem worked {t t' : State} (h : SameOperands s s') (ht : Worked s t) (ht' : Worked s' t') : SameOperands t t' := by
  unfold SameOperands Worked at *
  rw [ht', ht, h]

theorem lat (h : SameOperands s s') : s'.lat = s.lat := by rw [h]
theorem params (h : SameOperands s s') : s'.params = s.params := by rw [h]
theorem nSrc (h : SameOperands s s') : s'.nSrc = s.nSrc := by rw [h]; rfl
theorem cap (h : SameOperands s s') : s'.cap = s.cap := by rw [h]; rfl
theorem srcByte (h : SameOperands s s') : s'.srcByte = s.srcByte := by rw [h]; rfl
theorem overlapping (h : SameOperands s s') : s'.overlapping = s.overlapping := by rw [h]; rfl
theorem compressPrep (h : SameOperands s s') : compressPrep s' = compressPrep s := by rw [h]; rfl
theorem cryptPrep (h : SameOperands s s') : cryptPrep s' = cryptPrep s := by rw [h]; rfl
theorem dprep (h : SameOperands s s') (c : Option Nat) : dprep c s' = dprep c s := by rw [h]; rfl
theorem decompressPrep (h : SameOperands s s') (c : Option Nat) (small : ErrKind) :
    decompressPrep c small s' = decompressPrep c small s := by rw [h]; rfl

end SameOperands

/-- DST reads the same below `k`. -/
def SameDstBelow (k : Nat) (s s' : State) : Prop := ∀ a, a < k → s'.dst.get a = s.dst.get a

theorem dstByte_congr {s s' : State} {a : Nat} (h : s'.dst.get a = s.dst.get a) : s'.dstByte a = s.dstByte a := by
  rw [State.dstByte, State.dstByte, h]

/-! ### The outcomes of two runs -/

/-- The RESULT of two ended commands is the same, and so are the bytes a size says were written. -/
def SameEnd (t t' : State) : Prop :=
  t'.result = t.result ∧ ∀ a : Nat, (a : Int) < t.result.toInt → t'.dst.get a = t.dst.get a

/-- If the first run goes on to a next state, so does the second, and the two are related by `R`. -/
def Follows (R : State → State → Prop) (o o' : Host.Outcome State Fault Refusal) : Prop :=
  ∀ t, o = .next t → ∃ t', o' = .next t' ∧ R t t'

theorem follows_next {R : State → State → Prop} {t t' : State} (h : R t t') : Follows R (.next t) (.next t') := by
  intro u hu
  cases hu
  exact ⟨t', rfl, h⟩

theorem follows_refused (R : State → State → Prop) (r : Refusal) (o : Host.Outcome State Fault Refusal) :
    Follows R (.refused r) o := fun _ h => by cases h

theorem follows_fault (R : State → State → Prop) (f : Fault) (o : Host.Outcome State Fault Refusal) :
    Follows R (.fault f) o := fun _ h => by cases h

theorem toInt_ofNat_le (v : Nat) : (BitVec.ofNat 64 v).toInt ≤ v := by
  rw [BitVec.toInt_ofNat', Int.bmod_def]
  omega

theorem sameEnd_finish {v : Nat} {t t' : State} (h : SameDstBelow v t t') : SameEnd (finish v t) (finish v t') :=
  ⟨rfl, fun a ha => h a (Int.ofNat_lt.1 (lt_of_lt_of_le ha (toInt_ofNat_le v)))⟩

/-- An error's code is no size, so no byte is claimed. -/
theorem sameEnd_raiseError (k : ErrKind) (t t' : State) : SameEnd (raiseError k t) (raiseError k t') := by
  refine ⟨rfl, fun a ha => absurd ha ?_⟩
  have hneg : (BitVec.ofInt 64 k.code).toInt < 0 := by cases k <;> decide
  rw [raiseError_result]
  omega

theorem sameEnd_raiseInDecode (t t' : State) : SameEnd (raiseInDecode t) (raiseInDecode t') :=
  sameEnd_raiseError .badFormat _ _

/-! ### The encoder -/

/-- Two writers at the same place, with the same bytes written; the open control byte is one of those. -/
structure SameWriter (s s' : State) : Prop where
  outPos : s'.eng.outPos = s.eng.outPos
  bitsUsed : s'.eng.bitsUsed = s.eng.bitsUsed
  ctrlPos : s'.eng.ctrlPos = s.eng.ctrlPos
  dst : SameDstBelow s.eng.outPos s s'
  opened : s.eng.bitsUsed = 8 ∨ ∃ c, s.eng.ctrlPos = some c ∧ c < s.eng.outPos

theorem sameWriter_streamStart {s s' : State} (h : SameOperands s s') (need : Nat) :
    SameWriter (streamStart need s) (streamStart need s') where
  outPos := rfl
  bitsUsed := rfl
  ctrlPos := rfl
  opened := .inl rfl
  dst a ha := by
    have ha : a < 4 := ha
    show (s'.dst.setList 0 (ser compressOrder s'.lat.nSrc)).get a = (s.dst.setList 0 (ser compressOrder s.lat.nSrc)).get a
    rw [h.lat, get_setList, get_setList, ser_length, if_pos (by omega), if_pos (by omega)]

theorem SameWriter.putByte {s s' : State} (h : SameWriter s s') (v : Byte) : SameWriter (putByte v s) (putByte v s') where
  outPos := congrArg (· + 1) h.outPos
  bitsUsed := h.bitsUsed
  ctrlPos := h.ctrlPos
  opened := h.opened.imp_right fun ⟨c, hc, hlt⟩ => ⟨c, hc, Nat.lt_succ_of_lt hlt⟩
  dst a ha := by
    have ha : a < s.eng.outPos + 1 := ha
    rw [get_putByte, get_putByte, h.outPos]
    by_cases hx : a = s.eng.outPos
    · rw [if_pos hx, if_pos hx]
    · rw [if_neg hx, if_neg hx, h.dst a (by omega)]

theorem SameWriter.putBit {s s' : State} (h : SameWriter s s') (b : Bool) : SameWriter (putBit b s) (putBit b s') := by
  by_cases h8 : s.eng.bitsUsed = 8
  · have h8' : s'.eng.bitsUsed = 8 := h.bitsUsed.trans h8
    have he := (putBit_opens b s h8 0).1
    have he' := (putBit_opens b s' h8' 0).1
    refine ⟨?_, ?_, ?_, fun a ha => ?_, .inr ⟨s.eng.outPos, ?_, ?_⟩⟩
    · rw [he, he', h.outPos]
    · rw [he, he']
    · rw [he, he', h.outPos]
    · rw [he] at ha
      simp only at ha
      rw [(putBit_opens b s h8 a).2, (putBit_opens b s' h8' a).2, h.outPos]
      by_cases hx : a = s.eng.outPos
      · rw [if_pos hx, if_pos hx]
      · rw [if_neg hx, if_neg hx, h.dst a (by omega)]
    · rw [he]
    · rw [he]
      exact Nat.lt_succ_self _
  · obtain ⟨c, hc, hlt⟩ := h.opened.resolve_left h8
    have h8' : s'.eng.bitsUsed ≠ 8 := h.bitsUsed ▸ h8
    have hc' : s'.eng.ctrlPos = some c := h.ctrlPos.trans hc
    have he := (putBit_fills b s c h8 hc 0).1
    have he' := (putBit_fills b s' c h8' hc' 0).1
    refine ⟨?_, ?_, ?_, fun a ha => ?_, .inr ⟨c, ?_, ?_⟩⟩
    · rw [he, he', h.outPos]
    · rw [he, he', h.bitsUsed]
    · rw [he, he', h.ctrlPos]
    · rw [he] at ha
      rw [(putBit_fills b s c h8 hc a).2, (putBit_fills b s' c h8' hc' a).2, dstByte_congr (h.dst c hlt), h.bitsUsed,
        h.dst a ha]
    · rw [he]
      exact hc
    · rw [he]
      exact hlt

theorem SameWriter.sendItems {s s' : State} (h : SameWriter s s') (items : List ChannelItem) :
    SameWriter (sendItems items s) (sendItems items s') := by
  induction items generalizing s s' with
  | nil => exact h
  | cons i is ih =>
    cases i with
    | bit b => exact ih (h.putBit b)
    | byte v => exact ih (h.putByte v)

/-- Both runs write the same stream (R145, R241). -/
theorem writeStream_same {s s' : State} (h : SameOperands s s') (finder : (Nat → Byte) → Nat → Nat → Decision)
    (need : Nat) :
    (writeStream finder need s').eng.outPos = (writeStream finder need s).eng.outPos ∧
    SameDstBelow (writeStream finder need s).eng.outPos (writeStream finder need s) (writeStream finder need s') := by
  obtain ⟨k, hk⟩ := writeStream_eq_sendItems finder need s
  obtain ⟨k', hk'⟩ := writeStream_eq_sendItems finder need s'
  have hw := (sameWriter_streamStart h need).sendItems (streamItems finder s.srcByte s.nSrc)
  rw [hk, hk', h.srcByte, h.nSrc]
  exact ⟨hw.outPos, hw.dst⟩

/-- KS_XOR keeps the agreement: the keystream is the key's and the parameters' (R103). -/
theorem SameDstBelow.ksXor {n : Nat} {s s' : State} (h : SameDstBelow n s s') (hp : s'.params = s.params) (k : Nat)
    (key : Word) (e : ByteOrder) : SameDstBelow n (ksXor k key e s) (ksXor k key e s') := by
  intro a ha
  rw [get_ksXor, get_ksXor, dstByte_congr (h a ha), h a ha, hp]

theorem follows_compressWith {s s' : State} (h : SameOperands s s') (finder : (Nat → Byte) → Nat → Nat → Decision) :
    Follows SameEnd (compressWith finder s) (compressWith finder s') := by
  unfold compressWith
  rw [h.overlapping, h.compressPrep]
  split
  · exact follows_refused _ _ _
  · split
    · exact follows_next (sameEnd_raiseError _ _ _)
    · rename_i need _
      obtain ⟨hout, hdst⟩ := writeStream_same h finder need
      have ho := h.worked (worked_writeStream finder need s) (worked_writeStream finder need s')
      simp only [encryptAndFinish, hout, ho.lat]
      exact follows_next (sameEnd_finish (hdst.ksXor ho.params _ _ _))

theorem follows_execCrypt {s s' : State} (h : SameOperands s s') : Follows SameEnd (execCrypt s) (execCrypt s') := by
  unfold execCrypt
  rw [h.overlapping, h.cryptPrep, h.nSrc, h.lat]
  split
  · exact follows_refused _ _ _
  · split
    · exact follows_next (sameEnd_raiseError _ _ _)
    · have ho := h.worked (worked_copySrc s.nSrc 0 s) (worked_copySrc s.nSrc 0 s')
      have hd : SameDstBelow s.nSrc (copySrc s.nSrc 0 s) (copySrc s.nSrc 0 s') := by
        intro a ha
        rw [get_copySrc, get_copySrc, if_pos (by omega), if_pos (by omega), h.srcByte]
      exact follows_next (sameEnd_finish (hd.ksXor ho.params _ _ _))

/-- The commands that write no byte have the same RESULT; DST is not theirs, and their RESULT says nothing of it. -/
theorem follows_execDecompressSize {s s' : State} (h : SameOperands s s') :
    Follows (fun t t' => t'.result = t.result) (execDecompressSize s) (execDecompressSize s') := by
  unfold execDecompressSize
  rw [h.dprep]
  split <;> exact follows_next rfl

/-! ### The decoder -/

/-- Two runs inside DECODE at the same token, with the same output so far. -/
structure SameDecode (s s' : State) : Prop where
  operands : SameOperands s s'
  busy : s.busy = true
  busy' : s'.busy = true
  reader : s'.eng.reader = s.eng.reader
  outPos : s'.eng.outPos = s.eng.outPos
  n : s'.eng.n = s.eng.n
  e : s'.eng.e = s.eng.e
  enc : s'.eng.enc = s.eng.enc
  dst : SameDstBelow s.eng.outPos s s'

namespace SameDecode

variable {s s' : State}

theorem declared (h : SameDecode s s') : s'.declared = s.declared := by rw [State.declared, h.n]; rfl

theorem plainByte (h : SameDecode s s') : s'.plainByte = s.plainByte := by
  funext i
  rw [State.plainByte, State.plainByte, h.operands.nSrc, h.operands.srcByte, h.operands.params, h.operands.lat, h.e, h.enc]

theorem setReader (h : SameDecode s s') (r : Reader) :
    SameDecode { s with eng := { s.eng with reader := r } } { s' with eng := { s'.eng with reader := r } } :=
  ⟨h.operands.worked rfl rfl, h.busy, h.busy', rfl, h.outPos, h.n, h.e, h.enc, h.dst⟩

theorem putByte (h : SameDecode s s') (v : Byte) : SameDecode (putByte v s) (putByte v s') where
  operands := h.operands.worked (worked_putByte v s) (worked_putByte v s')
  busy := h.busy
  busy' := h.busy'
  reader := h.reader
  outPos := congrArg (· + 1) h.outPos
  n := h.n
  e := h.e
  enc := h.enc
  dst a ha := by
    have ha : a < s.eng.outPos + 1 := ha
    rw [get_putByte, get_putByte, h.outPos]
    by_cases hx : a = s.eng.outPos
    · rw [if_pos hx, if_pos hx]
    · rw [if_neg hx, if_neg hx, h.dst a (by omega)]

/-- A copy reads its bytes from the output so far, which the two runs share; at distance 0 it would read a byte that
neither has written (R83). -/
theorem copyBytes {d : Nat} (hd : 1 ≤ d) (k : Nat) (h : SameDecode s s') (hle : d ≤ s.eng.outPos) :
    SameDecode (copyBytes d k s) (copyBytes d k s') := by
  induction k generalizing s s' with
  | zero => exact h
  | succ k ih =>
    have hbyte : s'.dstByte (s'.eng.outPos - d) = s.dstByte (s.eng.outPos - d) := by
      rw [h.outPos]
      exact dstByte_congr (h.dst _ (by omega))
    rw [Machine.copyBytes, Machine.copyBytes, hbyte]
    exact ih (h.putByte _) (Nat.le_succ_of_le hle)

end SameDecode

/-- Two runs of DECODE go on alike, or have ended alike. -/
def SameProgress (t t' : State) : Prop := SameDecode t t' ∨ (t.busy = false ∧ t'.busy = false ∧ SameEnd t t')

theorem sameProgress_raiseInDecode (t t' : State) : SameProgress (raiseInDecode t) (raiseInDecode t') :=
  .inr ⟨rfl, rfl, sameEnd_raiseInDecode t t'⟩

theorem follows_copyExec {s s' : State} (h : SameDecode s s') {d : Nat} (hd : 1 ≤ d) (l : Nat) :
    Follows SameProgress (copyExec d l s) (copyExec d l s') := by
  unfold copyExec
  rw [h.outPos, h.declared, h.operands.cap]
  split
  · exact follows_next (sameProgress_raiseInDecode _ _)
  · split
    · exact follows_next (sameProgress_raiseInDecode _ _)
    · split
      · exact follows_fault _ _ _
      · exact follows_next (.inl (h.copyBytes hd l (by omega)))

theorem follows_execWire {s s' : State} (h : SameDecode s s') (w : WireToken) :
    Follows SameProgress (execWire w s) (execWire w s') := by
  have long : ∀ (dx : BitVec 13) (l : Nat), Follows SameProgress
      (if longDistance dx = 0 then .next (raiseInDecode s) else copyExec (longDistance dx) l s)
      (if longDistance dx = 0 then .next (raiseInDecode s') else copyExec (longDistance dx) l s') := by
    intro dx l
    split
    · exact follows_next (sameProgress_raiseInDecode _ _)
    · exact follows_copyExec h (by omega) l
  cases w with
  | lit b =>
    simp only [execWire, execLit, h.outPos, h.declared, h.operands.cap]
    split
    · exact follows_next (sameProgress_raiseInDecode _ _)
    · split
      · exact follows_fault _ _ _
      · exact follows_next (.inl (h.putByte b))
  | scopy l x =>
    have hx : x.toNat < 256 := x.isLt
    exact follows_copyExec h (by unfold shortDistance; omega) _
  | eos =>
    simp only [execWire, execEos, h.outPos, h.declared]
    split
    · exact follows_next (sameProgress_raiseInDecode _ _)
    · rename_i heq
      have hd : SameDstBelow s.declared s s' := not_not.1 heq ▸ h.dst
      exact follows_next (.inr ⟨rfl, rfl, sameEnd_finish hd⟩)
  | lcopy dx lf => exact long dx _
  | lcopyx dx e => exact long dx _

theorem follows_tokenStep {s s' : State} (h : SameDecode s s') :
    Follows SameProgress (tokenStep s) (tokenStep s') := by
  unfold tokenStep fetchToken
  rw [h.plainByte, h.reader]
  cases decodeToken s.plainByte s.eng.reader with
  | error e => exact follows_next (sameProgress_raiseInDecode _ _)
  | ok p => exact follows_execWire (h.setReader p.2) p.1

theorem follows_decodeLoop {s s' : State} (h : SameProgress s s') (fuel : Nat) :
    Follows SameProgress (decodeLoop fuel s) (decodeLoop fuel s') := by
  induction fuel generalizing s s' with
  | zero => exact follows_next h
  | succ fuel ih =>
    obtain hd | ⟨hb, hb', -⟩ := id h
    · rw [decodeLoop, decodeLoop, if_pos hd.busy, if_pos hd.busy']
      have hstep := follows_tokenStep hd
      cases hu : tokenStep s with
      | next u =>
        obtain ⟨u', hu', hp⟩ := hstep u hu
        rw [hu']
        exact ih hp
      | fault f => exact follows_fault _ _ _
      | refused r => exact follows_refused _ _ _
    · rw [decodeLoop, decodeLoop, if_neg (by simp [hb]), if_neg (by simp [hb'])]
      exact follows_next h

theorem sameDecode_enterDecode {s s' : State} (h : SameOperands s s') (e : ByteOrder) (n : Word) :
    SameDecode (enterDecode (setStream e n s)) (enterDecode (setStream e n s')) where
  operands := .of_eqs h.lat (by rw [h]; rfl) h.params (by rw [h]; rfl) (by rw [h]; rfl)
  busy := rfl
  busy' := rfl
  reader := rfl
  outPos := rfl
  n := rfl
  e := rfl
  enc := congrArg Latches.keyEn h.lat
  dst _ ha := absurd ha (Nat.not_lt_zero _)

/-- Both runs of DECODE end, and they end alike (R318). -/
theorem follows_decode {s s' : State} (h : SameOperands s s') (e : ByteOrder) (n : Word)
    (hcap : (setStream e n s).declared ≤ (setStream e n s).cap) :
    Follows SameEnd (decode (setStream e n s)) (decode (setStream e n s')) := by
  intro t ht
  have hb : t.busy = false := by
    obtain ⟨r, u, hu, -⟩ := endsWell_decode hcap
    cases ht.symm.trans hu
    rfl
  have hn : (setStream e n s').nSrc = (setStream e n s).nSrc := h.nSrc
  have hloop := follows_decodeLoop (.inl (sameDecode_enterDecode h e n)) ((setStream e n s).nSrc + 1)
  obtain ⟨t', ht', hd | ⟨-, -, hend⟩⟩ := hloop t ht
  · exact absurd hd.busy (by simp [hb])
  · exact ⟨t', by rw [decode, hn]; exact ht', hend⟩

theorem follows_decompressWith {s s' : State} (h : SameOperands s s') (c : Option Nat) (small : ErrKind) :
    Follows SameEnd (decompressWith c small s) (decompressWith c small s') := by
  unfold decompressWith
  rw [h.overlapping, h.decompressPrep]
  split
  · exact follows_refused _ _ _
  · cases hp : decompressPrep c small s with
    | error k => exact follows_next (sameEnd_raiseError _ _ _)
    | ok p => exact follows_decode h p.1 p.2 (decompressPrep_ok hp).2

/-! ### Every command -/

/-- What O54 says of two ended runs of an instruction. -/
def SameOutcome (i : Instr) (t t' : State) : Prop :=
  t'.result = t.result ∧
    (i ∈ [.compress, .archive, .decompressBuf, .decompressBuf2, .crypt] → 0 ≤ t.result.toInt →
      ∀ a : Nat, (a : Int) < t.result.toInt → t'.dst.get a = t.dst.get a)

theorem Follows.imp {R Q : State → State → Prop} {o o' : Host.Outcome State Fault Refusal} (h : Follows R o o')
    (hi : ∀ t t', R t t' → Q t t') : Follows Q o o' := fun t ht =>
  let ⟨t', ht', hr⟩ := h t ht
  ⟨t', ht', hi t t' hr⟩

theorem follows_exec {i : Instr} (hi : isCommand i = true) {s s' : State} (h : SameOperands s s') :
    Follows (SameOutcome i) (exec i s) (exec i s') := by
  have writes : ∀ t t', SameEnd t t' → SameOutcome i t t' := fun t t' ⟨hr, hd⟩ => ⟨hr, fun _ _ => hd⟩
  have silent : i ∉ [.compress, .archive, .decompressBuf, .decompressBuf2, .crypt] →
      ∀ t t' : State, t'.result = t.result → SameOutcome i t t' := fun hn t t' hr => ⟨hr, fun hm => absurd hm hn⟩
  cases i with
  | lit b => cases hi
  | scopy l x => cases hi
  | eos => cases hi
  | lcopy dx lf => cases hi
  | lcopyx dx e => cases hi
  | compress => exact (follows_compressWith h find).imp writes
  | archive => exact (follows_compressWith h findLiteral).imp writes
  | maxCompressedSize =>
    refine follows_next (silent (by decide) _ _ ?_)
    rw [finish_result, finish_result, h.nSrc]
  | decompressBuf => exact (follows_decompressWith h none .outOfMemory).imp writes
  | decompressBuf2 =>
    have hf := follows_decompressWith h (some s.cap) .bufferTooSmall
    simp only [exec, execDecompressBuf2, h.cap]
    exact hf.imp writes
  | decompressSize => exact (follows_execDecompressSize h).imp (silent (by decide))
  | crypt => exact (follows_execCrypt h).imp writes
  | illegalCmd code => exact follows_next (silent (by simp) _ _ rfl)

/-- Settles O54: two runs of a command on the same operands end alike, whatever else the states hold. -/
theorem commandsDependOnlyOnTheirOperands : Obligations.CommandsDependOnlyOnTheirOperands :=
  fun _ _ _ t hi hlat hsrc hparams hsrcBase hdstBase ht =>
    follows_exec hi (.of_eqs hlat hsrc hparams hsrcBase hdstBase) t ht

end Sys2Proof.Machine
end

section
/-! SUPPORT. The live operand registers (O7): every operation inside an instruction commutes with replacing them, since
it reads the latches and writes other fields. -/

namespace Sys2Proof.Machine

/-- Values for the operand registers (R23 to R27). -/
structure OperandRegs where
  endian : Word
  key : Word
  keyEn : Bool
  srcLen : Word
  dstCap : Word

/-- The operand registers replaced, in one argument. -/
def State.replaceOperands (s : State) (o : OperandRegs) : State :=
  s.withOperands o.endian o.key o.keyEn o.srcLen o.dstCap

@[simp] theorem replaceOperands_eng (s : State) (o : OperandRegs) : (s.replaceOperands o).eng = s.eng := rfl

/-- Replacing the operand registers before `f` is replacing them after it. -/
def Oblivious (f : State → State) : Prop :=
  ∀ (s : State) (o : OperandRegs), f (s.replaceOperands o) = (f s).replaceOperands o

/-- The same of an outcome, as O7 says it. -/
def LatchesOnly (f : State → Host.Outcome State Fault Refusal) : Prop :=
  ∀ (s : State) (o : OperandRegs), f (s.replaceOperands o) = mapNext (fun t => t.replaceOperands o) (f s)

/-- A value read from the state that no operand register is part of. -/
def Unseen {α : Sort*} (c : State → α) : Prop :=
  ∀ (s : State) (o : OperandRegs), c (s.replaceOperands o) = c s

theorem Oblivious.comp {f g : State → State} (hg : Oblivious g) (hf : Oblivious f) : Oblivious (fun s => g (f s)) :=
  fun s o => by simp only [hf s, hg (f s)]

theorem Oblivious.ite {c : State → Prop} [DecidablePred c] {f g : State → State} (hc : Unseen c) (hf : Oblivious f)
    (hg : Oblivious g) : Oblivious (fun s => if c s then f s else g s) := by
  intro s o
  simp only [hc s, hf s, hg s]
  split <;> rfl

/-- An operation with a parameter read from the state. -/
theorem Oblivious.read {α : Type} {c : State → α} {f : α → State → State} (hc : Unseen c) (hf : ∀ a, Oblivious (f a)) :
    Oblivious (fun s => f (c s) s) := by
  intro s o
  simp only [hc s, hf (c s) s]

theorem LatchesOnly.next {f : State → State} (hf : Oblivious f) : LatchesOnly (fun s => .next (f s)) :=
  fun s o => congrArg Host.Outcome.next (hf s o)

theorem LatchesOnly.comp {f : State → Host.Outcome State Fault Refusal} {g : State → State} (hf : LatchesOnly f)
    (hg : Oblivious g) : LatchesOnly (fun s => f (g s)) :=
  fun s o => by simp only [hg s, hf (g s)]

theorem LatchesOnly.ite {c : State → Prop} [DecidablePred c] {f g : State → Host.Outcome State Fault Refusal}
    (hc : Unseen c) (hf : LatchesOnly f) (hg : LatchesOnly g) : LatchesOnly (fun s => if c s then f s else g s) := by
  intro s o
  simp only [hc s, hf s, hg s]
  split <;> rfl

theorem LatchesOnly.read {α : Type} {c : State → α} {f : α → State → Host.Outcome State Fault Refusal} (hc : Unseen c)
    (hf : ∀ a, LatchesOnly (f a)) : LatchesOnly (fun s => f (c s) s) := by
  intro s o
  simp only [hc s, hf (c s) s]

theorem latchesOnly_fault (f : Fault) : LatchesOnly (fun _ => .fault f) := fun _ _ => rfl
theorem latchesOnly_refused (r : Refusal) : LatchesOnly (fun _ => .refused r) := fun _ _ => rfl

/-! ### The keystream and the encoder -/

theorem oblivious_xorDst (a : Nat) (ks : List Byte) : Oblivious (xorDst a ks) := by
  induction ks generalizing a with
  | nil => exact fun _ _ => rfl
  | cons k ks ih => exact (ih (a + 1)).comp (f := fun s => s.setDst a (s.dstByte a ^^^ k)) fun _ _ => rfl

theorem oblivious_xorGroup (e : ByteOrder) (a count : Nat) : Oblivious (xorGroup e a count) :=
  .read (c := fun s => (ser e (ksNext s).1).take count) (f := fun w s => xorDst a w (ksNext s).2)
    (fun _ _ => rfl) fun w => (oblivious_xorDst a w).comp fun _ _ => rfl

theorem oblivious_xorGroups (e : ByteOrder) (k g : Nat) : Oblivious (xorGroups e k g) := by
  induction k generalizing g with
  | zero => exact fun _ _ => rfl
  | succ k ih => exact (ih (g + 1)).comp (oblivious_xorGroup e (4 * g) 4)

theorem oblivious_ksXor (k : Nat) (key : Word) (e : ByteOrder) : Oblivious (ksXor k key e) := by
  have hg : Oblivious (fun s => xorGroups e (k / 4) 0 (ksInit key s)) :=
    (oblivious_xorGroups e (k / 4) 0).comp fun _ _ => rfl
  exact .ite (c := fun _ => k % 4 = 0) (fun _ _ => rfl) hg ((oblivious_xorGroup e _ _).comp hg)

theorem oblivious_putBit (b : Bool) : Oblivious (putBit b) := by
  have ho : Oblivious openControl :=
    .ite (c := fun s => s.eng.bitsUsed = 8) (fun _ _ => rfl) (fun _ _ => rfl) (fun _ _ => rfl)
  intro s o
  simp only [putBit, ho s, replaceOperands_eng]
  split <;> rfl

theorem oblivious_sendItems (items : List ChannelItem) : Oblivious (sendItems items) := by
  induction items with
  | nil => exact fun _ _ => rfl
  | cons i is ih =>
    cases i with
    | bit b => exact ih.comp (oblivious_putBit b)
    | byte v => exact ih.comp (f := putByte v) fun _ _ => rfl

theorem oblivious_encodeDecision (t : Decision) : Oblivious (encodeDecision t) := by
  rw [funext (encodeDecision_eq_sendItems t)]
  exact oblivious_sendItems _

theorem oblivious_parseFrom (finder : (Nat → Byte) → Nat → Nat → Decision) (fuel : Nat) :
    Oblivious (parseFrom finder fuel) := by
  induction fuel with
  | zero => exact fun _ _ => rfl
  | succ fuel ih =>
    have hstep : Oblivious (fun s => moveP (finder s.srcByte s.nSrc s.eng.p).advance
        (encodeDecision (finder s.srcByte s.nSrc s.eng.p) s)) :=
      .read (c := fun s => finder s.srcByte s.nSrc s.eng.p) (f := fun t s => moveP t.advance (encodeDecision t s))
        (fun _ _ => rfl) fun t => .comp (fun _ _ => rfl) (oblivious_encodeDecision t)
    exact .ite (c := fun s => s.eng.p < s.nSrc) (fun _ _ => rfl) (ih.comp hstep) (fun _ _ => rfl)

theorem oblivious_writeStream (finder : (Nat → Byte) → Nat → Nat → Decision) (need : Nat) :
    Oblivious (writeStream finder need) := by
  have hparse : Oblivious (fun s => parseFrom finder s.nSrc (streamStart need s)) :=
    .read (c := State.nSrc) (f := fun n s => parseFrom finder n (streamStart need s)) (fun _ _ => rfl)
      fun n => (oblivious_parseFrom finder n).comp fun _ _ => rfl
  exact (oblivious_sendItems WireToken.eos.items).comp hparse

theorem oblivious_encryptAndFinish : Oblivious encryptAndFinish :=
  .read (c := fun s => (s.eng.outPos, s.lat.key)) (f := fun p s => finish p.1 (ksXor p.1 p.2 compressOrder s))
    (fun _ _ => rfl) fun p => .comp (fun _ _ => rfl) (oblivious_ksXor p.1 p.2 compressOrder)

theorem oblivious_copySrc (k i : Nat) : Oblivious (copySrc k i) := by
  induction k generalizing i with
  | zero => exact fun _ _ => rfl
  | succ k ih => exact (ih (i + 1)).comp (f := fun s => s.setDst i (s.srcByte i)) fun _ _ => rfl

theorem oblivious_raiseError (k : ErrKind) : Oblivious (raiseError k) := fun _ _ => rfl
theorem oblivious_raiseInDecode : Oblivious raiseInDecode := fun _ _ => rfl

/-! ### Tokens and DECODE -/

theorem oblivious_copyBytes (d k : Nat) : Oblivious (copyBytes d k) := by
  induction k with
  | zero => exact fun _ _ => rfl
  | succ k ih => exact ih.comp (f := fun s => putByte (s.dstByte (s.eng.outPos - d)) s) fun _ _ => rfl

theorem latchesOnly_copyExec (d l : Nat) : LatchesOnly (copyExec d l) :=
  .ite (c := fun s => s.eng.outPos < d) (fun _ _ => rfl) (.next oblivious_raiseInDecode) <|
  .ite (c := fun s => s.declared < s.eng.outPos + l) (fun _ _ => rfl) (.next oblivious_raiseInDecode) <|
  .ite (c := fun s => s.cap < s.eng.outPos + l) (fun _ _ => rfl) (latchesOnly_fault _)
    (.next (oblivious_copyBytes d l))

theorem latchesOnly_execWire (w : WireToken) : LatchesOnly (execWire w) := by
  have long : ∀ (dx : BitVec 13) (l : Nat), LatchesOnly
      (fun s => if longDistance dx = 0 then .next (raiseInDecode s) else copyExec (longDistance dx) l s) := fun dx l =>
    .ite (c := fun _ => longDistance dx = 0) (fun _ _ => rfl) (.next oblivious_raiseInDecode)
      (latchesOnly_copyExec _ l)
  cases w with
  | lit b =>
    exact .ite (c := fun s => s.declared ≤ s.eng.outPos) (fun _ _ => rfl) (.next oblivious_raiseInDecode) <|
      .ite (c := fun s => s.cap ≤ s.eng.outPos) (fun _ _ => rfl) (latchesOnly_fault _)
        (.next (f := putByte b) fun _ _ => rfl)
  | scopy l x => exact latchesOnly_copyExec _ _
  | eos =>
    exact .ite (c := fun s => s.eng.outPos ≠ s.declared) (fun _ _ => rfl) (.next oblivious_raiseInDecode)
      (.next (f := fun s => finish s.declared s) fun _ _ => rfl)
  | lcopy dx lf => exact long dx (plainLength lf)
  | lcopyx dx e => exact long dx (escapeLength e)

theorem latchesOnly_tokenStep : LatchesOnly tokenStep := by
  intro s o
  have hd : decodeToken (s.replaceOperands o).plainByte (s.replaceOperands o).eng.reader =
      decodeToken s.plainByte s.eng.reader := rfl
  unfold tokenStep fetchToken
  rw [hd]
  cases decodeToken s.plainByte s.eng.reader with
  | error e => rfl
  | ok p => exact latchesOnly_execWire p.1 { s with eng := { s.eng with reader := p.2 } } o

theorem latchesOnly_decodeLoop (fuel : Nat) : LatchesOnly (decodeLoop fuel) := by
  induction fuel with
  | zero => exact .next (f := id) fun _ _ => rfl
  | succ fuel ih =>
    intro s o
    have hbusy : (s.replaceOperands o).busy = s.busy := rfl
    rw [decodeLoop, decodeLoop, hbusy, latchesOnly_tokenStep]
    split
    · cases tokenStep s with
      | next u => exact ih u o
      | fault f => rfl
      | refused r => rfl
    · rfl

theorem latchesOnly_decode : LatchesOnly decode :=
  .read (c := fun s => s.nSrc + 1) (f := fun n s => decodeLoop n (enterDecode s)) (fun _ _ => rfl)
    fun n => (latchesOnly_decodeLoop n).comp fun _ _ => rfl

/-! ### Commands -/

/-- A command's checks, and then its work `g`, or the error they raise. -/
theorem latchesOnly_checked {α : Type} {prep : State → Except ErrKind α} {f : State → Host.Outcome State Fault Refusal}
    (g : α → State → Host.Outcome State Fault Refusal) (hp : Unseen prep)
    (herr : ∀ s k, prep s = .error k → f s = .next (raiseError k s)) (hok : ∀ s a, prep s = .ok a → f s = g a s)
    (hg : ∀ a, LatchesOnly (g a)) : LatchesOnly f := by
  intro s o
  have hsame := hp s o
  cases h : prep s with
  | error k =>
    rw [herr _ k (hsame.trans h), herr s k h]
    rfl
  | ok a => rw [hok _ a (hsame.trans h), hok s a h, hg a]

/-- The refusal over overlapping buffers comes first (R69). -/
theorem latchesOnly_refusable {f : State → Host.Outcome State Fault Refusal} (hf : LatchesOnly f) :
    LatchesOnly (fun s => if s.overlapping then .refused .buffersOverlap else f s) :=
  .ite (c := fun s => s.overlapping = true) (fun _ _ => rfl) (latchesOnly_refused _) hf

theorem latchesOnly_compressWith (finder : (Nat → Byte) → Nat → Nat → Decision) : LatchesOnly (compressWith finder) :=
  latchesOnly_refusable <| latchesOnly_checked (prep := compressPrep)
    (fun need s => .next (encryptAndFinish (writeStream finder need s))) (fun _ _ => rfl)
    (fun _ _ h => by simp only [h]) (fun _ _ h => by simp only [h])
    fun need => .next (oblivious_encryptAndFinish.comp (oblivious_writeStream finder need))

theorem latchesOnly_decompressWith (c : Option Nat) (small : ErrKind) : LatchesOnly (decompressWith c small) :=
  latchesOnly_refusable <| latchesOnly_checked (prep := decompressPrep c small)
    (fun p s => decode (setStream p.1 p.2 s)) (fun _ _ => rfl)
    (fun _ _ h => by simp only [h]) (fun _ _ h => by simp only [h])
    fun p => latchesOnly_decode.comp fun _ _ => rfl

theorem latchesOnly_execDecompressSize : LatchesOnly execDecompressSize :=
  latchesOnly_checked (prep := dprep none) (fun p s => .next (finish p.2.toNat s)) (fun _ _ => rfl)
    (fun _ _ h => by simp only [execDecompressSize, h]) (fun _ _ h => by simp only [execDecompressSize, h])
    fun p => .next fun _ _ => rfl

theorem latchesOnly_execCrypt : LatchesOnly execCrypt := by
  have work : ∀ (e : ByteOrder) (p : Nat × Word), Oblivious (fun s => finish p.1 (ksXor p.1 p.2 e (copySrc p.1 0 s))) :=
    fun e p => .comp (g := finish p.1) (fun _ _ => rfl)
      ((oblivious_ksXor p.1 p.2 e).comp (oblivious_copySrc p.1 0))
  exact latchesOnly_refusable <| latchesOnly_checked (prep := cryptPrep)
    (fun e s => .next (finish s.nSrc (ksXor s.nSrc s.lat.key e (copySrc s.nSrc 0 s)))) (fun _ _ => rfl)
    (fun _ _ h => by simp only [h]) (fun _ _ h => by simp only [h])
    fun e => .next (.read (c := fun s => (s.nSrc, s.lat.key)) (fun _ _ => rfl) (work e))

/-- No instruction reads or writes a live operand register (R30). -/
theorem latchesOnly_exec (i : Instr) : LatchesOnly (exec i) := by
  cases i with
  | lit b => exact latchesOnly_execWire (.lit b)
  | scopy l x => exact latchesOnly_execWire (.scopy l x)
  | eos => exact latchesOnly_execWire .eos
  | lcopy dx lf => exact latchesOnly_execWire (.lcopy dx lf)
  | lcopyx dx e => exact latchesOnly_execWire (.lcopyx dx e)
  | compress => exact latchesOnly_compressWith find
  | archive => exact latchesOnly_compressWith findLiteral
  | maxCompressedSize => exact .next (f := fun s => finish (maxSize s.nSrc) s) fun _ _ => rfl
  | decompressBuf => exact latchesOnly_decompressWith none .outOfMemory
  | decompressBuf2 =>
    exact .read (c := fun s => some s.cap) (f := fun c => decompressWith c .bufferTooSmall) (fun _ _ => rfl)
      fun c => latchesOnly_decompressWith c .bufferTooSmall
  | decompressSize => exact latchesOnly_execDecompressSize
  | crypt => exact latchesOnly_execCrypt
  | illegalCmd code => exact .next (oblivious_raiseError .invalidArgument)

/-- Settles O7: every instruction commutes with replacing the operand registers. -/
theorem instructionsReadOnlyTheLatches : Obligations.InstructionsReadOnlyTheLatches :=
  fun i s endian key keyEn srcLen dstCap => latchesOnly_exec i s ⟨endian, key, keyEn, srcLen, dstCap⟩

end Sys2Proof.Machine
end

section
/-! SUPPORT. DECODE as a run of token steps (O50): with no host access to come, a step inside DECODE is a token step,
and the state it leaves is again inside DECODE, or idle. -/

namespace Sys2Proof.Machine

/-- With no host access to come, a step is the engine's move (R311). -/
theorem step_of_no_inputs {s : State} (h : s.inputs = []) : step s = engineStep s := by
  simp [step, nextMove, h]

/-- Inside DECODE the engine's move is a token step (R160). -/
theorem engineStep_insideDecode {s : State} (hbusy : s.busy = true) (hcode : s.code = none) :
    engineStep s = tokenStep s := by
  obtain ⟨-, hidle⟩ | ⟨code, hsome, -⟩ | ⟨-, -, h⟩ := engineStep_cases s
  · simp [hbusy] at hidle
  · simp [hcode] at hsome
  · exact h

theorem Appended.code {s t : State} (h : Appended s t) : t.code = s.code := by
  obtain ⟨-, -, -, ht, -⟩ := h
  rw [ht]

/-- A token step leaves no code waiting: the run stays inside DECODE until it ends (R160). -/
theorem code_tokenStep {s t : State} (hcode : s.code = none) (h : tokenStep s = .next t) : t.code = none := by
  obtain ⟨r, u, hu, ha, -⟩ | ⟨r, hu, -⟩ | ⟨r, hu⟩ | ⟨hu, -⟩ := tokenStep_cases s <;> rw [hu] at h <;> cases h
  · exact ha.code.trans hcode
  · rfl
  · rfl

theorem inputs_tokenStep {s t : State} (h : tokenStep s = .next t) : t.inputs = s.inputs := by
  rw [hostSideKept_tokenStep h]

/-- A run whose first step goes on is the run of the rest. -/
theorem run_succ {M : Host.Core} {s u : M.State} (h : M.step s = .next u) (k : Nat) : M.run (k + 1) s = M.run k u := by
  simp only [Host.Core.run, h]

/-- The iterations of DECODE are steps of the machine, one for each token (R160, log entry 10). -/
theorem decodeLoop_is_run {fuel : Nat} {s t : State} (hin : s.inputs = []) (hcode : s.code = none)
    (h : decodeLoop fuel s = .next t) : ∃ k, Host.Core.run Sys2Proof.core k s = .next t := by
  induction fuel generalizing s with
  | zero => exact ⟨0, h⟩
  | succ fuel ih =>
    unfold decodeLoop at h
    split at h
    · rename_i hbusy
      split at h
      · rename_i u hu
        obtain ⟨k, hk⟩ := ih ((inputs_tokenStep hu).trans hin) (code_tokenStep hcode hu) h
        have hstep : step s = .next u := by rw [step_of_no_inputs hin, engineStep_insideDecode hbusy hcode, hu]
        exact ⟨k + 1, (run_succ (M := Sys2Proof.core) hstep k).trans hk⟩
      · cases h
      · cases h
    · exact ⟨0, h⟩

/-- A decompression command whose checks pass is DECODE (R244, R245). -/
theorem decompressWith_of_prep {c : Option Nat} {small : ErrKind} {s : State} {e : ByteOrder} {n : Word}
    (ho : s.overlapping = false) (hp : decompressPrep c small s = .ok (e, n)) :
    decompressWith c small s = decode (setStream e n s) := by
  simp [decompressWith, ho, hp]

theorem decompressWith_is_run {c : Option Nat} {small : ErrKind} {s t : State} {e : ByteOrder} {n : Word}
    (hin : s.inputs = []) (ho : s.overlapping = false) (hp : decompressPrep c small s = .ok (e, n))
    (h : decompressWith c small s = .next t) :
    ∃ k, Host.Core.run Sys2Proof.core k (enterDecode (setStream e n s)) = .next t := by
  rw [decompressWith_of_prep ho hp] at h
  exact decodeLoop_is_run (s := enterDecode (setStream e n s)) hin rfl h

/-- Settles O50: the loop of DECODE is a run of the machine, by induction on its fuel. -/
theorem decodeIsTheRunOfItsTokenSteps : Obligations.DecodeIsTheRunOfItsTokenSteps := by
  intro i s t e n hi hin ho h
  obtain ⟨rfl, hp⟩ | ⟨rfl, hp⟩ := hi
  · exact decompressWith_is_run hin ho hp h
  · exact decompressWith_is_run hin ho hp h

end Sys2Proof.Machine
end

section
/-! SUPPORT. How far the writer of COMPRESS and ARCHIVE gets, and which DST bytes it leaves alone (R205): a control bit
takes one bit of the stream and a payload byte eight, so the stream's length follows from the items sent; and no item
changes a byte at or beyond the `out_pos` it leaves. -/

namespace Sys2Proof.Machine

theorem DstKeptFrom.mono {j k : Nat} {s t : State} (h : DstKeptFrom j s t) (hjk : j ≤ k) : DstKeptFrom k s t :=
  fun a ha => h a (le_trans hjk ha)

theorem DstKeptFrom.trans {k : Nat} {s t u : State} (h : DstKeptFrom k s t) (h' : DstKeptFrom k t u) :
    DstKeptFrom k s u := fun a ha => (h' a ha).trans (h a ha)

theorem dstKeptFrom_of_dst_eq (k : Nat) {s t : State} (h : t.dst = s.dst) : DstKeptFrom k s t := by
  intro a _
  rw [h]

theorem dstKeptFrom_ksXor (k : Nat) (key : Word) (e : ByteOrder) (s : State) : DstKeptFrom k s (ksXor k key e s) :=
  fun a ha => (get_ksXor k key e s a).trans (if_neg (Nat.not_lt.2 ha))

theorem dstKeptFrom_copySrc (k : Nat) (s : State) : DstKeptFrom k s (copySrc k 0 s) :=
  fun a ha => (get_copySrc k 0 s a).trans (if_neg (by omega))

/-! ### The writer -/

/-- The stream bits an item takes. -/
def itemWidth : ChannelItem → Nat
  | .bit _ => 1
  | .byte _ => 8

/-- The stream bits a list of items takes. -/
def itemsWidth (items : List ChannelItem) : Nat := (items.map itemWidth).sum

theorem itemsWidth_append (is js : List ChannelItem) : itemsWidth (is ++ js) = itemsWidth is + itemsWidth js := by
  simp [itemsWidth]

/-- A writer as W_START and every item leave it: the open control byte, if any, has a bit placed and lies below
`out_pos` (R120, R121). -/
structure WriterReady (s : State) : Prop where
  used : 1 ≤ s.eng.bitsUsed
  opened : s.eng.bitsUsed = 8 ∨ ∃ c, s.eng.ctrlPos = some c ∧ c < s.eng.outPos

/-- The writer has gone from `s` to `t` by items of width `w`, and DST from the new `out_pos` on is as before. An open
control byte counts with all its places in `out_pos` and with its places in use in `bits_used`. -/
structure Sent (w : Nat) (s t : State) : Prop where
  ready : WriterReady t
  width : 8 * t.eng.outPos + t.eng.bitsUsed = 8 * s.eng.outPos + s.eng.bitsUsed + w
  grows : s.eng.outPos ≤ t.eng.outPos
  kept : DstKeptFrom t.eng.outPos s t

theorem Sent.refl {s : State} (h : WriterReady s) : Sent 0 s s := ⟨h, rfl, le_refl _, fun _ _ => rfl⟩

theorem Sent.trans {v w : Nat} {s t u : State} (h : Sent v s t) (k : Sent w t u) : Sent (v + w) s u :=
  ⟨k.ready, by rw [k.width, h.width, Nat.add_assoc], le_trans h.grows k.grows, (h.kept.mono k.grows).trans k.kept⟩

theorem sent_putByte {s : State} (h : WriterReady s) (v : Byte) : Sent 8 s (putByte v s) where
  ready := ⟨h.used, h.opened.imp_right fun ⟨c, hc, hlt⟩ => ⟨c, hc, Nat.lt_succ_of_lt hlt⟩⟩
  width := by rw [putByte_eng]; simp only; omega
  grows := Nat.le_succ _
  kept a ha := (get_putByte v s a).trans (if_neg (Nat.ne_of_gt ha))

/-- A bit reserves a control byte where none is open, or takes the next place of the open one (R121). -/
theorem sent_putBit {s : State} (h : WriterReady s) (b : Bool) : Sent 1 s (putBit b s) := by
  by_cases h8 : s.eng.bitsUsed = 8
  · have he := (putBit_opens b s h8 0).1
    refine ⟨⟨?_, .inr ⟨s.eng.outPos, ?_⟩⟩, ?_, ?_, fun a ha => ?_⟩ <;> simp only [he] at *
    · exact le_refl 1
    · exact ⟨trivial, Nat.lt_succ_self _⟩
    · omega
    · exact Nat.le_succ _
    · exact (putBit_opens b s h8 a).2.trans (if_neg (Nat.ne_of_gt ha))
  · obtain ⟨c, hc, hlt⟩ := h.opened.resolve_left h8
    have he := (putBit_fills b s c h8 hc 0).1
    refine ⟨⟨?_, .inr ⟨c, ?_⟩⟩, ?_, ?_, fun a ha => ?_⟩ <;> simp only [he] at *
    · exact Nat.succ_pos _
    · exact ⟨hc, hlt⟩
    · omega
    · exact le_refl _
    · exact (putBit_fills b s c h8 hc a).2.trans (if_neg (by omega))

theorem sent_sendItems {s : State} (h : WriterReady s) (items : List ChannelItem) :
    Sent (itemsWidth items) s (sendItems items s) := by
  induction items generalizing s with
  | nil => exact .refl h
  | cons i is ih =>
    have hi : Sent (itemWidth i) s (sendItem s i) := by
      cases i with
      | bit b => exact sent_putBit h b
      | byte v => exact sent_putByte h v
    exact hi.trans (ih hi.ready)

/-! ### The decisions -/

/-- A copy that the decision function finds covers at least two source bytes, none of them past the source's end
(R142). -/
def CopiesWithin (finder : (Nat → Byte) → Nat → Nat → Decision) : Prop :=
  ∀ (src : Nat → Byte) (n p d l : Nat), finder src n p = .copy d l → 2 ≤ l ∧ l ≤ n - p

theorem matchLenFrom_le (src : Nat → Byte) (p d left l : Nat) : matchLenFrom src p d left l ≤ left + l := by
  induction left generalizing l with
  | zero => exact Nat.le_add_left _ _
  | succ left ih =>
    rw [matchLenFrom]
    split
    · exact le_trans (ih (l + 1)) (by omega)
    · exact Nat.le_add_left _ _

theorem matchLen_le (src : Nat → Byte) (n p d : Nat) : matchLen src n p d ≤ n - p :=
  le_trans (matchLenFrom_le src p d _ 0) (Nat.min_le_right _ _)

theorem findFrom_le (src : Nat → Byte) (n p left d bestD : Nat) {bestL : Nat} (h : bestL ≤ n - p) :
    (findFrom src n p left d bestL bestD).1 ≤ n - p := by
  induction left generalizing d bestL bestD with
  | zero => exact h
  | succ left ih =>
    simp only [findFrom]
    split
    · exact ih _ _ (matchLen_le src n p d)
    · exact ih _ _ h

theorem copiesWithin_find : CopiesWithin find := by
  intro src n p d l h
  have hle := findFrom_le src n p (min p window) 1 0 (Nat.zero_le (n - p))
  simp only [find] at h
  split at h
  · rename_i hmin
    cases h
    exact ⟨hmin, hle⟩
  · cases h

theorem copiesWithin_findLiteral : CopiesWithin findLiteral := fun _ _ _ _ _ h => by cases h

/-- No form of a token takes more than nine stream bits for a source byte it covers (R205). -/
theorem itemsWidth_channelItems_le {t : Decision} (h : ∀ d l, t = .copy d l → 2 ≤ l) :
    itemsWidth t.channelItems ≤ 9 * t.advance := by
  cases t with
  | literal b => exact le_refl 9
  | copy d l =>
    have hl : 2 ≤ l := h d l rfl
    simp only [Decision.channelItems, Decision.advance]
    split
    · show 12 ≤ 9 * l; omega
    · split
      · show 18 ≤ 9 * l; omega
      · rename_i hlong
        have h9 : 9 ≤ l := Nat.not_le.1 hlong
        show 26 ≤ 9 * l; omega

theorem itemsWidth_decisions_le {finder : (Nat → Byte) → Nat → Nat → Decision} (h : CopiesWithin finder)
    (src : Nat → Byte) (n fuel p : Nat) :
    itemsWidth ((decisions finder src n fuel p).flatMap Decision.channelItems) ≤ 9 * (n - p) := by
  induction fuel generalizing p with
  | zero => exact Nat.zero_le _
  | succ fuel ih =>
    rw [decisions]
    split
    · rename_i hp
      have hone := itemsWidth_channelItems_le fun d l ht => (h src n p d l ht).1
      have hrest := ih (p + (finder src n p).advance)
      have hin : (finder src n p).advance ≤ n - p := by
        cases ht : finder src n p with
        | literal b => show 1 ≤ n - p; omega
        | copy d l => exact (h src n p d l ht).2
      rw [List.flatMap_cons, itemsWidth_append]
      omega
    · exact Nat.zero_le _

theorem itemsWidth_streamItems_le {finder : (Nat → Byte) → Nat → Nat → Decision} (h : CopiesWithin finder)
    (src : Nat → Byte) (n : Nat) : itemsWidth (streamItems finder src n) ≤ 9 * n + 12 := by
  have hd := itemsWidth_decisions_le h src n n 0
  have heos : itemsWidth WireToken.eos.items = 12 := rfl
  rw [streamItems, itemsWidth_append]
  omega

/-! ### The stream -/

theorem writerReady_streamStart (need : Nat) (s : State) : WriterReady (streamStart need s) :=
  ⟨show 1 ≤ 8 by decide, .inl rfl⟩

theorem dstKeptFrom_streamStart (need : Nat) (s : State) : DstKeptFrom 4 s (streamStart need s) := by
  intro a ha
  show (s.dst.setList 0 (ser compressOrder s.lat.nSrc)).get a = s.dst.get a
  rw [get_setList, ser_length, if_neg (by omega)]

/-- The stream ends within MAX_SIZE (R203, R205), and DST beyond it is as before. -/
theorem writeStream_within {finder : (Nat → Byte) → Nat → Nat → Decision} (h : CopiesWithin finder) (need : Nat)
    (s : State) :
    (writeStream finder need s).eng.outPos ≤ maxSize s.nSrc ∧
    DstKeptFrom (writeStream finder need s).eng.outPos s (writeStream finder need s) := by
  obtain ⟨k, hk⟩ := writeStream_eq_sendItems finder need s
  have hsent := sent_sendItems (writerReady_streamStart need s) (streamItems finder s.srcByte s.nSrc)
  rw [hk]
  refine ⟨?_, ((dstKeptFrom_streamStart need s).mono hsent.grows).trans hsent.kept⟩
  have hwidth : 8 * _ + _ = 8 * 4 + 8 + _ := hsent.width
  have hused := hsent.ready.used
  have hitems := itemsWidth_streamItems_le h s.srcByte s.nSrc
  simp only [moveP_eng, maxSize, hdrBytes]
  omega

end Sys2Proof.Machine
end

section
/-! SUPPORT. No instruction writes at or beyond `cap` (O52): COMPRESS and ARCHIVE stay within MAX_SIZE, which their
checks hold against `cap`, CRYPT within `n_src`, and DECODE and its tokens within `N` and `cap`. -/

namespace Sys2Proof.Machine

theorem Appended.dstKeptFrom_cap {s t : State} (h : Appended s t) : DstKeptFrom s.cap s t := by
  obtain ⟨-, -, hcap, -, hkeep, -⟩ := h
  exact fun a ha => hkeep a (.inr (le_trans hcap ha))

theorem Appended.cap {s t : State} (h : Appended s t) : t.cap = s.cap := by
  obtain ⟨-, -, -, ht, -⟩ := h
  rw [ht]; rfl

/-- A BadFormat inside DECODE frees bytes below `cap` only (R52, R251). -/
theorem dstKeptFrom_raiseInDecode (s : State) : DstKeptFrom s.cap s (raiseInDecode s) :=
  fun a ha => (get_setPrefix _ _ _ a).trans (if_neg (Nat.not_lt.2 (le_trans (Nat.min_le_right _ _) ha)))

theorem dstKeptFrom_execWire {w : WireToken} {s t : State} (h : execWire w s = .next t) : DstKeptFrom s.cap s t := by
  obtain ⟨u, hu, ha⟩ | ⟨hu, -⟩ | hu | ⟨hu, -⟩ := execWire_cases w s <;> rw [hu] at h <;> cases h
  · exact ha.dstKeptFrom_cap
  · exact dstKeptFrom_of_dst_eq _ rfl
  · exact dstKeptFrom_raiseInDecode s

/-- DECODE has appended output within `cap` and then ended, or raised BadFormat (R160). -/
theorem dstKeptFrom_decode {s t : State} (hcap : s.declared ≤ s.cap) (h : decode s = .next t) :
    DstKeptFrom s.cap s t := by
  obtain ⟨r, r', u, ha, hend⟩ := decode_ends hcap
  have hkept : DstKeptFrom s.cap s u := ha.dstKeptFrom_cap
  obtain ⟨hend, -⟩ | hend := hend <;> obtain rfl := Host.Outcome.next.inj (h.symm.trans hend)
  · exact hkept.trans (dstKeptFrom_of_dst_eq _ rfl)
  · have hraise := dstKeptFrom_raiseInDecode { u with eng := { u.eng with reader := r' } }
    have hc : State.cap { u with eng := { u.eng with reader := r' } } = s.cap := ha.cap
    rw [hc] at hraise
    exact hkept.trans hraise

theorem dstKeptFrom_encryptAndFinish (s : State) : DstKeptFrom s.eng.outPos s (encryptAndFinish s) :=
  dstKeptFrom_ksXor s.eng.outPos s.lat.key compressOrder s

theorem dstKeptFrom_compressWith {finder : (Nat → Byte) → Nat → Nat → Decision} (hf : CopiesWithin finder) {s t : State}
    (h : compressWith finder s = .next t) : DstKeptFrom s.cap s t := by
  obtain ⟨hu, -⟩ | ⟨k, -, hu⟩ | ⟨-, hp, hu⟩ := compressWith_cases finder s <;> rw [hu] at h
  · cases h
  · cases h
    exact dstKeptFrom_of_dst_eq _ rfl
  · obtain rfl := Host.Outcome.next.inj h
    obtain ⟨-, -, -, hcap⟩ | ⟨he, -⟩ | ⟨he, -⟩ := compressPrep_cases s
    · obtain ⟨hsize, hkept⟩ := writeStream_within hf (maxSize s.nSrc) s
      exact (hkept.trans (dstKeptFrom_encryptAndFinish _)).mono (le_trans hsize hcap)
    · cases hp.symm.trans he
    · cases hp.symm.trans he

theorem dstKeptFrom_decompressWith {c : Option Nat} {small : ErrKind} {s t : State}
    (h : decompressWith c small s = .next t) : DstKeptFrom s.cap s t := by
  obtain ⟨hu, -⟩ | ⟨k, -, hu⟩ | ⟨e, n, -, hp, hu⟩ := decompressWith_cases c small s <;> rw [hu] at h
  · cases h
  · cases h
    exact dstKeptFrom_of_dst_eq _ rfl
  · exact dstKeptFrom_decode (s := setStream e n s) (decompressPrep_ok hp).2 h

theorem dstKeptFrom_execCrypt {s t : State} (h : execCrypt s = .next t) : DstKeptFrom s.cap s t := by
  obtain ⟨hu, -⟩ | ⟨k, -, hu⟩ | ⟨e, -, hp, hu⟩ := execCrypt_cases s <;> rw [hu] at h <;> cases h
  · exact dstKeptFrom_of_dst_eq _ rfl
  · obtain ⟨-, -, -, hcap⟩ | ⟨he, -⟩ | ⟨he, -⟩ := cryptPrep_cases s
    · exact ((dstKeptFrom_copySrc s.nSrc s).trans (dstKeptFrom_ksXor _ _ _ _)).mono hcap
    · cases hp.symm.trans he
    · cases hp.symm.trans he

/-- DECOMPRESS_SIZE ends without a write, with the length or with an error (R246). -/
theorem dst_execDecompressSize {s t : State} (h : execDecompressSize s = .next t) : t.dst = s.dst := by
  unfold execDecompressSize at h
  split at h <;> cases h <;> rfl

/-- No instruction of the table writes at or beyond `cap` (R52). -/
theorem dstKeptFrom_exec {i : Instr} {s t : State} (h : exec i s = .next t) : DstKeptFrom s.cap s t := by
  cases i with
  | lit b => exact dstKeptFrom_execWire (w := .lit b) h
  | scopy l x => exact dstKeptFrom_execWire (w := .scopy l x) h
  | eos => exact dstKeptFrom_execWire (w := .eos) h
  | lcopy dx lf => exact dstKeptFrom_execWire (w := .lcopy dx lf) h
  | lcopyx dx e => exact dstKeptFrom_execWire (w := .lcopyx dx e) h
  | compress => exact dstKeptFrom_compressWith copiesWithin_find h
  | archive => exact dstKeptFrom_compressWith copiesWithin_findLiteral h
  | maxCompressedSize => cases h; exact dstKeptFrom_of_dst_eq _ rfl
  | decompressBuf => exact dstKeptFrom_decompressWith h
  | decompressBuf2 => exact dstKeptFrom_decompressWith h
  | decompressSize => exact dstKeptFrom_of_dst_eq _ (dst_execDecompressSize h)
  | crypt => exact dstKeptFrom_execCrypt h
  | illegalCmd code => cases h; exact dstKeptFrom_of_dst_eq _ rfl

/-- Settles O52: the writes of each instruction end within `cap`, by cases on the instruction. -/
theorem noInstructionWritesBeyondCapacity : Obligations.NoInstructionWritesBeyondCapacity := by
  refine ⟨fun i s t h => dstKeptFrom_exec h, fun i s t code hi h => ?_⟩
  simp only [List.mem_cons, List.not_mem_nil, or_false] at hi
  obtain rfl | rfl | rfl := hi
  · cases h; rfl
  · exact dst_execDecompressSize h
  · cases h; rfl

end Sys2Proof.Machine
end

section
/-! SUPPORT. The host's accesses to SRC and DST as steps (O9): refused while BUSY, a fault beyond any buffer, and
otherwise a write or a read at the offset asked for. -/

namespace Sys2Proof.Machine

/-- Every host access but LETRUN and WAIT is the host's own move, whatever the engine does (R20). -/
theorem step_hostAccess {s : State} {op : HostOp} {rest : List HostOp} (h : s.inputs = op :: rest)
    (hrun : op ≠ .letRun := by simp) (hwait : op ≠ .wait := by simp) : step s = hostAccess op { s with inputs := rest } := by
  unfold step nextMove
  rw [h]
  cases op with
  | letRun => exact absurd rfl hrun
  | wait => exact absurd rfl hwait
  | writeReg _ _ => rfl
  | readReg _ => rfl
  | writeSrc _ _ => rfl
  | writeDst _ _ => rfl
  | readSrc _ => rfl
  | readDst _ => rfl
  | place _ _ => rfl
  | reset => rfl

theorem bufferAccess_busy {s : State} (h : s.busy = true) (offset count : Nat) (after : State) :
    bufferAccess offset count after s = .refused .bufferAccessWhileBusy := if_pos h

theorem bufferAccess_within {s : State} (h : s.busy = false) {offset count : Nat} (hr : offset + count ≤ 0xFFFFFFFF)
    (after : State) : bufferAccess offset count after s = .next after := by
  simp [bufferAccess, h, maxBufferBytes, Nat.not_lt.2 hr]

theorem bufferAccess_beyond {s : State} (h : s.busy = false) {offset count : Nat} (hr : 0xFFFFFFFF < offset + count)
    (after : State) : bufferAccess offset count after s = .fault .noSuchOffset := by
  simp [bufferAccess, h, maxBufferBytes, hr]

/-- An access to a buffer's bytes is the host's own move, one `bufferAccess`. -/
theorem step_buffer {s : State} {op : HostOp} {rest : List HostOp} {k : Nat} (h : s.inputs = op :: rest)
    (hk : op.bufferReach = some k) :
    ∃ offset count after, offset + count = k ∧ step s = bufferAccess offset count after { s with inputs := rest } := by
  obtain ⟨offset, count, after, hsum, ha⟩ := hostAccess_buffer hk { s with inputs := rest }
  refine ⟨offset, count, after, hsum, (step_hostAccess h ?_ ?_).trans ha⟩ <;> rintro rfl <;> cases hk

/-- While BUSY the host is refused the buffers (R64, R315). -/
theorem step_buffer_busy {s : State} {op : HostOp} {rest : List HostOp} {k : Nat} (h : s.inputs = op :: rest)
    (hk : op.bufferReach = some k) (hbusy : s.busy = true) : step s = .refused .bufferAccessWhileBusy := by
  obtain ⟨offset, count, after, -, hs⟩ := step_buffer h hk
  exact hs.trans (bufferAccess_busy hbusy offset count after)

/-- Beyond any buffer an access is a fault (R50, R51). -/
theorem step_buffer_beyond {s : State} {op : HostOp} {rest : List HostOp} {k : Nat} (h : s.inputs = op :: rest)
    (hk : op.bufferReach = some k) (hidle : s.busy = false) (hr : 0xFFFFFFFF < k) :
    step s = .fault .noSuchOffset := by
  obtain ⟨offset, count, after, rfl, hs⟩ := step_buffer h hk
  exact hs.trans (bufferAccess_beyond hidle hr after)

theorem step_place_busy {s : State} {a b : Nat} {rest : List HostOp} (h : s.inputs = .place a b :: rest)
    (hbusy : s.busy = true) : step s = .refused .bufferAccessWhileBusy := by
  rw [step_hostAccess h]
  exact if_pos hbusy

theorem step_place_idle {s : State} {a b : Nat} {rest : List HostOp} (h : s.inputs = .place a b :: rest)
    (hidle : s.busy = false) : step s = .next { s with inputs := rest, srcBase := a, dstBase := b } := by
  rw [step_hostAccess h]
  exact if_neg (by simp [hidle])

theorem step_writeSrc {s : State} {o : Nat} {bytes : List Byte} {rest : List HostOp}
    (h : s.inputs = .writeSrc o bytes :: rest) (hidle : s.busy = false) (hr : o + bytes.length ≤ 0xFFFFFFFF) :
    step s = .next { s with inputs := rest, src := s.src.setList o bytes } :=
  (step_hostAccess h).trans (bufferAccess_within hidle hr _)

theorem step_writeDst {s : State} {o : Nat} {bytes : List Byte} {rest : List HostOp}
    (h : s.inputs = .writeDst o bytes :: rest) (hidle : s.busy = false) (hr : o + bytes.length ≤ 0xFFFFFFFF) :
    step s = .next { s with inputs := rest, dst := s.dst.setList o bytes } :=
  (step_hostAccess h).trans (bufferAccess_within hidle hr _)

theorem step_readSrc {s : State} {o : Nat} {rest : List HostOp} (h : s.inputs = .readSrc o :: rest)
    (hidle : s.busy = false) (hr : o < 0xFFFFFFFF) :
    step s = .next { s with inputs := rest, lastRead := (s.srcByte o).setWidth 32 } :=
  (step_hostAccess h).trans (bufferAccess_within hidle hr _)

theorem step_readDst {s : State} {o : Nat} {rest : List HostOp} (h : s.inputs = .readDst o :: rest)
    (hidle : s.busy = false) (hr : o < 0xFFFFFFFF) :
    step s = .next { s with inputs := rest, lastRead := (s.dstByte o).setWidth 32 } :=
  (step_hostAccess h).trans (bufferAccess_within hidle hr _)

/-- Settles O9, one lemma for each kind of access; the bytes written are read back by `get_setList`. -/
theorem bufferAccessesOfTheHost : Obligations.BufferAccessesOfTheHost := by
  refine ⟨fun s op rest h hbusy hop => ?_, fun s a b rest h hidle => step_place_idle h hidle,
    fun s o bytes rest h hidle hr => ⟨_, step_writeSrc h hidle hr, get_setList s.src o bytes⟩,
    fun s o bytes rest h hidle hr => ⟨_, step_writeDst h hidle hr, get_setList s.dst o bytes⟩,
    fun s o bytes rest h hidle hr => ?_,
    fun s o rest hidle hr => ⟨fun h => step_readSrc h hidle hr, fun h => step_readDst h hidle hr⟩,
    fun s o rest h hidle hr => ?_⟩
  · obtain ⟨o, b, rfl⟩ | ⟨o, b, rfl⟩ | ⟨o, rfl⟩ | ⟨o, rfl⟩ | ⟨a, b, rfl⟩ := hop
    · exact step_buffer_busy h rfl hbusy
    · exact step_buffer_busy h rfl hbusy
    · exact step_buffer_busy h rfl hbusy
    · exact step_buffer_busy h rfl hbusy
    · exact step_place_busy h hbusy
  · obtain h | h := h <;> exact step_buffer_beyond h rfl hidle hr
  · obtain h | h := h <;> exact step_buffer_beyond h rfl hidle (Nat.lt_succ_of_le hr)

end Sys2Proof.Machine
end

section
/-! SUPPORT. COPY_EXEC in closed form (O27): byte `k` of a copy is the byte `distance` back, the last `distance` bytes of
the output repeated. -/

namespace Sys2Proof.Machine

theorem dstByte_putByte (v : Byte) (s : State) (x : Nat) :
    (putByte v s).dstByte x = if x = s.eng.outPos then v else s.dstByte x :=
  dstByte_setDst s s.eng.outPos v x

/-- Byte `k` of a copy: after the first byte it is byte `k - 1` of a copy from one further on, whose source is the byte
just written once per `distance` bytes (R67, R166). -/
theorem get_copyBytes {d len k : Nat} {s : State} (hd : 1 ≤ d) (hout : d ≤ s.eng.outPos) (hk : k < len) :
    (copyBytes d len s).dst.get (s.eng.outPos + k) = some (s.dstByte (s.eng.outPos - d + k % d)) := by
  induction len generalizing k s with
  | zero => exact absurd hk (Nat.not_lt_zero k)
  | succ len ih =>
    rw [copyBytes]
    cases k with
    | zero =>
      rw [get_copyBytes_outside _ _ _ _ (.inl (Nat.lt_succ_self s.eng.outPos)), get_putByte, Nat.add_zero,
        if_pos rfl, Nat.zero_mod, Nat.add_zero]
    | succ k =>
      have hrest := ih (s := putByte (s.dstByte (s.eng.outPos - d)) s) (Nat.le_succ_of_le hout) (Nat.lt_of_succ_lt_succ hk)
      have hpos : s.eng.outPos + (k + 1) = s.eng.outPos + 1 + k := by omega
      have hsucc : (k + 1) % d = (k % d + 1) % d := (Nat.mod_add_mod k d 1).symm
      have hmod : k % d < d := Nat.mod_lt k hd
      simp only [putByte_eng, dstByte_putByte] at hrest
      rw [hpos, hrest, hsucc]
      by_cases hwrap : k % d + 1 = d
      · rw [if_pos (by omega), hwrap, Nat.mod_self, Nat.add_zero]
      · have hsource : s.eng.outPos + 1 - d + k % d = s.eng.outPos - d + (k % d + 1) := by omega
        have hinside : (k % d + 1) % d = k % d + 1 := Nat.mod_eq_of_lt (by omega)
        rw [if_neg (by omega), hinside, hsource]

/-- A copy within its limits is carried out (R166). -/
theorem copyExec_within {d len : Nat} {s : State} (hout : d ≤ s.eng.outPos) (hlen : s.eng.outPos + len ≤ s.declared)
    (hcap : s.declared ≤ s.cap) : copyExec d len s = .next (copyBytes d len s) := by
  rw [copyExec, if_neg (by omega), if_neg (by omega), if_neg (by omega)]

/-- Nothing but DST and `out_pos` changes in a copy. -/
theorem copyBytes_frame (d len : Nat) (s : State) :
    copyBytes d len s =
      { s with dst := (copyBytes d len s).dst, eng := { s.eng with outPos := s.eng.outPos + len } } := by
  have hw := worked_copyBytes d len s
  rw [Worked, eng_copyBytes] at hw
  exact hw

/-- Settles O27: each of the three formats is COPY_EXEC of its own distance and length. -/
theorem copyTokensRepeatEarlierOutput : Obligations.CopyTokensRepeatEarlierOutput := by
  intro i d len s hi hd hout hlen hcap
  have hcopy : exec i s = copyExec d len s := by
    obtain ⟨l, x, rfl, rfl, rfl⟩ | ⟨dx, lf, rfl, rfl, rfl⟩ | ⟨dx, e, rfl, rfl, rfl⟩ := hi
    · rfl
    · exact if_neg (Nat.ne_of_gt hd)
    · exact if_neg (Nat.ne_of_gt hd)
  refine ⟨(copyBytes d len s).dst, ?_, fun k hk => get_copyBytes hd hout hk,
    fun a ha => get_copyBytes_outside d len s a ha⟩
  rw [hcopy, copyExec_within hout hlen hcap, ← copyBytes_frame]

end Sys2Proof.Machine
end

section
/-! SUPPORT. Where the machine stops (O10, O57): a command that uses both buffers while they share an address is refused
(R69), and every other stop is at a host access; no token stops in a state with the invariant. -/

namespace Sys2Proof.Machine

/-! ### Commands over overlapping buffers -/

theorem overlapping_of_shared {s : State} {x : Nat} (hsrc : s.srcBase ≤ x ∧ x < s.srcBase + s.nSrc)
    (hdst : s.dstBase ≤ x ∧ x < s.dstBase + s.cap) : s.overlapping = true := by
  simp only [State.overlapping, Bool.and_eq_true, decide_eq_true_eq]
  omega

/-- Settles O10: each of the five commands tests for a shared address first. -/
theorem overlappingBuffersAreRefused : Obligations.OverlappingBuffersAreRefused := by
  intro i s x hi hsrc hdst
  have ho : s.overlapping = true := overlapping_of_shared hsrc hdst
  simp only [List.mem_cons, List.not_mem_nil, or_false] at hi
  obtain rfl | rfl | rfl | rfl | rfl := hi <;> exact if_pos ho

theorem compressWith_refused {finder : (Nat → Byte) → Nat → Nat → Decision} {s : State} {r : Refusal}
    (h : compressWith finder s = .refused r) : r = .buffersOverlap ∧ s.overlapping = true := by
  obtain ⟨hu, ho⟩ | ⟨k, -, hu⟩ | ⟨-, -, hu⟩ := compressWith_cases finder s <;> rw [hu] at h <;> cases h
  exact ⟨rfl, ho⟩

theorem decompressWith_refused {c : Option Nat} {small : ErrKind} {s : State} {r : Refusal}
    (h : decompressWith c small s = .refused r) : r = .buffersOverlap ∧ s.overlapping = true := by
  obtain ⟨hu, ho⟩ | ⟨k, -, hu⟩ | ⟨e, n, -, hp, hu⟩ := decompressWith_cases c small s <;> rw [hu] at h
  · cases h
    exact ⟨rfl, ho⟩
  · cases h
  · obtain ⟨_, _, hend, -⟩ := endsWell_decode (s := setStream e n s) (decompressPrep_ok hp).2
    cases h.symm.trans hend

theorem execCrypt_refused {s : State} {r : Refusal} (h : execCrypt s = .refused r) :
    r = .buffersOverlap ∧ s.overlapping = true := by
  obtain ⟨hu, ho⟩ | ⟨k, -, hu⟩ | ⟨e, -, -, hu⟩ := execCrypt_cases s <;> rw [hu] at h <;> cases h
  exact ⟨rfl, ho⟩

/-- The only refusal of a command is R69's. -/
theorem command_refused {i : Instr} (hi : isCommand i = true) {s : State} {r : Refusal} (h : exec i s = .refused r) :
    r = .buffersOverlap ∧ s.overlapping = true ∧ usesBothBuffers i = true := by
  have both : r = .buffersOverlap ∧ s.overlapping = true → usesBothBuffers i = true →
      r = .buffersOverlap ∧ s.overlapping = true ∧ usesBothBuffers i = true := fun ⟨hr, ho⟩ hu => ⟨hr, ho, hu⟩
  cases i with
  | lit b => cases hi
  | scopy l x => cases hi
  | eos => cases hi
  | lcopy dx lf => cases hi
  | lcopyx dx e => cases hi
  | compress => exact both (compressWith_refused h) rfl
  | archive => exact both (compressWith_refused h) rfl
  | maxCompressedSize => cases h
  | decompressBuf => exact both (decompressWith_refused h) rfl
  | decompressBuf2 => exact both (decompressWith_refused h) rfl
  | decompressSize =>
    obtain ⟨_, _, hend, -⟩ := endsWell_execDecompressSize s
    cases h.symm.trans hend
  | crypt => exact both (execCrypt_refused h) rfl
  | illegalCmd code => cases h

/-! ### The engine -/

theorem command_not_fault {i : Instr} (hi : isCommand i = true) (s : State) (f : Fault) : exec i s ≠ .fault f := by
  intro h
  obtain hu | ⟨_, _, hu, -⟩ := endsWell_exec hi s <;> cases h.symm.trans hu

/-- A token step leaves DST only where `N` is above `cap` (R52). -/
theorem tokenStep_fault {s : State} {f : Fault} (h : tokenStep s = .fault f) : s.cap < s.declared := by
  obtain ⟨_, _, hu, -⟩ | ⟨_, hu, -⟩ | ⟨_, hu⟩ | ⟨-, hlt⟩ := tokenStep_cases s
  case inr.inr.inr => exact hlt
  all_goals cases h.symm.trans hu

theorem tokenStep_not_refused (s : State) (r : Refusal) : tokenStep s ≠ .refused r := by
  intro h
  obtain ⟨_, _, hu, -⟩ | ⟨_, hu, -⟩ | ⟨_, hu⟩ | ⟨hu, -⟩ := tokenStep_cases s <;> cases h.symm.trans hu

/-- The engine never leaves DST: inside DECODE the invariant holds `N` within `cap`. -/
theorem engineStep_not_fault {s : State} (hinv : Inv s) (f : Fault) : engineStep s ≠ .fault f := by
  intro h
  obtain ⟨hu, -⟩ | ⟨code, -, -, hu⟩ | ⟨hcode, hbusy, hu⟩ := engineStep_cases s <;> rw [hu] at h
  · cases h
  · exact command_not_fault (isCommand_decodeCommand code) _ f h
  · exact absurd (hinv.declaredInCap hbusy hcode) (Nat.not_le.2 (tokenStep_fault h))

theorem engineStep_refused {s : State} {r : Refusal} (h : engineStep s = .refused r) :
    r = .buffersOverlap ∧ runsOverlapped s = true := by
  obtain ⟨hu, -⟩ | ⟨code, hcode, hbusy, hu⟩ | ⟨-, -, hu⟩ := engineStep_cases s <;> rw [hu] at h
  · cases h
  · obtain ⟨hr, ho, hboth⟩ := command_refused (isCommand_decodeCommand code) h
    have ho : s.overlapping = true := ho
    exact ⟨hr, by simp [runsOverlapped, hbusy, ho, hcode, hboth]⟩
  · exact absurd h (tokenStep_not_refused s r)

/-! ### The host -/

/-- An access to no byte of a buffer goes on, or is a refused reset, or places the buffers while BUSY. -/
theorem hostAccess_other {op : HostOp} (h : op.bufferReach = none) (s : State) :
    (∃ t, hostAccess op s = .next t) ∨
    (hostAccess op s = .refused .buffersOverlap ∧ runsOverlapped s = true) ∨
    (hostAccess op s = .refused .bufferAccessWhileBusy ∧ s.busy = true ∧ ∃ a b, op = .place a b) := by
  cases op with
  | writeReg offset v => exact .inl ⟨_, rfl⟩
  | readReg offset => exact .inl ⟨_, rfl⟩
  | wait => exact .inl ⟨_, rfl⟩
  | letRun => exact .inl ⟨_, rfl⟩
  | writeSrc offset bytes => cases h
  | writeDst offset bytes => cases h
  | readSrc offset => cases h
  | readDst offset => cases h
  | place a b =>
    by_cases hbusy : s.busy = true
    · exact .inr (.inr ⟨if_pos hbusy, hbusy, a, b, rfl⟩)
    · exact .inl ⟨_, if_neg hbusy⟩
  | reset =>
    obtain ⟨hu, ho⟩ | ⟨t, hu, -⟩ := resetBlock_cases s
    · exact .inr (.inl ⟨hu, ho⟩)
    · exact .inl ⟨t, hu⟩

theorem hostAccess_fault {op : HostOp} {s : State} {f : Fault} (h : hostAccess op s = .fault f) :
    f = .noSuchOffset ∧ s.busy = false ∧ ∃ k, op.bufferReach = some k ∧ 0xFFFFFFFF < k := by
  cases hk : op.bufferReach with
  | none =>
    obtain ⟨_, hu⟩ | ⟨hu, -⟩ | ⟨hu, -⟩ := hostAccess_other hk s <;> cases h.symm.trans hu
  | some k =>
    obtain ⟨offset, count, after, rfl, ha⟩ := hostAccess_buffer hk s
    obtain ⟨hu, -⟩ | ⟨hu, hidle, hr⟩ | ⟨hu, -⟩ := bufferAccess_cases offset count after s <;>
      cases h.symm.trans (ha.trans hu)
    exact ⟨rfl, hidle, _, rfl, hr⟩

theorem hostAccess_refused {op : HostOp} {s : State} {r : Refusal} (h : hostAccess op s = .refused r) :
    (r = .buffersOverlap ∧ runsOverlapped s = true) ∨
    (r = .bufferAccessWhileBusy ∧ s.busy = true ∧ (op.bufferReach ≠ none ∨ ∃ a b, op = .place a b)) := by
  cases hk : op.bufferReach with
  | none =>
    obtain ⟨_, hu⟩ | ⟨hu, ho⟩ | ⟨hu, hbusy, hplace⟩ := hostAccess_other hk s <;> cases h.symm.trans hu
    · exact .inl ⟨rfl, ho⟩
    · exact .inr ⟨rfl, hbusy, .inr hplace⟩
  | some k =>
    obtain ⟨offset, count, after, -, ha⟩ := hostAccess_buffer hk s
    obtain ⟨hu, hbusy⟩ | ⟨hu, -⟩ | ⟨hu, -⟩ := bufferAccess_cases offset count after s <;>
      cases h.symm.trans (ha.trans hu)
    exact .inr ⟨rfl, hbusy, .inl (by simp)⟩

/-! ### A step -/

theorem step_fault {s : State} {f : Fault} (hinv : Inv s) (h : step s = .fault f) :
    f = .noSuchOffset ∧ s.busy = false ∧
      ∃ op rest k, s.inputs = op :: rest ∧ op.bufferReach = some k ∧ 0xFFFFFFFF < k := by
  obtain ⟨rest, hu, -⟩ | ⟨op, rest, hin, hu⟩ | ⟨rest, -, -, -, hu⟩ := step_cases s <;> rw [hu] at h
  · exact absurd h (engineStep_not_fault (hinv.setInputs rest) f)
  · obtain ⟨hf, hidle, k, hk, hr⟩ := hostAccess_fault h
    exact ⟨hf, hidle, op, rest, k, hin, hk, hr⟩
  · cases h

theorem step_refused {s : State} {r : Refusal} (h : step s = .refused r) :
    (r = .buffersOverlap ∧ runsOverlapped s = true) ∨
    (r = .bufferAccessWhileBusy ∧ s.busy = true ∧
      ∃ op rest, s.inputs = op :: rest ∧ (op.bufferReach ≠ none ∨ ∃ a b, op = .place a b)) := by
  obtain ⟨rest, hu, -⟩ | ⟨op, rest, hin, hu⟩ | ⟨rest, -, -, -, hu⟩ := step_cases s <;> rw [hu] at h
  · exact .inl (engineStep_refused (s := { s with inputs := rest }) h)
  · obtain ho | ⟨hr, hbusy, hop⟩ := hostAccess_refused h
    · exact .inl ho
    · exact .inr ⟨hr, hbusy, op, rest, hin, hop⟩
  · cases h

theorem overlapping_of_runsOverlapped {s : State} (h : runsOverlapped s = true) : s.overlapping = true := by
  simp only [runsOverlapped, Bool.and_eq_true] at h
  obtain ⟨⟨-, ho⟩, -⟩ := h
  exact ho

/-- Settles O57: a step stops at the host's access, or with R69's refusal, whose buffers share an address. -/
theorem stopsOnlyWhereTheHostBreaksADuty : Obligations.StopsOnlyWhereTheHostBreaksADuty :=
  ⟨fun _ _ hinv h => step_fault hinv h, fun _ _ _ h => (step_refused h).imp_left fun ⟨hr, ho⟩ =>
    ⟨hr, ho, overlapping_shares (overlapping_of_runsOverlapped ho)⟩⟩

end Sys2Proof.Machine
end

section
/-! SUPPORT. The encodings (O21, O22, O23, O24): the fields of a long copy through its word `W`, the command codes, and
the reader in front of the bytes of a channel item list, which reads back each item in turn. -/

namespace Sys2Proof

/-! ### The fields of the long copy and of the short token -/

/-- The low byte of `W` (R79). -/
theorem longWord_low (dx : BitVec 13) (lf : BitVec 3) :
    BitVec.extractLsb' 0 8 (dx ++ lf) = dx.extractLsb' 0 5 ++ lf := by
  refine BitVec.eq_of_getLsbD_eq fun i hi => ?_
  have hright : (dx.extractLsb' 0 5 ++ lf).getLsbD i =
      if i < 3 then lf.getLsbD i else (dx.extractLsb' 0 5).getLsbD (i - 3) := BitVec.getLsbD_append
  have hin : i - 3 < 5 := by omega
  rw [hright, BitVec.getLsbD_extractLsb', BitVec.getLsbD_append, BitVec.getLsbD_extractLsb']
  simp only [hi, hin, Nat.zero_add, decide_true, Bool.true_and]

/-- The high byte of `W` (R79). -/
theorem longWord_high (dx : BitVec 13) (lf : BitVec 3) :
    BitVec.extractLsb' 8 8 (dx ++ lf) = dx.extractLsb' 5 8 :=
  BitVec.extractLsb'_append_eq_of_le (by decide)

/-- The two payload bytes of a long copy are read back as its fields, side by side (R79). -/
theorem longWord_payload (dx : BitVec 13) (lf : BitVec 3) :
    longWord (dx.extractLsb' 0 5 ++ lf) (dx.extractLsb' 5 8) = dx ++ lf := by
  rw [← longWord_low, ← longWord_high dx lf, longWord,
    BitVec.extractLsb'_append_extractLsb'_eq_extractLsb' (show 8 = 0 + 8 from rfl)]
  exact BitVec.extractLsb'_eq_self

@[simp] theorem longDx_append (dx : BitVec 13) (lf : BitVec 3) : longDx (dx ++ lf) = dx :=
  BitVec.extractLsb'_append_eq_left

@[simp] theorem longLf_append (dx : BitVec 13) (lf : BitVec 3) : longLf (dx ++ lf) = lf :=
  BitVec.extractLsb'_append_eq_right

theorem ofBool_append_ofBool (l : BitVec 2) : BitVec.ofBool (l.getLsbD 1) ++ BitVec.ofBool (l.getLsbD 0) = l := by
  revert l; decide

/-- The control bits of an SCOPY are read back as its length field, unless the pattern is EndOfStream (R78, R81). -/
theorem shortToken_of_wellFormed {l : BitVec 2} {x : Byte} (h : (Instr.scopy l x).wellFormed = true) :
    shortToken (l.getLsbD 1) (l.getLsbD 0) x = .scopy l x := by
  rw [shortToken, if_neg, ofBool_append_ofBool]
  rintro ⟨h1, h0, rfl⟩
  have hl := ofBool_append_ofBool l
  rw [h1, h0] at hl
  subst hl
  exact absurd h (by decide)

/-- What the short form reads is well formed: the sentinel test comes first (R81, R84). -/
theorem wellFormed_shortToken (l1 l0 : Bool) (x : Byte) : (shortToken l1 l0 x).toInstr.wellFormed = true := by
  unfold shortToken
  split
  · rfl
  · rename_i h
    revert h
    cases l1 <;> cases l0 <;> simp [WireToken.toInstr, Instr.wellFormed]

/-! ### Command words -/

/-- An illegal command is well formed exactly when its code names no command (R72). -/
theorem wellFormed_illegalCmd {code : Word} :
    (Instr.illegalCmd code).wellFormed = true ↔ code.toNat = 0 ∨ 7 < code.toNat := by
  simp [Instr.wellFormed, ← BitVec.toNat_inj]

/-- A code is read as the illegal command, or it is one of 1 to 7 and names a command (R71, R72). -/
theorem decodeCommand_cases (w : Word) :
    (decodeCommand w = .illegalCmd w ∧ (w.toNat = 0 ∨ 7 < w.toNat)) ∨
    ((decodeCommand w).wellFormed = true ∧ decodeCommand w ≠ .illegalCmd w ∧ 1 ≤ w.toNat ∧ w.toNat ≤ 7) := by
  unfold decodeCommand
  split
  case h_8 h1 h2 h3 h4 h5 h6 h7 =>
    have hcode : w.toNat = 0 ∨ 7 < w.toNat := by
      by_contra hc
      obtain h | h | h | h | h | h | h : w.toNat = 1 ∨ w.toNat = 2 ∨ w.toNat = 3 ∨ w.toNat = 4 ∨ w.toNat = 5 ∨
        w.toNat = 6 ∨ w.toNat = 7 := by omega
      all_goals contradiction
    exact .inl ⟨rfl, hcode⟩
  all_goals
    rename_i hw
    exact .inr ⟨rfl, Instr.noConfusion, by omega, by omega⟩

theorem decodeCommand_eq_illegalCmd_iff (w : Word) :
    decodeCommand w = .illegalCmd w ↔ w.toNat = 0 ∨ 7 < w.toNat := by
  obtain ⟨h, hcode⟩ | ⟨-, h, h1, h7⟩ := decodeCommand_cases w
  · exact iff_of_true h hcode
  · exact iff_of_false h (by omega)

theorem wellFormed_decodeCommand (w : Word) : (decodeCommand w).wellFormed = true := by
  obtain ⟨h, hcode⟩ | ⟨hwf, -⟩ := decodeCommand_cases w
  · rw [h, wellFormed_illegalCmd]
    exact hcode
  · exact hwf

/-! ### The reader in front of the writer's bytes (R129) -/

/-- The reader stands where a writer with the items still to send would write on: its control byte in hand holds the
items' next control bits, and the stream goes on with the bytes of `pack`, up to `stop`. -/
structure Feeds (P : Nat → Option Byte) (stop : Nat) (items : List ChannelItem) (r : Reader) : Prop where
  bitsLeft_le : r.bitsLeft ≤ 8
  cur : r.cur = controlByte r.bitsLeft items >>> (8 - r.bitsLeft)
  bytes : ∀ i, i < (pack (8 - r.bitsLeft) items).length → P (r.inPos + i) = (pack (8 - r.bitsLeft) items)[i]?
  stops : r.inPos + (pack (8 - r.bitsLeft) items).length = stop

@[simp] theorem controlByte_byte (left : Nat) (v : Byte) (rest : List ChannelItem) :
    controlByte left (.byte v :: rest) = controlByte left rest := by
  cases left <;> simp [controlByte]

/-- A control byte holds nothing below the position of its first bit (R121). -/
theorem controlByte_getLsbD_low {left i : Nat} {items : List ChannelItem} (h : i < 8 - left) :
    (controlByte left items).getLsbD i = false := by
  induction left, items using controlByte.induct with
  | case1 => simp [controlByte]
  | case2 => simp [controlByte]
  | case3 left b rest ih =>
    have hrest := ih (by omega)
    have hlow : i < 7 - left := by omega
    simp [controlByte, hrest, hlow]
  | case4 left v rest ih =>
    rw [controlByte_byte]
    exact ih h

/-- The next control bit comes out first (R126, R130). -/
theorem controlByte_bit_first {left : Nat} (hleft : left ≤ 7) (b : Bool) (rest : List ChannelItem) :
    (controlByte (left + 1) (.bit b :: rest) >>> (7 - left)).getLsbD 0 = b := by
  have hk : 8 - (left + 1) = 7 - left := by omega
  have hk8 : 7 - left < 8 := by omega
  have hlow : 7 - left < 8 - left := by omega
  have hrest : (controlByte left rest)[7 - left] = false := controlByte_getLsbD_low hlow
  simp [controlByte, hk, hk8, hrest]

/-- Behind the next control bit, the control byte holds the bits that follow. -/
theorem controlByte_bit_rest {left : Nat} (hleft : left ≤ 7) (b : Bool) (rest : List ChannelItem) :
    controlByte (left + 1) (.bit b :: rest) >>> (7 - left) >>> 1 = controlByte left rest >>> (8 - left) := by
  refine BitVec.eq_of_getLsbD_eq fun i hi => ?_
  have hk : 8 - (left + 1) = 7 - left := by omega
  have hpos : 8 - left + i = 7 - left + (1 + i) := by omega
  simp [controlByte, hk, hpos]

/-- With no control bit left, the next byte becomes the control byte (R126). -/
theorem getBit_of_none_left {P : Nat → Option Byte} {r : Reader} {v : Byte} (h : r.bitsLeft = 0)
    (hv : P r.inPos = some v) : getBit P r = .ok (v.getLsbD 0, ⟨r.inPos + 1, v >>> 1, 7⟩) := by
  simp [getBit, refill, fetchByte, h, hv]

/-- With a control bit left, no byte is fetched (R126). -/
theorem getBit_of_left {P : Nat → Option Byte} {r : Reader} (h : r.bitsLeft ≠ 0) :
    getBit P r = .ok (r.cur.getLsbD 0, ⟨r.inPos, r.cur >>> 1, r.bitsLeft - 1⟩) := by
  simp [getBit, refill, h]

theorem getByte_of_some {P : Nat → Option Byte} {r : Reader} {v : Byte} (hv : P r.inPos = some v) :
    getByte P r = .ok (v, { r with inPos := r.inPos + 1 }) := by
  simp [getByte, fetchByte, hv]

/-- A decoder bind goes on with the value of a success. -/
theorem ok_bind {α β : Type} (a : α) (f : α → Except DecodeError β) : ((.ok a : Except DecodeError α) >>= f) = f a :=
  rfl

/-- A stream that holds a list's bytes from `o` on holds its first byte at `o` and the others behind it. -/
theorem bytes_cons {P : Nat → Option Byte} {o : Nat} {v : Byte} {vs : List Byte}
    (h : ∀ i, i < (v :: vs).length → P (o + i) = (v :: vs)[i]?) :
    P o = some v ∧ ∀ i, i < vs.length → P (o + 1 + i) = vs[i]? := by
  refine ⟨h 0 (Nat.succ_pos _), fun i hi => ?_⟩
  rw [Nat.add_right_comm]
  exact h (i + 1) (Nat.succ_lt_succ hi)

section
variable {P : Nat → Option Byte} {stop : Nat} {rest : List ChannelItem} {r : Reader}

/-- The reader at the start of a packed item list (R120, R125). -/
theorem feeds_rStart {items : List ChannelItem} {o : Nat}
    (h : ∀ i, i < (pack 8 items).length → P (o + i) = (pack 8 items)[i]?) :
    Feeds P (o + (pack 8 items).length) items (rStart o) :=
  ⟨Nat.zero_le 8, by simp [rStart, controlByte], h, rfl⟩

/-- In front of a payload byte the reader returns it (R127, R129). -/
theorem Feeds.reads_byte {v : Byte} (h : Feeds P stop (.byte v :: rest) r) :
    ∃ r', getByte P r = .ok (v, r') ∧ Feeds P stop rest r' := by
  obtain ⟨hle, hcur, hbytes, hstop⟩ := h
  obtain ⟨hv, hrest⟩ := bytes_cons hbytes
  rw [pack, List.length_cons] at hstop
  exact ⟨_, getByte_of_some hv, hle, by rw [hcur, controlByte_byte], hrest, by simp only; omega⟩

/-- In front of a control bit the reader returns it, whether the bit is in hand or opens a control byte (R126,
R129). -/
theorem Feeds.reads_bit {b : Bool} (h : Feeds P stop (.bit b :: rest) r) :
    ∃ r', getBit P r = .ok (b, r') ∧ Feeds P stop rest r' := by
  obtain ⟨hle, hcur, hbytes, hstop⟩ := h
  cases hl : r.bitsLeft with
  | zero =>
    rw [hl] at hbytes hstop
    obtain ⟨hv, hrest⟩ := bytes_cons hbytes
    have hstop : r.inPos + ((pack 1 rest).length + 1) = stop := hstop
    have hfirst : (controlByte 8 (.bit b :: rest)).getLsbD 0 = b := controlByte_bit_first (le_refl 7) b rest
    have hread := getBit_of_none_left hl hv
    rw [hfirst] at hread
    exact ⟨_, hread, Nat.le_succ 7, controlByte_bit_rest (le_refl 7) b rest, hrest,
      (by omega : r.inPos + 1 + (pack 1 rest).length = stop)⟩
  | succ left =>
    have hleft : left ≤ 7 := by omega
    have hused : 8 - (left + 1) = 7 - left := by omega
    have hopen : ¬ 7 - left = 8 := by omega
    have hnext : 7 - left + 1 = 8 - left := by omega
    rw [hl, hused] at hbytes hstop hcur
    simp only [pack, if_neg hopen, hnext] at hbytes hstop
    have hfirst : r.cur.getLsbD 0 = b := hcur ▸ controlByte_bit_first hleft b rest
    have hread := getBit_of_left (P := P) (r := r) (by omega)
    rw [hfirst, hl, Nat.add_sub_cancel] at hread
    exact ⟨_, hread, by simp only; omega, hcur ▸ controlByte_bit_rest hleft b rest, hbytes, hstop⟩

/-- The short form: two 0 bits, the two length bits and a payload byte (R76, R78). -/
theorem Feeds.reads_short {l1 l0 : Bool} {x : Byte}
    (h : Feeds P stop (.bit false :: .bit false :: .bit l1 :: .bit l0 :: .byte x :: rest) r) :
    ∃ r', decodeToken P r = .ok (shortToken l1 l0 x, r') ∧ Feeds P stop rest r' := by
  obtain ⟨r1, h1, f1⟩ := h.reads_bit
  obtain ⟨r2, h2, f2⟩ := f1.reads_bit
  obtain ⟨r3, h3, f3⟩ := f2.reads_bit
  obtain ⟨r4, h4, f4⟩ := f3.reads_bit
  obtain ⟨r5, h5, f5⟩ := f4.reads_byte
  exact ⟨r5, by simp [decodeToken, h1, h2, h3, h4, h5, ok_bind], f5⟩

/-- In front of a token's items the decoder returns the token, and stands in front of what follows it (R75, R82). -/
theorem Feeds.reads_token {t : WireToken} (hwf : t.toInstr.wellFormed = true) (h : Feeds P stop (t.items ++ rest) r) :
    ∃ r', decodeToken P r = .ok (t, r') ∧ Feeds P stop rest r' := by
  cases t with
  | lit b =>
    obtain ⟨r1, h1, f1⟩ := h.reads_bit
    obtain ⟨r2, h2, f2⟩ := f1.reads_byte
    exact ⟨r2, by simp [decodeToken, h1, h2, ok_bind], f2⟩
  | scopy l x => exact shortToken_of_wellFormed hwf ▸ h.reads_short
  | eos => exact h.reads_short
  | lcopy dx lf =>
    have hlf : lf ≠ 0#3 := by simpa [WireToken.toInstr, Instr.wellFormed] using hwf
    obtain ⟨r1, h1, f1⟩ := h.reads_bit
    obtain ⟨r2, h2, f2⟩ := f1.reads_bit
    obtain ⟨r3, h3, f3⟩ := f2.reads_byte
    obtain ⟨r4, h4, f4⟩ := f3.reads_byte
    exact ⟨r4, by simp [decodeToken, h1, h2, h3, h4, ok_bind, longWord_payload, hlf, pure, Except.pure], f4⟩
  | lcopyx dx e =>
    obtain ⟨r1, h1, f1⟩ := h.reads_bit
    obtain ⟨r2, h2, f2⟩ := f1.reads_bit
    obtain ⟨r3, h3, f3⟩ := f2.reads_byte
    obtain ⟨r4, h4, f4⟩ := f3.reads_byte
    obtain ⟨r5, h5, f5⟩ := f4.reads_byte
    exact ⟨r5, by simp [decodeToken, h1, h2, h3, h4, h5, ok_bind, longWord_payload], f5⟩

end

/-! ### Round trips -/

/-- A reader at the start of a token list's bytes, whatever follows them (R129). -/
theorem feeds_encodeTokens (ts : List WireToken) (trailing : List Byte) :
    Feeds (listStream (encodeTokens ts ++ trailing)) (0 + (encodeTokens ts).length) (ts.flatMap WireToken.items)
      (rStart 0) := by
  refine feeds_rStart fun i hi => ?_
  rw [Nat.zero_add]
  exact List.getElem?_append_left hi

theorem encode_toInstr (t : WireToken) : encode t.toInstr = .token (encodeTokens [t]) := by cases t <;> rfl

/-- The bytes of one token decode to it. -/
theorem decodeEncoding_encode_toInstr {t : WireToken} (hwf : t.toInstr.wellFormed = true) :
    decodeEncoding (encode t.toInstr) = some t.toInstr := by
  have hfeeds := feeds_encodeTokens [t] []
  rw [List.append_nil] at hfeeds
  obtain ⟨r', hread, -⟩ := hfeeds.reads_token hwf
  simp [encode_toInstr, decodeEncoding, hread]

/-- Settles O21: a token's bytes are read back item by item, a command word by its code. -/
theorem encodeDecodeRoundTrip : Obligations.EncodeDecodeRoundTrip := by
  intro i hwf
  cases i with
  | lit b => exact decodeEncoding_encode_toInstr (t := .lit b) hwf
  | scopy l x => exact decodeEncoding_encode_toInstr (t := .scopy l x) hwf
  | eos => exact decodeEncoding_encode_toInstr (t := .eos) hwf
  | lcopy dx lf => exact decodeEncoding_encode_toInstr (t := .lcopy dx lf) hwf
  | lcopyx dx e => exact decodeEncoding_encode_toInstr (t := .lcopyx dx e) hwf
  | illegalCmd code =>
    exact congrArg some ((decodeCommand_eq_illegalCmd_iff code).2 (wellFormed_illegalCmd.1 hwf))
  | compress | archive | maxCompressedSize | decompressBuf | decompressBuf2 | decompressSize | crypt => rfl

/-- The tokens of a list and EndOfStream are read back in turn, and reading stops there (R82, R168). -/
theorem Feeds.reads_tokens {P : Nat → Option Byte} {stop : Nat} {ts : List WireToken} (hts : Machine.properTokens ts)
    {r : Reader} (h : Feeds P stop ((ts ++ [WireToken.eos]).flatMap WireToken.items) r) :
    decodeTokens P (ts.length + 1) r = .ok (ts ++ [.eos]) := by
  induction ts generalizing r with
  | nil =>
    obtain ⟨r', hread, -⟩ := h.reads_token rfl
    simp [decodeTokens, hread]
  | cons t ts ih =>
    obtain ⟨⟨hwf, hne⟩, hrest⟩ := List.forall_mem_cons.1 hts
    obtain ⟨r', hread, hfeeds⟩ := h.reads_token hwf
    have htail := ih hrest hfeeds
    -- by `hne` the branch that stops at EndOfStream is not taken
    simp [decodeTokens, hread, htail]

/-- Settles O22, by induction on the token list. -/
theorem tokenStreamRoundTrip : Obligations.TokenStreamRoundTrip := fun ts trailing hts =>
  (feeds_encodeTokens (ts ++ [.eos]) trailing).reads_tokens hts

/-- Whatever the token decoder reads is well formed: each form's own test has been made (R76, R81, R84). -/
theorem wellFormed_decodeToken {P : Nat → Option Byte} {r r' : Reader} {t : WireToken}
    (h : decodeToken P r = .ok (t, r')) : t.toInstr.wellFormed = true := by
  unfold decodeToken at h
  obtain ⟨⟨c0, r0⟩, -, h⟩ := Machine.bind_ok h
  simp only at h
  split at h
  · obtain ⟨⟨b, r1⟩, -, h⟩ := Machine.bind_ok h
    cases h
    rfl
  · obtain ⟨⟨c1, r1⟩, -, h⟩ := Machine.bind_ok h
    simp only at h
    split at h
    · obtain ⟨⟨b0, r2⟩, -, h⟩ := Machine.bind_ok h
      obtain ⟨⟨b1, r3⟩, -, h⟩ := Machine.bind_ok h
      simp only at h
      split at h
      · obtain ⟨⟨e, r4⟩, -, h⟩ := Machine.bind_ok h
        cases h
        rfl
      · rename_i hlf
        cases h
        simpa [WireToken.toInstr, Instr.wellFormed] using hlf
    · obtain ⟨⟨l1, r2⟩, -, h⟩ := Machine.bind_ok h
      obtain ⟨⟨l0, r3⟩, -, h⟩ := Machine.bind_ok h
      obtain ⟨⟨x, r4⟩, -, h⟩ := Machine.bind_ok h
      cases h
      exact wellFormed_shortToken l1 l0 x

/-- Settles O23: the token decoder by its branches, the command codes by `decodeCommand_cases`. -/
theorem decodedInstructionsAreWellFormed : Obligations.DecodedInstructionsAreWellFormed :=
  ⟨fun _ _ _ _ h => wellFormed_decodeToken h, fun w => ⟨wellFormed_decodeCommand w, decodeCommand_eq_illegalCmd_iff w⟩⟩

/-- Settles O24: the decoder run on each of the words. -/
theorem specWordsDecode : Obligations.SpecWordsDecode :=
  ⟨rfl, rfl, rfl, rfl, rfl, rfl, rfl, rfl⟩

end Sys2Proof
end

section
/-! SUPPORT. The assembler and the encoder's choice of form (O25, O34): lengths and distances and the token fields that
hold them determine each other, a token is legal exactly when its operands are those of a statement, and the items the
encoder sends for a decision are those of the token COPY selects. -/

namespace Sys2Proof.Machine

/-! ### Operands and fields (R78 to R80) -/

theorem shortLength_ofNat {l : Nat} (h2 : 2 ≤ l) (h5 : l ≤ 5) : shortLength (BitVec.ofNat 2 (l - 2)) = l := by
  rw [shortLength, BitVec.toNat_ofNat]
  omega

theorem ofNat_shortLength (l : BitVec 2) : BitVec.ofNat 2 (shortLength l - 2) = l := by
  rw [shortLength, Nat.add_sub_cancel, BitVec.ofNat_toNat, BitVec.setWidth_eq]

theorem shortDistance_ofNat {d : Nat} (h1 : 1 ≤ d) (h256 : d ≤ 256) : shortDistance (BitVec.ofNat 8 (256 - d)) = d := by
  rw [shortDistance, BitVec.toNat_ofNat]
  omega

theorem ofNat_shortDistance (x : Byte) : BitVec.ofNat 8 (256 - shortDistance x) = x := by
  have hx := x.isLt
  have hback : 256 - shortDistance x = x.toNat := by rw [shortDistance]; omega
  rw [hback, BitVec.ofNat_toNat, BitVec.setWidth_eq]

theorem plainLength_ofNat {l : Nat} (h1 : 1 ≤ l) (h8 : l ≤ 8) : plainLength (BitVec.ofNat 3 (l - 1)) = l := by
  rw [plainLength, BitVec.toNat_ofNat]
  omega

theorem ofNat_plainLength (lf : BitVec 3) : BitVec.ofNat 3 (plainLength lf - 1) = lf := by
  rw [plainLength, Nat.add_sub_cancel, BitVec.ofNat_toNat, BitVec.setWidth_eq]

theorem escapeLength_ofNat {l : Nat} (h9 : 9 ≤ l) (h264 : l ≤ 264) : escapeLength (BitVec.ofNat 8 (l - 9)) = l := by
  rw [escapeLength, BitVec.toNat_ofNat]
  omega

theorem ofNat_escapeLength (e : Byte) : BitVec.ofNat 8 (escapeLength e - 9) = e := by
  rw [escapeLength, Nat.add_sub_cancel, BitVec.ofNat_toNat, BitVec.setWidth_eq]

theorem longDistance_dxOf {d : Nat} (h : d ≤ 8191) : longDistance (dxOf d) = d := by
  rw [longDistance, dxOf, BitVec.xor_assoc, BitVec.xor_self, BitVec.xor_zero, BitVec.toNat_ofNat]
  omega

theorem dxOf_longDistance (dx : BitVec 13) : dxOf (longDistance dx) = dx := by
  rw [dxOf, longDistance, BitVec.ofNat_toNat, BitVec.setWidth_eq, BitVec.xor_assoc, BitVec.xor_self, BitVec.xor_zero]

theorem longDistance_pos_iff {dx : BitVec 13} : 1 ≤ longDistance dx ↔ dx ≠ 0x1FFF#13 := by
  rw [Nat.one_le_iff_ne_zero, longDistance, ne_eq, ne_eq, ← BitVec.xor_eq_zero_iff, ← BitVec.toNat_inj]
  rfl

/-! ### Legal tokens -/

/-- An SCOPY is legal unless its operands are EndOfStream's (R76, R81). -/
theorem legal_scopy_iff {l : BitVec 2} {x : Byte} :
    (Instr.scopy l x).legal = true ↔ ¬ (shortLength l = 2 ∧ shortDistance x = 1) := by
  have hx := x.isLt
  have hfield : l = 0#2 ↔ shortLength l = 2 := by rw [← BitVec.toNat_inj, shortLength]; simp
  have hbyte : x = 0xFF#8 ↔ shortDistance x = 1 := by rw [← BitVec.toNat_inj, shortDistance]; simp; omega
  simp [Instr.legal, Instr.wellFormed, ← hfield, ← hbyte, ← imp_iff_not_or]

/-- An LCOPY is legal exactly when its length field does not select LCOPYX and its distance is not 0 (R76, R79). -/
theorem legal_lcopy_iff {dx : BitVec 13} {lf : BitVec 3} :
    (Instr.lcopy dx lf).legal = true ↔ 2 ≤ plainLength lf ∧ 1 ≤ longDistance dx := by
  have hfield : lf ≠ 0#3 ↔ 2 ≤ plainLength lf := by rw [ne_eq, ← BitVec.toNat_inj, plainLength]; simp; omega
  simp [Instr.legal, Instr.wellFormed, ← hfield, longDistance_pos_iff]

/-- An LCOPYX is legal exactly when its distance is not 0 (R76, R80). -/
theorem legal_lcopyx_iff {dx : BitVec 13} {e : Byte} :
    (Instr.lcopyx dx e).legal = true ↔ 1 ≤ longDistance dx := by
  simp [Instr.legal, Instr.wellFormed, longDistance_pos_iff]

/-! ### The statements of R87 -/

theorem asmScopy_some_iff {l d : Nat} {t : WireToken} :
    asmScopy l d = some t ↔ (2 ≤ l ∧ l ≤ 5 ∧ 1 ≤ d ∧ d ≤ 256 ∧ ¬ (l = 2 ∧ d = 1)) ∧
      .scopy (BitVec.ofNat 2 (l - 2)) (BitVec.ofNat 8 (256 - d)) = t := by
  rw [asmScopy, Option.ite_none_right_eq_some, Option.some_inj]

theorem asmScopy_none_iff {l d : Nat} :
    asmScopy l d = none ↔ ¬ (2 ≤ l ∧ l ≤ 5 ∧ 1 ≤ d ∧ d ≤ 256 ∧ ¬ (l = 2 ∧ d = 1)) := by
  rw [asmScopy, ite_eq_right_iff]
  simp

theorem asmLcopy_some_iff {l d : Nat} {t : WireToken} :
    asmLcopy l d = some t ↔ (2 ≤ l ∧ l ≤ 8 ∧ 1 ≤ d ∧ d ≤ 8191) ∧ .lcopy (dxOf d) (BitVec.ofNat 3 (l - 1)) = t := by
  rw [asmLcopy, Option.ite_none_right_eq_some, Option.some_inj]

theorem asmLcopy_none_iff {l d : Nat} : asmLcopy l d = none ↔ ¬ (2 ≤ l ∧ l ≤ 8 ∧ 1 ≤ d ∧ d ≤ 8191) := by
  rw [asmLcopy, ite_eq_right_iff]
  simp

theorem asmLcopyx_some_iff {l d : Nat} {t : WireToken} :
    asmLcopyx l d = some t ↔ (9 ≤ l ∧ l ≤ 264 ∧ 1 ≤ d ∧ d ≤ 8191) ∧ .lcopyx (dxOf d) (BitVec.ofNat 8 (l - 9)) = t := by
  rw [asmLcopyx, Option.ite_none_right_eq_some, Option.some_inj]

theorem asmLcopyx_none_iff {l d : Nat} : asmLcopyx l d = none ↔ ¬ (9 ≤ l ∧ l ≤ 264 ∧ 1 ≤ d ∧ d ≤ 8191) := by
  rw [asmLcopyx, ite_eq_right_iff]
  simp

theorem legal_of_asmScopy {l d : Nat} {t : WireToken} (h : asmScopy l d = some t) : t.toInstr.legal = true := by
  obtain ⟨⟨h2, h5, h1, h256, hne⟩, rfl⟩ := asmScopy_some_iff.1 h
  rw [WireToken.toInstr, legal_scopy_iff, shortLength_ofNat h2 h5, shortDistance_ofNat h1 h256]
  exact hne

theorem legal_of_asmLcopy {l d : Nat} {t : WireToken} (h : asmLcopy l d = some t) : t.toInstr.legal = true := by
  obtain ⟨⟨h2, h8, h1, hd⟩, rfl⟩ := asmLcopy_some_iff.1 h
  rw [WireToken.toInstr, legal_lcopy_iff, plainLength_ofNat (by omega) h8, longDistance_dxOf hd]
  exact ⟨h2, h1⟩

theorem legal_of_asmLcopyx {l d : Nat} {t : WireToken} (h : asmLcopyx l d = some t) : t.toInstr.legal = true := by
  obtain ⟨⟨-, -, h1, hd⟩, rfl⟩ := asmLcopyx_some_iff.1 h
  rw [WireToken.toInstr, legal_lcopyx_iff, longDistance_dxOf hd]
  exact h1

/-! ### COPY (R88, R170) -/

/-- The operands for which R170 selects the SCOPY. -/
def ShortForm (l d : Nat) : Prop := d ≤ 256 ∧ l ≤ 5 ∧ ¬ (d = 1 ∧ l = 2)

theorem asmCopy_of_short {l d : Nat} (h : ShortForm l d) : asmCopy l d = asmScopy l d := if_pos h

theorem asmCopy_of_plain {l d : Nat} (h : ¬ ShortForm l d) (h8 : l ≤ 8) : asmCopy l d = asmLcopy l d :=
  (if_neg h).trans (if_pos h8)

theorem not_shortForm_of_long {l d : Nat} (h8 : 8 < l) : ¬ ShortForm l d := fun ⟨_, h5, _⟩ => by omega

theorem asmCopy_of_long {l d : Nat} (h8 : 8 < l) : asmCopy l d = asmLcopyx l d :=
  (if_neg (not_shortForm_of_long h8)).trans (if_neg (Nat.not_le.2 h8))

/-- COPY is one of the three statements. -/
theorem asmCopy_cases (l d : Nat) :
    (ShortForm l d ∧ asmCopy l d = asmScopy l d) ∨ (¬ ShortForm l d ∧ l ≤ 8 ∧ asmCopy l d = asmLcopy l d) ∨
    (8 < l ∧ asmCopy l d = asmLcopyx l d) := by
  by_cases h8 : 8 < l
  · exact .inr (.inr ⟨h8, asmCopy_of_long h8⟩)
  · by_cases h : ShortForm l d
    · exact .inl ⟨h, asmCopy_of_short h⟩
    · exact .inr (.inl ⟨h, Nat.not_lt.1 h8, asmCopy_of_plain h (Nat.not_lt.1 h8)⟩)

theorem asmCopy_none_iff {l d : Nat} : asmCopy l d = none ↔ ¬ (2 ≤ l ∧ l ≤ 264 ∧ 1 ≤ d ∧ d ≤ 8191) := by
  obtain ⟨⟨hd, hl, hne⟩, h⟩ | ⟨-, h8, h⟩ | ⟨h8, h⟩ := asmCopy_cases l d
  · rw [h, asmScopy_none_iff]; omega
  · rw [h, asmLcopy_none_iff]; omega
  · rw [h, asmLcopyx_none_iff]; omega

theorem legal_of_asmCopy {l d : Nat} {t : WireToken} (ht : asmCopy l d = some t) : t.toInstr.legal = true := by
  obtain ⟨-, h⟩ | ⟨-, -, h⟩ | ⟨-, h⟩ := asmCopy_cases l d <;> rw [h] at ht
  · exact legal_of_asmScopy ht
  · exact legal_of_asmLcopy ht
  · exact legal_of_asmLcopyx ht

/-! ### The assembler -/

theorem legal_of_assemble {a : AsmStatement} {t : WireToken} (h : assemble a = some t) : t.toInstr.legal = true := by
  cases a with
  | lit b =>
    obtain ⟨-, ht⟩ := Option.ite_none_right_eq_some.1 h
    cases ht
    rfl
  | scopy l d => exact legal_of_asmScopy h
  | lcopy l d => exact legal_of_asmLcopy h
  | lcopyx l d => exact legal_of_asmLcopyx h
  | eos => cases h; rfl
  | copy l d => exact legal_of_asmCopy h

theorem assemble_lit_none_iff (b : Nat) : assemble (.lit b) = none ↔ ¬ b ≤ 255 := by
  rw [assemble, ite_eq_right_iff]
  simp [Nat.lt_succ_iff]

theorem assemble_lit (b : Byte) : assemble (.lit b.toNat) = some (.lit b) := by
  rw [assemble, if_pos b.isLt, BitVec.ofNat_toNat, BitVec.setWidth_eq]

theorem asmScopy_operands {l : BitVec 2} {x : Byte} (h : (Instr.scopy l x).legal = true) :
    asmScopy (shortLength l) (shortDistance x) = some (.scopy l x) := by
  have hx := x.isLt
  have hl := l.isLt
  have hne := legal_scopy_iff.1 h
  have hrange : 2 ≤ shortLength l ∧ shortLength l ≤ 5 ∧ 1 ≤ shortDistance x ∧ shortDistance x ≤ 256 := by
    simp only [shortLength, shortDistance]
    omega
  rw [asmScopy_some_iff.2 ⟨by tauto, rfl⟩, ofNat_shortLength, ofNat_shortDistance]

theorem asmLcopy_operands {dx : BitVec 13} {lf : BitVec 3} (h : (Instr.lcopy dx lf).legal = true) :
    asmLcopy (plainLength lf) (longDistance dx) = some (.lcopy dx lf) := by
  obtain ⟨h2, h1⟩ := legal_lcopy_iff.1 h
  have h8 : plainLength lf ≤ 8 := lf.isLt
  have hd : longDistance dx ≤ 8191 := Nat.le_of_lt_succ (dx ^^^ 0x1FFF#13).isLt
  rw [asmLcopy_some_iff.2 ⟨⟨h2, h8, h1, hd⟩, rfl⟩, ofNat_plainLength, dxOf_longDistance]

theorem asmLcopyx_operands {dx : BitVec 13} {e : Byte} (h : (Instr.lcopyx dx e).legal = true) :
    asmLcopyx (escapeLength e) (longDistance dx) = some (.lcopyx dx e) := by
  have h1 := legal_lcopyx_iff.1 h
  have h9 : 9 ≤ escapeLength e := Nat.le_add_left 9 _
  have h264 : escapeLength e ≤ 264 := Nat.add_le_add_right (Nat.le_of_lt_succ e.isLt) 9
  have hd : longDistance dx ≤ 8191 := Nat.le_of_lt_succ (dx ^^^ 0x1FFF#13).isLt
  rw [asmLcopyx_some_iff.2 ⟨⟨h9, h264, h1, hd⟩, rfl⟩, ofNat_escapeLength, dxOf_longDistance]

/-- Settles O25: statement by statement, with the ranges and inverses of the operands. -/
theorem assemblerProducesExactlyTheLegalTokens : Obligations.AssemblerProducesExactlyTheLegalTokens :=
  ⟨fun _ _ h => legal_of_assemble h, assemble_lit, fun _ _ h => asmScopy_operands h, fun _ _ h => asmLcopy_operands h,
    fun _ _ h => asmLcopyx_operands h, rfl, assemble_lit_none_iff,
    fun _ _ => ⟨asmScopy_none_iff, asmLcopy_none_iff, asmLcopyx_none_iff, asmCopy_none_iff⟩⟩

/-! ### What the encoder sends (R169 to R174) -/

/-- The length bits of the short form, the high one first (R171). -/
theorem shortLength_bits {l : Nat} (h2 : 2 ≤ l) (h5 : l ≤ 5) :
    (BitVec.ofNat 2 (l - 2)).getLsbD 1 = ((l - 2) / 2 == 1) ∧
    (BitVec.ofNat 2 (l - 2)).getLsbD 0 = ((l - 2) % 2 == 1) := by
  interval_cases l <;> decide

/-- The encoder's `W` is the token's two fields side by side, so its bytes are the token's payload (R79, R172). -/
theorem longCopyWord_bytes (d lf : Nat) :
    (longCopyWord d lf).extractLsb' 0 8 = (dxOf d).extractLsb' 0 5 ++ BitVec.ofNat 3 lf ∧
    (longCopyWord d lf).extractLsb' 8 8 = (dxOf d).extractLsb' 5 8 :=
  ⟨longWord_low _ _, longWord_high _ _⟩

/-- What ENCODE_TOKEN sends for a copy is the channel form of the token COPY selects (R88, R170). -/
theorem channelItems_of_asmCopy {d l : Nat} {t : WireToken} (ht : asmCopy l d = some t) :
    (Decision.copy d l).channelItems = t.items := by
  obtain ⟨hs, h⟩ | ⟨hs, h8, h⟩ | ⟨h8, h⟩ := asmCopy_cases l d <;> rw [h] at ht
  · obtain ⟨⟨h2, h5, -⟩, rfl⟩ := asmScopy_some_iff.1 ht
    obtain ⟨hhigh, hlow⟩ := shortLength_bits h2 h5
    refine (if_pos hs).trans ?_
    rw [← hhigh, ← hlow]
    rfl
  · obtain ⟨-, rfl⟩ := asmLcopy_some_iff.1 ht
    obtain ⟨hlow, hhigh⟩ := longCopyWord_bytes d (l - 1)
    refine ((if_neg hs).trans (if_pos h8)).trans ?_
    rw [hlow, hhigh]
    rfl
  · obtain ⟨-, rfl⟩ := asmLcopyx_some_iff.1 ht
    obtain ⟨hlow, hhigh⟩ := longCopyWord_bytes d 0
    refine ((if_neg (not_shortForm_of_long h8)).trans (if_neg (Nat.not_le.2 h8))).trans ?_
    rw [hlow, hhigh]
    rfl

/-- The token COPY selects, with the copy's own length and distance (R88, R170). -/
theorem asmCopy_selects {d l : Nat} {t : WireToken} (ht : asmCopy l d = some t) :
    (ShortForm l d ∧ ∃ lf x, t = .scopy lf x ∧ shortLength lf = l ∧ shortDistance x = d) ∨
    (¬ ShortForm l d ∧ l ≤ 8 ∧ ∃ dx lf, t = .lcopy dx lf ∧ plainLength lf = l ∧ longDistance dx = d) ∨
    (8 < l ∧ ∃ dx e, t = .lcopyx dx e ∧ escapeLength e = l ∧ longDistance dx = d) := by
  obtain ⟨hs, h⟩ | ⟨hs, h8, h⟩ | ⟨h8, h⟩ := asmCopy_cases l d <;> rw [h] at ht
  · obtain ⟨⟨h2, h5, h1, h256, -⟩, rfl⟩ := asmScopy_some_iff.1 ht
    exact .inl ⟨hs, _, _, rfl, shortLength_ofNat h2 h5, shortDistance_ofNat h1 h256⟩
  · obtain ⟨⟨h2, -, -, hd⟩, rfl⟩ := asmLcopy_some_iff.1 ht
    exact .inr (.inl ⟨hs, h8, _, _, rfl, plainLength_ofNat (by omega) h8, longDistance_dxOf hd⟩)
  · obtain ⟨⟨h9, h264, -, hd⟩, rfl⟩ := asmLcopyx_some_iff.1 ht
    exact .inr (.inr ⟨h8, _, _, rfl, escapeLength_ofNat h9 h264, longDistance_dxOf hd⟩)

/-- Settles O34: the items of a decision are those of the token COPY selects, and its form is known by cases. -/
theorem decisionsAreSentAsTheSelectedToken : Obligations.DecisionsAreSentAsTheSelectedToken := by
  refine ⟨fun _ _ => rfl, fun d l s h1 hd h2 hl => ?_, encodeEos_eq_sendItems⟩
  obtain ⟨t, ht⟩ : ∃ t, asmCopy l d = some t :=
    Option.ne_none_iff_exists'.1 fun hnone => asmCopy_none_iff.1 hnone ⟨h2, hl, h1, hd⟩
  have hsent : encodeDecision (.copy d l) s = sendItems t.items s := by
    rw [encodeDecision_eq_sendItems, channelItems_of_asmCopy ht]
  refine ⟨t, ht, legal_of_asmCopy ht, ?_, hsent, ?_⟩
  · obtain ⟨-, _, _, rfl, -⟩ | ⟨-, -, _, _, rfl, -⟩ | ⟨-, _, _, rfl, -⟩ := asmCopy_selects ht <;> exact nofun
  · obtain ⟨hs, hform⟩ | ⟨hs, h8, hform⟩ | ⟨h8, hform⟩ := asmCopy_selects ht
    · exact ⟨fun _ => hform, fun h => absurd hs h.1, fun h => absurd hs (not_shortForm_of_long h)⟩
    · exact ⟨fun h => absurd h hs, fun _ => hform, fun h => absurd h8 (Nat.not_le.2 h)⟩
    · exact ⟨fun h => absurd h (not_shortForm_of_long h8), fun h => absurd h.2 (Nat.not_le.2 h8), fun _ => hform⟩

end Sys2Proof.Machine
end

section
/-! SUPPORT. What the format rejects: a copy outside its limits (O28) and an illegal command (O37). -/

namespace Sys2Proof.Machine

/-- COPY_EXEC outside the output so far or past `N` raises BadFormat (R166). -/
theorem copyExec_outside {d len : Nat} {s : State} (h : s.eng.outPos < d ∨ s.declared < s.eng.outPos + len) :
    copyExec d len s = .next (raiseInDecode s) := by
  by_cases hd : s.eng.outPos < d
  · exact if_pos hd
  · exact (if_neg hd).trans (if_pos (h.resolve_left hd))

/-- The long forms test for distance 0 before COPY_EXEC (R164, R165). -/
theorem longCopy_outside {d len : Nat} {s : State} (h : d = 0 ∨ s.eng.outPos < d ∨ s.declared < s.eng.outPos + len) :
    (if d = 0 then .next (raiseInDecode s) else copyExec d len s) = .next (raiseInDecode s) := by
  by_cases hd : d = 0
  · exact if_pos hd
  · exact (if_neg hd).trans (copyExec_outside (h.resolve_left hd))

theorem shortDistance_ne_zero (x : Byte) : shortDistance x ≠ 0 := Nat.sub_ne_zero_of_lt x.isLt

/-- Settles O28: the short form has no distance 0, and the long forms test for it first. -/
theorem illegalCopiesRaiseBadFormat : Obligations.IllegalCopiesRaiseBadFormat := by
  intro i d len s hi hbad
  obtain ⟨l, x, rfl, rfl, rfl⟩ | ⟨dx, lf, rfl, rfl, rfl⟩ | ⟨dx, e, rfl, rfl, rfl⟩ := hi
  · exact copyExec_outside (hbad.resolve_left (shortDistance_ne_zero x))
  · exact longCopy_outside hbad
  · exact longCopy_outside hbad

/-- Settles O37: the command is `raise` of InvalidArgument (R248). -/
theorem illegalCommandOnlyReportsInvalidArgument : Obligations.IllegalCommandOnlyReportsInvalidArgument := fun _ s =>
  ⟨raiseError .invalidArgument s, rfl, failedWith_raiseError .invalidArgument s⟩

end Sys2Proof.Machine
end

section
/-! SUPPORT. The Keystream Generator (O13 to O15). `get_ksXor` says what KS_XOR does to DST; here is what it leaves in
the internal registers: `KS` after one step of the recurrence per group begun, and every other register as it was. -/

namespace Sys2Proof.Machine

/-- Each whole group draws one word (R103). -/
theorem eng_xorGroups (e : ByteOrder) (k g : Nat) (s : State) :
    (xorGroups e k g s).eng = { s.eng with ks := (ksStep s.params)^[k] s.eng.ks } := by
  induction k generalizing g s with
  | zero => rfl
  | succ k ih => rw [xorGroups, ih, (worked_xorGroup e _ _ s).params, eng_xorGroup, Function.iterate_succ_apply]

/-- KS_XOR on `k` bytes draws `ceil(k/4)` words: the trailing bytes take one of their own (R103, R104). -/
theorem eng_ksXor (k : Nat) (key : Word) (e : ByteOrder) (s : State) :
    (ksXor k key e s).eng = { s.eng with ks := (ksStep s.params)^[(k + 3) / 4] key } := by
  simp only [ksXor]
  by_cases hk : k % 4 = 0
  · have hdraws : (k + 3) / 4 = k / 4 := by omega
    rw [if_pos hk, eng_xorGroups, hdraws]
    rfl
  · have hdraws : (k + 3) / 4 = k / 4 + 1 := by omega
    rw [if_neg hk, eng_xorGroup, (worked_xorGroups e _ _ _).params, eng_xorGroups, hdraws, Function.iterate_succ_apply']
    rfl

/-- The word that the `(g+1)`-th KS_NEXT returns is the `KS` it leaves (R102). -/
theorem iterate_ksStep_succ (c : Params) (key : Word) (g : Nat) : (ksStep c)^[g + 1] key = ksWord c key g := by
  induction g with
  | zero => rfl
  | succ g ih => rw [Function.iterate_succ_apply', ih, ksWord]

/-- `KS` after `ceil(k/4)` draws: the key before the first, else the last word drawn (R101, R102). -/
theorem iterate_ksStep_groups (c : Params) (key : Word) (k : Nat) :
    (ksStep c)^[(k + 3) / 4] key = if k = 0 then key else ksWord c key ((k + 3) / 4 - 1) := by
  by_cases hk : k = 0
  · rw [if_pos hk, hk]
    rfl
  · have hsucc : (k + 3) / 4 = (k + 3) / 4 - 1 + 1 := by omega
    rw [if_neg hk, ← iterate_ksStep_succ, ← hsucc]

/-- KS_XOR as it reads back: byte `i` below `k` is XORed with `K[i]` (R103, R127). -/
theorem dstByte_ksXor (k : Nat) (key : Word) (e : ByteOrder) (s : State) (i : Nat) :
    (ksXor k key e s).dstByte i = if i < k then s.dstByte i ^^^ ksByte s.params key e i else s.dstByte i := by
  rw [State.dstByte, get_ksXor]
  split <;> rfl

/-- Settles O14: DST by `get_ksXor`, the internal registers by `eng_ksXor`, the rest by `worked_ksXor`. -/
theorem ksXorXorsKeystreamBytes : Obligations.KsXorXorsKeystreamBytes := by
  intro k key e s
  refine ⟨fun i hi => ?_, fun a ha => ?_, ?_⟩
  · rw [get_ksXor, if_pos hi]
  · rw [get_ksXor, if_neg (Nat.not_lt.2 ha)]
  · rw [← iterate_ksStep_groups, ← eng_ksXor k key e s]
    exact worked_ksXor k key e s

/-- Settles O15: both passes XOR byte `i` with the same `K[i]`, for KS_XOR keeps the parameters. -/
theorem ksXorIsItsOwnInverse : Obligations.KsXorIsItsOwnInverse := by
  intro k key e s i
  rw [dstByte_ksXor, dstByte_ksXor, (worked_ksXor k key e s).params]
  by_cases hi : i < k
  · rw [if_pos hi, if_pos hi, BitVec.xor_assoc, BitVec.xor_self, BitVec.xor_zero]
  · rw [if_neg hi, if_neg hi]

/-- The recurrence in natural numbers (R102). -/
theorem toNat_ksStep (c : Params) (ks : Word) :
    (ksStep c ks).toNat = (ks.toNat * c.ksM.toNat + c.ksC.toNat) % 2 ^ 32 := by
  rw [ksStep, BitVec.toNat_add, BitVec.toNat_mul, Nat.mod_add_mod]

theorem ksStep_zero (c : Params) : ksStep c 0 = c.ksC := by
  rw [ksStep, BitVec.ofNat_eq_ofNat, BitVec.zero_mul, BitVec.zero_add]

/-- `KS_M` is odd: its lowest bit is 1 (R100). -/
theorem toNat_ksM_mod_two (c : Params) : c.ksM.toNat % 2 = 1 := by
  have hval : c.ksM.toNat = c.ksMHigh.toNat * 2 + 1 := by
    rw [Params.ksM, BitVec.toNat_append, ← Nat.shiftLeft_add_eq_or_of_lt (by decide), Nat.shiftLeft_eq]
    rfl
  omega

/-- Settles O13: KS_INIT and KS_NEXT change `KS` by definition, and the word is the recurrence's. -/
theorem ksInitStoresKeyAndKsNextReturnsNewState : Obligations.KsInitStoresKeyAndKsNextReturnsNewState :=
  ⟨fun _ _ => rfl, fun s => ⟨toNat_ksStep s.params s.eng.ks, rfl⟩, fun s => ksStep_zero s.params, toNat_ksM_mod_two⟩

end Sys2Proof.Machine
end

section
/-! SUPPORT. The reader (O19, O20): in front of the writer's bytes it returns the items sent, one after the other, and
it reads a byte exactly where the plaintext stream has one. -/

namespace Sys2Proof

open Machine

/-! ### The reader in front of the writer's bytes (R129) -/

section
variable {P : Nat → Option Byte} {stop : Nat} {r : Reader}

theorem Feeds.reads_item {i : ChannelItem} {rest : List ChannelItem} (h : Feeds P stop (i :: rest) r) :
    ∃ r', readLike P r i = .ok (i, r') ∧ Feeds P stop rest r' := by
  cases i with
  | bit b =>
    obtain ⟨r', hread, hfeeds⟩ := h.reads_bit
    exact ⟨r', by simp only [readLike, hread], hfeeds⟩
  | byte v =>
    obtain ⟨r', hread, hfeeds⟩ := h.reads_byte
    exact ⟨r', by simp only [readLike, hread], hfeeds⟩

theorem Feeds.reads_all {items : List ChannelItem} (h : Feeds P stop items r) :
    ∃ r', readAllLike P items r = .ok (items, r') ∧ Feeds P stop [] r' := by
  induction items generalizing r with
  | nil => exact ⟨r, rfl, h⟩
  | cons i is ih =>
    obtain ⟨r1, hfirst, hrest⟩ := h.reads_item
    obtain ⟨r2, hall, hend⟩ := ih hrest
    exact ⟨r2, by simp only [readAllLike, hfirst, hall], hend⟩

end

/-- Settles O19: the reader stands in front of all the items, reads each in turn, and with none to come it stands at the
end of the bytes. -/
theorem readerMirrorsWriter : Obligations.ReaderMirrorsWriter := by
  intro items o P hbytes
  obtain ⟨r, hread, hend⟩ := (feeds_rStart hbytes).reads_all
  exact ⟨r, hread, hend.stops⟩

/-! ### The end of the stream (R128) -/

theorem getByte_of_none {P : Nat → Option Byte} {r : Reader} (h : P r.inPos = none) :
    getByte P r = .error .payloadUnderrun := by
  simp only [getByte, fetchByte, h]

theorem getBit_of_none {P : Nat → Option Byte} {r : Reader} (h : P r.inPos = none) (hleft : r.bitsLeft = 0) :
    getBit P r = .error .controlUnderrun := by
  simp only [getBit, refill, fetchByte, h, hleft, if_true]

end Sys2Proof

namespace Sys2Proof.Machine

theorem plainByte_of_le {s : State} {i : Nat} (h : s.nSrc ≤ i) : s.plainByte i = none := if_neg (Nat.not_lt.2 h)

theorem exists_plainByte_of_lt {s : State} {i : Nat} (h : i < s.nSrc) : ∃ v, s.plainByte i = some v := ⟨_, if_pos h⟩

theorem ended_raiseInDecode (s : State) : Ended (BitVec.ofInt 64 (-3)) s (raiseInDecode s) := rfl

/-- A token that runs past the end of the stream raises BadFormat (R128). -/
theorem tokenStep_of_underrun {s : State} {e : DecodeError} (h : decodeToken s.plainByte s.eng.reader = .error e) :
    tokenStep s = .next (raiseInDecode s) := by
  simp only [tokenStep, fetchToken, h]

/-- Settles O20: the plaintext stream has a byte exactly below `n_src`, and an underrun ends the command through
`raiseInDecode`. -/
theorem readPastTheEndRaisesBadFormat : Obligations.ReadPastTheEndRaisesBadFormat := by
  refine ⟨fun s r h => getByte_of_none (plainByte_of_le h), fun s r h => getBit_of_none (plainByte_of_le h),
    fun s r h => ?_, fun s e hin hbusy hcode he => ⟨raiseInDecode s, ?_, ended_raiseInDecode s⟩⟩
  · obtain ⟨v, hv⟩ := exists_plainByte_of_lt h
    exact ⟨v, hv, getByte_of_some hv, fun hleft => getBit_of_none_left hleft hv⟩
  · rw [step_of_no_inputs hin, engineStep_insideDecode hbusy hcode, tokenStep_of_underrun he]

end Sys2Proof.Machine
end

section
/-! SUPPORT. The writer (O17, O18): what items sent from any writer on leave in DST, said with `pack` for the bytes they
append and with `controlByte` for the control byte that was open before them. -/

namespace Sys2Proof.Machine

/-- Settles O17: `get_putByte` at `out_pos` and elsewhere; nothing else changes by definition. -/
theorem putByteAppendsOneByte : Obligations.PutByteAppendsOneByte := fun v s =>
  ⟨(get_putByte v s s.eng.outPos).trans (if_pos rfl), fun a ha => (get_putByte v s a).trans (if_neg ha), rfl⟩

/-- A control byte with a free place stands at `c` (R33, R120). -/
def OpenAt (s : State) (c : Nat) : Prop := s.eng.bitsUsed ≠ 8 ∧ s.eng.ctrlPos = some c

/-- The writer has gone from `s` to `t` by the items: the bytes of `pack` are appended, the control byte open in `s`, if
any, has taken the items' bits up to its last place, and no other byte below `out_pos` has changed. -/
structure Packed (items : List ChannelItem) (s t : State) : Prop where
  outPos : t.eng.outPos = s.eng.outPos + (pack s.eng.bitsUsed items).length
  bytes : ∀ i, i < (pack s.eng.bitsUsed items).length →
    t.dst.get (s.eng.outPos + i) = (pack s.eng.bitsUsed items)[i]?
  filled : ∀ c v, OpenAt s c → s.dst.get c = some v →
    t.dst.get c = some (v ||| controlByte (8 - s.eng.bitsUsed) items)
  kept : ∀ a, a < s.eng.outPos → ¬ OpenAt s a → t.dst.get a = s.dst.get a

@[simp] theorem controlByte_nil (left : Nat) : controlByte left [] = 0 := by cases left <;> rfl

theorem Packed.nil (s : State) : Packed [] s s where
  outPos := rfl
  bytes i hi := absurd hi (Nat.not_lt_zero i)
  filled c v _ hv := by rw [hv, controlByte_nil, BitVec.ofNat_eq_ofNat, BitVec.or_zero]
  kept _ _ _ := rfl

/-- The open control byte lies below `out_pos` (R121). -/
theorem WriterReady.openAt_lt {s : State} (h : WriterReady s) {c : Nat} (hc : OpenAt s c) : c < s.eng.outPos := by
  obtain ⟨hfree, hpos⟩ := hc
  obtain ⟨d, hd, hlt⟩ := h.opened.resolve_left hfree
  cases hpos.symm.trans hd
  exact hlt

/-- A stream that holds a byte at `o` and a list's bytes behind it holds the bytes of both from `o` on. -/
theorem bytes_of_cons {P : Nat → Option Byte} {o : Nat} {v : Byte} {vs : List Byte} (hv : P o = some v)
    (hvs : ∀ i, i < vs.length → P (o + 1 + i) = vs[i]?) : ∀ i, i < (v :: vs).length → P (o + i) = (v :: vs)[i]?
  | 0, _ => hv
  | i + 1, hi => by
    have h := hvs i (Nat.lt_of_succ_lt_succ hi)
    rw [Nat.add_right_comm] at h
    exact h

section
variable {s t : State} {rest : List ChannelItem}

/-- A payload byte, then the rest: the byte comes first, and the control byte stays open behind it (R122). -/
theorem Packed.byte {v : Byte} (hs : WriterReady s) (h : Packed rest (putByte v s) t) :
    Packed (.byte v :: rest) s t := by
  obtain ⟨hout, hbytes, hfilled, hkept⟩ := h
  have hsame (a : Nat) (ha : a ≠ s.eng.outPos) : (putByte v s).dst.get a = s.dst.get a :=
    (get_putByte v s a).trans (if_neg ha)
  refine ⟨?_, bytes_of_cons ?_ hbytes, fun c w hc hw => ?_, fun a ha hopen => ?_⟩
  · rw [hout, pack, List.length_cons]
    exact Nat.add_right_comm _ _ _
  · rw [hkept _ (Nat.lt_succ_self _) fun hc => Nat.lt_irrefl _ (hs.openAt_lt hc), get_putByte, if_pos rfl]
  · rw [controlByte_byte]
    exact hfilled c w hc ((hsame c (Nat.ne_of_lt (hs.openAt_lt hc))).trans hw)
  · exact (hkept a (Nat.lt_succ_of_lt ha) hopen).trans (hsame a (Nat.ne_of_lt ha))

/-- A bit that opens a control byte, then the rest: the control byte comes first and takes the bits that follow
(R121). -/
theorem Packed.bit_opens {b : Bool} (h8 : s.eng.bitsUsed = 8) (h : Packed rest (putBit b s) t) :
    Packed (.bit b :: rest) s t := by
  obtain ⟨hout, hbytes, hfilled, hkept⟩ := h
  have heng := (putBit_opens b s h8 0).1
  have hget (a : Nat) := (putBit_opens b s h8 a).2
  have hctrl {a : Nat} (ha : OpenAt (putBit b s) a) : a = s.eng.outPos :=
    (Option.some.inj ((congrArg Engine.ctrlPos heng).symm.trans ha.2)).symm
  have hpack : pack s.eng.bitsUsed (.bit b :: rest) = controlByte 8 (.bit b :: rest) :: pack 1 rest := by
    rw [pack, if_pos h8]
  have hctrlByte : controlByte 8 (.bit b :: rest) = (BitVec.ofBool b).setWidth 8 ||| controlByte 7 rest := by
    simp [controlByte]
  have hopen : OpenAt (putBit b s) s.eng.outPos := by simp [OpenAt, heng]
  simp only [heng] at hout hbytes hfilled hkept
  refine ⟨?_, ?_, fun c w hc => absurd h8 hc.1, fun a ha _ => ?_⟩
  · rw [hout, hpack, List.length_cons]
    exact Nat.add_right_comm _ _ _
  · rw [hpack]
    refine bytes_of_cons ?_ hbytes
    rw [hctrlByte]
    exact hfilled _ _ hopen ((hget _).trans (if_pos rfl))
  · have hne := Nat.ne_of_lt ha
    rw [hkept a (Nat.lt_succ_of_lt ha) fun hc => hne (hctrl hc), hget, if_neg hne]

/-- A bit that takes the next place of the open control byte, then the rest: no byte comes first, and the control byte
takes the bits that follow in the places left (R121, R130). -/
theorem Packed.bit_fills {b : Bool} {c : Nat} (hle : s.eng.bitsUsed ≤ 8) (hc : OpenAt s c) (hlt : c < s.eng.outPos)
    (h : Packed rest (putBit b s) t) : Packed (.bit b :: rest) s t := by
  obtain ⟨hout, hbytes, hfilled, hkept⟩ := h
  obtain ⟨hfree, hpos⟩ := hc
  have heng := (putBit_fills b s c hfree hpos 0).1
  have hget (a : Nat) := (putBit_fills b s c hfree hpos a).2
  have hpack : pack s.eng.bitsUsed (.bit b :: rest) = pack (s.eng.bitsUsed + 1) rest := by rw [pack, if_neg hfree]
  have hleft : 8 - s.eng.bitsUsed = 8 - (s.eng.bitsUsed + 1) + 1 := by omega
  have hplace : 8 - (8 - (s.eng.bitsUsed + 1) + 1) = s.eng.bitsUsed := by omega
  have hsame {a : Nat} (ha : OpenAt s a) : a = c := Option.some.inj (ha.2.symm.trans hpos)
  have hopen {a : Nat} (ha : OpenAt (putBit b s) a) : OpenAt s a :=
    ⟨hfree, (congrArg Engine.ctrlPos heng).symm.trans ha.2⟩
  rw [heng] at hout hbytes hkept
  rw [← hpack] at hout hbytes
  refine ⟨hout, hbytes, fun a v ha hv => ?_, fun a ha hclosed => ?_⟩
  · obtain rfl := hsame ha
    have hset : (putBit b s).dst.get a = some (v ||| (BitVec.ofBool b).setWidth 8 <<< s.eng.bitsUsed) := by
      rw [hget, if_pos rfl, State.dstByte, hv]
      rfl
    rw [hleft, controlByte, hplace, ← BitVec.or_assoc]
    by_cases hlast : s.eng.bitsUsed + 1 = 8
    · -- the last place is taken: the control byte is closed, and the bits that follow go elsewhere
      have hclosed : ¬ OpenAt (putBit b s) a := fun ho => ho.1 (by rw [heng]; exact hlast)
      rw [hkept a hlt hclosed, hset, hlast, controlByte, BitVec.ofNat_eq_ofNat, BitVec.or_zero]
    · have hstill : OpenAt (putBit b s) a := by rw [OpenAt, heng]; exact ⟨hlast, hpos⟩
      rw [hfilled a _ hstill hset, heng]
  · have hne : a ≠ c := by
      rintro rfl
      exact hclosed ⟨hfree, hpos⟩
    rw [hkept a ha fun ho => hclosed (hopen ho), hget, if_neg hne]

end

/-- Items sent from a writer on are packed behind what it has written (R121, R122, R123). -/
theorem packed_sendItems {s : State} (hs : WriterReady s) (hle : s.eng.bitsUsed ≤ 8) (items : List ChannelItem) :
    Packed items s (sendItems items s) := by
  induction items generalizing s with
  | nil => exact .nil s
  | cons i is ih =>
    cases i with
    | byte v => exact .byte hs (ih (sent_putByte hs v).ready hle)
    | bit b =>
      have hrest := ih (sent_putBit hs b).ready (bitsUsed_putBit b s hle)
      by_cases h8 : s.eng.bitsUsed = 8
      · exact .bit_opens h8 hrest
      · obtain ⟨c, hc, hlt⟩ := hs.opened.resolve_left h8
        exact .bit_fills hle ⟨h8, hc⟩ hlt hrest

theorem writerReady_wStart (o : Nat) (s : State) : WriterReady (wStart o s) := ⟨Nat.succ_pos 7, .inl rfl⟩

/-- Settles O18: from W_START(o) no control byte is open, so every byte below `o` is kept; those from the new `out_pos`
on are kept by `sent_sendItems`. -/
theorem writerProducesPackedStream : Obligations.WriterProducesPackedStream := by
  intro items o s
  obtain ⟨hout, hbytes, -, hbelow⟩ := packed_sendItems (writerReady_wStart o s) (le_refl 8) items
  have habove := (sent_sendItems (writerReady_wStart o s) items).kept
  refine ⟨hbytes, fun a ha => ?_, hout⟩
  obtain hlow | hhigh := ha
  · exact hbelow a hlow fun hc => hc.1 rfl
  · exact habove a (hout ▸ hhigh)

end Sys2Proof.Machine
end

section
/-! SUPPORT. The Match Finder (O31, O32, O33): how far MATCH_LEN goes and why it stops, what FIND holds after each
distance of its search, and PARSE as a fold over the decisions. -/

namespace Sys2Proof.Machine

/-! ### MATCH_LEN (R141) -/

/-- The bytes from the cursor `p` on agree with those `d` back over `l` bytes. -/
def Agree (src : Nat → Byte) (p d l : Nat) : Prop := ∀ i, i < l → src (p + i) = src (p + i - d)

theorem agree_zero (src : Nat → Byte) (p d : Nat) : Agree src p d 0 := fun i hi => absurd hi (Nat.not_lt_zero i)

theorem Agree.succ {src : Nat → Byte} {p d l : Nat} (h : Agree src p d l) (hl : src (p + l) = src (p + l - d)) :
    Agree src p d (l + 1) := by
  intro i hi
  obtain hlt | rfl := Nat.lt_succ_iff_lt_or_eq.1 hi
  · exact h i hlt
  · exact hl

theorem agree_matchLenFrom {src : Nat → Byte} {p d l : Nat} (left : Nat) (h : Agree src p d l) :
    Agree src p d (matchLenFrom src p d left l) := by
  induction left generalizing l with
  | zero => exact h
  | succ left ih =>
    rw [matchLenFrom]
    split
    · exact ih (h.succ ‹_›)
    · exact h

/-- A match that stops before its limit stops at a mismatch. -/
theorem mismatch_matchLenFrom {src : Nat → Byte} {p d left l : Nat} (h : matchLenFrom src p d left l < left + l) :
    src (p + matchLenFrom src p d left l) ≠ src (p + matchLenFrom src p d left l - d) := by
  induction left generalizing l with
  | zero => exact absurd h (by rw [matchLenFrom]; omega)
  | succ left ih =>
    rw [matchLenFrom] at h ⊢
    split at h
    · rename_i heq
      rw [if_pos heq]
      exact ih (by omega)
    · rename_i hne
      rw [if_neg hne]
      exact hne

theorem matchLen_le_limit (src : Nat → Byte) (n p d : Nat) : matchLen src n p d ≤ min 264 (n - p) :=
  matchLenFrom_le src p d _ 0

/-- Settles O31: the bound, the agreement and the stop are those of the loop of MATCH_LEN from length 0. -/
theorem matchLenIsLongestAgreement : Obligations.MatchLenIsLongestAgreement := fun src n p d _ _ _ =>
  ⟨matchLen_le_limit src n p d, agree_matchLenFrom _ (agree_zero src p d), fun h => mismatch_matchLenFrom h⟩

/-! ### FIND (R142, R143) -/

/-- `best`, a length and a distance, is the longest match among the distances 1 to `k`, the nearest of these; its
length is 0 when no distance gives a byte. -/
structure BestUpTo (src : Nat → Byte) (n p k : Nat) (best : Nat × Nat) : Prop where
  longest : ∀ d', 1 ≤ d' → d' ≤ k → matchLen src n p d' ≤ best.1
  nearest : ∀ d', 1 ≤ d' → d' < best.2 → matchLen src n p d' < best.1
  found : 0 < best.1 → 1 ≤ best.2 ∧ best.2 ≤ k ∧ best.1 = matchLen src n p best.2

section
variable {src : Nat → Byte} {n p k : Nat} {best : Nat × Nat}

theorem bestUpTo_zero (src : Nat → Byte) (n p : Nat) : BestUpTo src n p 0 (0, 0) where
  longest _ h1 h0 := absurd (le_trans h1 h0) (Nat.not_succ_le_zero 0)
  nearest d' _ hlt := absurd hlt (Nat.not_lt_zero d')
  found h := absurd h (Nat.lt_irrefl 0)

/-- A strictly longer match at the next distance is the new best. -/
theorem BestUpTo.replaced (h : BestUpTo src n p k best) (hlt : best.1 < matchLen src n p (k + 1)) :
    BestUpTo src n p (k + 1) (matchLen src n p (k + 1), k + 1) where
  longest d' h1 hd := by
    obtain hk | rfl := Nat.le_succ_iff.1 hd
    · exact le_trans (h.longest d' h1 hk) (Nat.le_of_lt hlt)
    · exact le_refl _
  nearest d' h1 hd := lt_of_le_of_lt (h.longest d' h1 (Nat.le_of_lt_succ hd)) hlt
  found _ := ⟨Nat.succ_pos k, le_refl _, rfl⟩

/-- Any other match at the next distance leaves the best. -/
theorem BestUpTo.stays (h : BestUpTo src n p k best) (hle : matchLen src n p (k + 1) ≤ best.1) :
    BestUpTo src n p (k + 1) best where
  longest d' h1 hd := by
    obtain hk | rfl := Nat.le_succ_iff.1 hd
    · exact h.longest d' h1 hk
    · exact hle
  nearest := h.nearest
  found hpos := by
    obtain ⟨h1, hk, hlen⟩ := h.found hpos
    exact ⟨h1, Nat.le_succ_of_le hk, hlen⟩

theorem bestUpTo_findFrom (left : Nat) {bestL bestD : Nat} (h : BestUpTo src n p k (bestL, bestD)) :
    BestUpTo src n p (k + left) (findFrom src n p left (k + 1) bestL bestD) := by
  induction left generalizing k bestL bestD with
  | zero => exact h
  | succ left ih =>
    rw [← Nat.succ_add_eq_add_succ]
    simp only [findFrom]
    split
    · exact ih (h.replaced ‹_›)
    · exact ih (h.stays (Nat.not_lt.1 ‹_›))

end

/-- FIND's search ends with the best of the window. -/
theorem bestUpTo_window (src : Nat → Byte) (n p : Nat) :
    BestUpTo src n p (min p window) (findFrom src n p (min p window) 1 0 0) := by
  have h := bestUpTo_findFrom (min p window) (bestUpTo_zero src n p)
  rwa [Nat.zero_add] at h

/-- FIND's answer is a copy of the best match where that has at least two bytes, else a literal (R142, R143). -/
theorem find_cases (src : Nat → Byte) (n p : Nat) :
    ∃ best, BestUpTo src n p (min p window) best ∧
      ((2 ≤ best.1 ∧ find src n p = .copy best.2 best.1) ∨ (best.1 < 2 ∧ find src n p = .literal (src p))) := by
  refine ⟨_, bestUpTo_window src n p, ?_⟩
  by_cases hmin : minMatch ≤ (findFrom src n p (min p window) 1 0 0).1
  · exact .inl ⟨hmin, if_pos hmin⟩
  · exact .inr ⟨Nat.not_le.1 hmin, if_neg hmin⟩

/-- Settles O32: each clause is one of the best match of the window. -/
theorem findTakesLongestThenNearest : Obligations.FindTakesLongestThenNearest := by
  intro src n p _
  obtain ⟨best, hbest, ⟨h2, hfind⟩ | ⟨h2, hfind⟩⟩ := find_cases src n p <;> rw [hfind]
  · refine ⟨fun d l hcopy => ?_, nofun⟩
    obtain ⟨rfl, rfl⟩ := Decision.copy.inj hcopy
    obtain ⟨h1, hwindow, hlen⟩ := hbest.found (by omega)
    exact ⟨h1, hwindow, h2, hlen ▸ matchLen_le_limit src n p _, hlen, hbest.longest, hbest.nearest⟩
  · refine ⟨nofun, fun b hlit => ?_⟩
    exact ⟨(Decision.literal.inj hlit).symm, fun d' h1 hd => lt_of_le_of_lt (hbest.longest d' h1 hd) h2⟩

/-! ### PARSE (R145, R147) -/

section
variable {finder : (Nat → Byte) → Nat → Nat → Decision} {src : Nat → Byte} {n p : Nat}

theorem decisions_of_lt (fuel : Nat) (h : p < n) : decisions finder src n (fuel + 1) p =
    finder src n p :: decisions finder src n fuel (p + (finder src n p).advance) := if_pos h

theorem decisions_of_le (fuel : Nat) (h : n ≤ p) : decisions finder src n fuel p = [] := by
  cases fuel with
  | zero => rfl
  | succ fuel => exact if_neg (Nat.not_lt.2 h)

theorem decisions_eq_nil_iff (fuel : Nat) : decisions finder src n fuel p = [] ↔ fuel = 0 ∨ n ≤ p := by
  by_cases h : n ≤ p
  · simp [decisions_of_le fuel h, h]
  · cases fuel with
    | zero => simp [decisions]
    | succ fuel => simp [decisions_of_lt fuel (Nat.not_le.1 h), h]

/-- A decision at a cursor inside the source moves it on, and not past the source's end (R145, R148). -/
theorem advance_bounds (hf : CopiesWithin finder) (h : p < n) :
    1 ≤ (finder src n p).advance ∧ (finder src n p).advance ≤ n - p := by
  cases ht : finder src n p with
  | literal b => exact ⟨le_refl 1, Nat.sub_pos_of_lt h⟩
  | copy d l =>
    obtain ⟨h2, hin⟩ := hf src n p d l ht
    exact ⟨Nat.le_of_succ_le h2, hin⟩

/-- The decisions cover the source from the cursor to its end. -/
theorem foldl_advance_decisions (hf : CopiesWithin finder) (fuel : Nat) (hp : p ≤ n) (hfuel : n ≤ p + fuel) :
    (decisions finder src n fuel p).foldl (fun k t => k + t.advance) p = n := by
  induction fuel generalizing p with
  | zero => exact Nat.le_antisymm hp hfuel
  | succ fuel ih =>
    obtain hlt | rfl := Nat.lt_or_eq_of_le hp
    · obtain ⟨hpos, hin⟩ := advance_bounds (src := src) hf hlt
      rw [decisions_of_lt fuel hlt, List.foldl_cons]
      exact ih (by omega) (by omega)
    · rw [decisions_of_le _ (le_refl p)]
      rfl

end

/-- One iteration of PARSE: the decision's token is sent and `p` moves on (R145). -/
def encodeAndMove (s : State) (t : Decision) : State := moveP t.advance (encodeDecision t s)

theorem worked_encodeAndMove (t : Decision) (s : State) : Worked s (encodeAndMove s t) :=
  (worked_encodeDecision t s).trans (worked_moveP _ _)

theorem p_encodeAndMove (t : Decision) (s : State) : (encodeAndMove s t).eng.p = s.eng.p + t.advance := by
  rw [encodeAndMove, moveP_eng, encodeDecision_eq_sendItems, p_sendItems]

/-- The loop of PARSE is the fold of its iteration over the decisions. -/
theorem parseFrom_eq_foldl (finder : (Nat → Byte) → Nat → Nat → Decision) (fuel : Nat) (s : State) :
    parseFrom finder fuel s = (decisions finder s.srcByte s.nSrc fuel s.eng.p).foldl encodeAndMove s := by
  induction fuel generalizing s with
  | zero => rfl
  | succ fuel ih =>
    by_cases h : s.eng.p < s.nSrc
    · have hw := worked_encodeAndMove (finder s.srcByte s.nSrc s.eng.p) s
      have hsrc : (encodeAndMove s (finder s.srcByte s.nSrc s.eng.p)).srcByte = s.srcByte := funext hw.srcByte
      have hstep : parseFrom finder (fuel + 1) s =
          parseFrom finder fuel (encodeAndMove s (finder s.srcByte s.nSrc s.eng.p)) := if_pos h
      rw [hstep, ih, hsrc, hw.nSrc, p_encodeAndMove, decisions_of_lt fuel h, List.foldl_cons]
    · rw [decisions_of_le _ (Nat.not_lt.1 h), parseFrom, if_neg h]
      rfl

theorem parse_eq_foldl (finder : (Nat → Byte) → Nat → Nat → Decision) (s : State) :
    parse finder s = encodeEos
      ((decisions finder s.srcByte s.nSrc s.nSrc 0).foldl encodeAndMove { s with eng := { s.eng with p := 0 } }) :=
  congrArg encodeEos (parseFrom_eq_foldl finder s.nSrc _)

/-- ARCHIVE's decisions are the source's bytes, from the cursor to the end (R147). -/
theorem decisions_findLiteral_from (src : Nat → Byte) {n fuel p : Nat} (h : p + fuel = n) :
    decisions findLiteral src n fuel p = (List.range' p fuel).map fun i => .literal (src i) := by
  induction fuel generalizing p with
  | zero => rfl
  | succ fuel ih =>
    have hp : p < n := by omega
    rw [decisions_of_lt fuel hp, List.range'_succ, List.map_cons]
    exact congrArg _ (ih ((Nat.succ_add_eq_add_succ p fuel).trans h))

theorem decisions_findLiteral (src : Nat → Byte) (n : Nat) :
    decisions findLiteral src n n 0 = (List.range n).map fun i => .literal (src i) := by
  rw [List.range_eq_range', decisions_findLiteral_from src (Nat.zero_add n)]

/-- Settles O33: PARSE folds its iteration over the decisions, and these follow the cursor to the source's end. -/
theorem parseEncodesEachDecisionOnce : Obligations.ParseEncodesEachDecisionOnce := by
  refine ⟨parse_eq_foldl find, fun src n fuel p => ⟨decisions_eq_nil_iff fuel, decisions_of_lt fuel⟩, fun src n => ?_,
    fun s => ?_⟩
  · exact foldl_advance_decisions copiesWithin_find n (Nat.zero_le n) (Nat.le_add_left n 0)
  · rw [parse_eq_foldl, decisions_findLiteral, List.foldl_map]
    rfl

end Sys2Proof.Machine
end

section
/-! SUPPORT. COMPRESS and ARCHIVE (O39, O40): the items they send are those of the tokens of the plaintext stream, which
the writer leaves in DST behind the header, and KS_XOR encrypts it. -/

namespace Sys2Proof

open Machine

/-! ### The length of a stream -/

/-- The packed bytes: the items' bits, with the places of a control byte that no bit took. `used - 1` is the number of
bits that go with the byte before. -/
theorem length_pack {used : Nat} (h1 : 1 ≤ used) (h8 : used ≤ 8) (items : List ChannelItem) :
    (pack used items).length = (used - 1 + itemsWidth items) / 8 := by
  induction items generalizing used with
  | nil => exact (Nat.div_eq_of_lt (by show used - 1 + 0 < 8; omega)).symm
  | cons i is ih =>
    have hw : itemsWidth (i :: is) = itemWidth i + itemsWidth is := rfl
    cases i with
    | byte v =>
      have hi : itemWidth (.byte v) = 8 := rfl
      rw [pack, List.length_cons, ih h1 h8]
      omega
    | bit b =>
      have hi : itemWidth (.bit b) = 1 := rfl
      rw [pack]
      split
      · rw [List.length_cons, ih (le_refl 1) (by decide)]
        omega
      · rw [ih (by omega) (by omega)]
        omega

theorem itemsWidth_literals (bs : List Byte) :
    itemsWidth ((bs.map WireToken.lit).flatMap WireToken.items) = 9 * bs.length := by
  induction bs with
  | nil => rfl
  | cons b bs ih =>
    rw [List.map_cons, List.flatMap_cons, itemsWidth_append, ih, List.length_cons, Nat.mul_succ, Nat.add_comm]
    rfl

/-- The stream of all literals has exactly MAX_SIZE bytes (R203, R204). -/
theorem length_literalStream (n : Word) (bs : List Byte) :
    (encodeStream n .little (bs.map WireToken.lit ++ [.eos])).length = maxSize bs.length := by
  have heos : itemsWidth ([WireToken.eos].flatMap WireToken.items) = 12 := rfl
  rw [encodeStream, encodeTokens, List.length_append, ser_length, length_pack (by decide) (le_refl 8),
    List.flatMap_append, itemsWidth_append, itemsWidth_literals, heos, maxSize, hdrBytes]
  omega

end Sys2Proof

namespace Sys2Proof.Machine

/-! ### The items of a parse are those of its tokens -/

/-- The encoder sends each decision of the finder as the token that COPY selects (R88, R170). -/
def SendsTokens (finder : (Nat → Byte) → Nat → Nat → Decision) : Prop :=
  ∀ (src : Nat → Byte) (n p : Nat), (finder src n p).channelItems = (finder src n p).wire.items

/-- A copy within the limits of R87 is sent as its token. -/
theorem channelItems_copy {d l : Nat} (h1 : 1 ≤ d) (hd : d ≤ 8191) (h2 : 2 ≤ l) (hl : l ≤ 264) :
    (Decision.copy d l).channelItems = (Decision.copy d l).wire.items := by
  cases ht : asmCopy l d with
  | none => exact absurd ⟨h2, hl, h1, hd⟩ (asmCopy_none_iff.1 ht)
  | some t => rw [channelItems_of_asmCopy ht, Decision.wire, ht, Option.getD_some]

theorem sendsTokens_find : SendsTokens find := by
  intro src n p
  obtain ⟨best, hbest, ⟨h2, hfind⟩ | ⟨-, hfind⟩⟩ := find_cases src n p <;> rw [hfind]
  · obtain ⟨h1, hwindow, hlen⟩ := hbest.found (by omega)
    have hlimit := matchLen_le_limit src n p best.2
    exact channelItems_copy h1 (le_trans hwindow (Nat.min_le_right _ _)) h2 (by omega)
  · rfl

theorem sendsTokens_findLiteral : SendsTokens findLiteral := fun _ _ _ => rfl

theorem flatMap_channelItems_decisions {finder : (Nat → Byte) → Nat → Nat → Decision} (h : SendsTokens finder)
    (src : Nat → Byte) (n fuel p : Nat) :
    (decisions finder src n fuel p).flatMap Decision.channelItems =
      ((decisions finder src n fuel p).map Decision.wire).flatMap WireToken.items := by
  induction fuel generalizing p with
  | zero => rfl
  | succ fuel ih =>
    rw [decisions]
    split
    · rw [List.flatMap_cons, List.map_cons, List.flatMap_cons, h, ih]
    · rfl

/-- The plaintext stream is the header and the packed items of the parse (R74, R145). -/
theorem plainStream_eq {finder : (Nat → Byte) → Nat → Nat → Decision} (h : SendsTokens finder) (src : Nat → Byte)
    (n : Word) : plainStream finder src n = ser .little n ++ pack 8 (streamItems finder src n.toNat) := by
  rw [plainStream, encodeStream, encodeTokens, List.flatMap_append, ← flatMap_channelItems_decisions h]
  rfl

/-! ### The stream in DST -/

/-- Behind the header, COMPRESS and ARCHIVE leave the packed items of the parse (R121, R145). -/
theorem packed_writeStream (finder : (Nat → Byte) → Nat → Nat → Decision) (need : Nat) (s : State) :
    Packed (streamItems finder s.srcByte s.nSrc) (streamStart need s) (writeStream finder need s) := by
  obtain ⟨k, hk⟩ := writeStream_eq_sendItems finder need s
  obtain ⟨hout, hbytes, hfilled, hkept⟩ :=
    packed_sendItems (writerReady_streamStart need s) (le_refl 8) (streamItems finder s.srcByte s.nSrc)
  rw [hk]
  exact ⟨hout, hbytes, hfilled, hkept⟩

theorem get_streamStart (need : Nat) (s : State) {i : Nat} (hi : i < 4) :
    (streamStart need s).dst.get i = (ser .little s.lat.nSrc)[i]? := by
  show (s.dst.setList 0 (ser .little s.lat.nSrc)).get i = _
  rw [get_setList, ser_length, if_pos (by omega), Nat.sub_zero]

section
variable {finder : (Nat → Byte) → Nat → Nat → Decision} (h : SendsTokens finder) (need : Nat) (s : State)
include h

theorem plainStream_of_state : plainStream finder s.srcByte s.lat.nSrc =
    ser .little s.lat.nSrc ++ pack 8 (streamItems finder s.srcByte s.nSrc) := plainStream_eq h _ _

theorem outPos_writeStream :
    (writeStream finder need s).eng.outPos = (plainStream finder s.srcByte s.lat.nSrc).length := by
  rw [plainStream_of_state h, List.length_append, ser_length]
  exact (packed_writeStream finder need s).outPos

/-- COMPRESS and ARCHIVE leave the plaintext stream in DST: the header below 4, the packed items from there on (R201,
R241). -/
theorem get_writeStream {i : Nat} (hi : i < (plainStream finder s.srcByte s.lat.nSrc).length) :
    (writeStream finder need s).dst.get i = (plainStream finder s.srcByte s.lat.nSrc)[i]? := by
  obtain ⟨-, hbytes, -, hkept⟩ := packed_writeStream finder need s
  rw [plainStream_of_state h, List.length_append, ser_length] at hi
  rw [plainStream_of_state h]
  by_cases h4 : i < 4
  · rw [List.getElem?_append_left (by rw [ser_length]; exact h4), ← get_streamStart need s h4]
    exact hkept i h4 fun hopen => hopen.1 rfl
  · rw [List.getElem?_append_right (by rw [ser_length]; omega), ser_length]
    have hbyte := hbytes (i - 4) (show i - 4 < (pack 8 _).length by omega)
    have hsum : (streamStart need s).eng.outPos + (i - 4) = i := Nat.add_sub_cancel' (Nat.not_lt.1 h4)
    rwa [hsum] at hbyte

end

/-- The end of COMPRESS and ARCHIVE encrypts what DST holds (R241). -/
theorem get_encryptAndFinish (s : State) {i : Nat} (hi : i < s.eng.outPos) :
    (encryptAndFinish s).dst.get i = some (s.dstByte i ^^^ ksByte s.params s.lat.key .little i) :=
  (get_ksXor _ _ _ _ _).trans (if_pos hi)

/-- With the checks of R241 passed, COMPRESS and ARCHIVE write their stream and encrypt it. -/
theorem compressWith_of_checks (finder : (Nat → Byte) → Nat → Nat → Decision) {s : State} (ho : s.overlapping = false)
    (he : s.lat.eIn.toNat < 2) (hmax : s.nSrc ≤ s.params.maxLen) (hcap : maxSize s.nSrc ≤ s.cap) :
    compressWith finder s = .next (encryptAndFinish (writeStream finder (maxSize s.nSrc) s)) := by
  obtain ⟨-, ho'⟩ | ⟨k, hp, -⟩ | ⟨-, -, hnext⟩ := compressWith_cases finder s
  · exact absurd (ho.symm.trans ho') Bool.false_ne_true
  · obtain ⟨hok, -⟩ | ⟨-, hfail⟩ | ⟨-, -, -, hfail⟩ := compressPrep_cases s
    · cases hp.symm.trans hok
    · omega
    · omega
  · exact hnext

/-- COMPRESS and ARCHIVE, when their checks pass, end with the encrypted plaintext stream in DST and its length as the
result (R241, R242, R252). -/
theorem compressWith_writesStream {finder : (Nat → Byte) → Nat → Nat → Decision} (hw : CopiesWithin finder)
    (h : SendsTokens finder) {s : State} (ho : s.overlapping = false) (he : s.lat.eIn.toNat < 2)
    (hmax : s.nSrc ≤ s.params.maxLen) (hcap : maxSize s.nSrc ≤ s.cap) :
    ∃ t, compressWith finder s = .next t ∧
      Ended (BitVec.ofNat 64 (plainStream finder s.srcByte s.lat.nSrc).length) s t ∧
      HoldsEncrypted (plainStream finder s.srcByte s.lat.nSrc) s t ∧
      DstKeptFrom (plainStream finder s.srcByte s.lat.nSrc).length s t := by
  have hworked := worked_writeStream finder (maxSize s.nSrc) s
  have hkept := (writeStream_within hw (maxSize s.nSrc) s).2
  refine ⟨_, compressWith_of_checks finder ho he hmax hcap, ?_, fun i hi => ?_, ?_⟩
  · rw [← outPos_writeStream h (maxSize s.nSrc)]
    exact ended_encryptAndFinish hworked
  · rw [get_encryptAndFinish _ (by rwa [outPos_writeStream h]), State.dstByte, get_writeStream h _ s hi,
      hworked.params, hworked.lat, List.getD_eq_getElem?_getD, List.getElem?_eq_getElem hi]
    rfl
  · rw [← outPos_writeStream h (maxSize s.nSrc)]
    exact hkept.trans (dstKeptFrom_encryptAndFinish _)

/-- Settles O40: the stream of FIND's decisions. -/
theorem compressWritesTheGreedyStream : Obligations.CompressWritesTheGreedyStream := fun _ ho he hmax hcap =>
  compressWith_writesStream copiesWithin_find sendsTokens_find ho he hmax hcap

/-- The plaintext stream under ARCHIVE's decisions is that of all literals (R147). -/
theorem plainStream_findLiteral (s : State) : plainStream findLiteral s.srcByte s.lat.nSrc =
    encodeStream s.lat.nSrc .little (((List.range s.nSrc).map fun i => .lit (s.srcByte i)) ++ [.eos]) := by
  rw [plainStream, decisions_findLiteral, List.map_map]
  rfl

/-- Settles O39: the stream of ARCHIVE's decisions, whose length follows from the widths of its items. -/
theorem archiveWritesTheLiteralStream : Obligations.ArchiveWritesTheLiteralStream := by
  intro s ho he hmax hcap
  have hlength : (plainStream findLiteral s.srcByte s.lat.nSrc).length = maxSize s.nSrc := by
    have hlit := length_literalStream s.lat.nSrc ((List.range s.nSrc).map s.srcByte)
    rw [List.map_map, List.length_map, List.length_range] at hlit
    rw [plainStream_findLiteral]
    exact hlit
  obtain ⟨t, hexec, hended, hholds, hkept⟩ :=
    compressWith_writesStream copiesWithin_findLiteral sendsTokens_findLiteral ho he hmax hcap
  rw [hlength] at hended hkept
  rw [← plainStream_findLiteral]
  exact ⟨t, hexec, hended, hlength, hholds, hkept⟩

end Sys2Proof.Machine
end

section
/-! SUPPORT. One token of DECODE (O3, O26, O29): the step that runs it, and what a literal and EndOfStream do. -/

namespace Sys2Proof.Machine

/-! ### A step inside DECODE (R160) -/

/-- A token at the reader's place is executed with the reader moved past it (R126, R127). -/
theorem tokenStep_of_decoded {s : State} {t : WireToken} {r : Reader}
    (h : decodeToken s.plainByte s.eng.reader = .ok (t, r)) :
    tokenStep s = exec t.toInstr { s with eng := { s.eng with reader := r } } := by
  simp [tokenStep, fetchToken, h]

theorem step_letRun {s : State} {rest : List HostOp} (h : s.inputs = .letRun :: rest) :
    step s = engineStep { s with inputs := rest } := by
  simp [step, nextMove, h]

/-- While a command runs, a WAIT lets the engine move and stays pending (R89). -/
theorem step_wait_busy {s : State} {rest : List HostOp} (h : s.inputs = .wait :: rest) (hdone : s.done = false)
    (hbusy : s.busy = true) : step s = engineStep s := by
  simp [step, nextMove, h, hdone, hbusy]

/-- Settles O3: whichever way the host leaves the engine to move, its move inside DECODE is the token step. -/
theorem stepRunsDecodedToken : Obligations.StepRunsDecodedToken := by
  intro s t r hbusy hcode hread
  have hmove : engineStep s = exec t.toInstr { s with eng := { s.eng with reader := r } } :=
    (engineStep_insideDecode hbusy hcode).trans (tokenStep_of_decoded hread)
  refine ⟨fun hin => (step_of_no_inputs hin).trans hmove, fun rest hin => (step_letRun hin).trans ?_,
    fun rest hin hdone => (step_wait_busy hin hdone hbusy).trans hmove⟩
  exact (engineStep_insideDecode (s := { s with inputs := rest }) hbusy hcode).trans
    (tokenStep_of_decoded (s := { s with inputs := rest }) hread)

/-! ### LIT and EOS -/

theorem execLit_within {b : Byte} {s : State} (hout : s.eng.outPos < s.declared) (hcap : s.declared ≤ s.cap) :
    execLit b s = .next (putByte b s) := by
  rw [execLit, if_neg (by omega), if_neg (by omega)]

/-- Settles O26: within `N` the literal is PUTBYTE's byte, and past it the first test raises. -/
theorem literalAppendsItsByte : Obligations.LiteralAppendsItsByte := by
  refine fun b s => ⟨fun hout hcap => ⟨s.dst.set s.eng.outPos b, execLit_within hout hcap, get_set_same _ _ _, ?_⟩,
    fun hout => if_pos hout⟩
  exact fun a ha => get_set_ne _ _ ha

/-- Settles O29: EndOfStream tests `out_pos` against `N`, and `finish` changes no byte. -/
theorem eosEndsTheCommand : Obligations.EosEndsTheCommand := fun s =>
  ⟨fun hout => ⟨finish s.declared s, if_neg (not_not_intro hout), ended_finish (Worked.refl s) _, rfl⟩,
    fun hout => if_pos hout⟩

end Sys2Proof.Machine
end

section
/-! SUPPORT. DECODE on a well-formed token stream (O46): a token within the declared length does to DST what
`replayToken` does to the output so far, so the loop leaves the bytes that the token list stands for. -/

namespace Sys2Proof.Machine

/-! ### The output so far -/

/-- The output so far is `out`: DST holds it from offset 0 on, and `out_pos` stands behind it (R160). -/
structure OutputIs (out : List Byte) (s : State) : Prop where
  outPos : s.eng.outPos = out.length
  bytes : ∀ j, j < out.length → s.dst.get j = out[j]?

theorem OutputIs.dstByte {out : List Byte} {s : State} (h : OutputIs out s) {j : Nat} (hj : j < out.length) :
    s.dstByte j = out.getD j 0 := by
  rw [State.dstByte, h.bytes j hj, List.getD_eq_getElem?_getD, List.getElem?_eq_getElem hj]
  rfl

/-- Bytes written from `out_pos` on, the output left alone, are output. -/
theorem OutputIs.append {out new : List Byte} {s u : State} (h : OutputIs out s)
    (hpos : u.eng.outPos = s.eng.outPos + new.length) (hkept : ∀ a, a < s.eng.outPos → u.dst.get a = s.dst.get a)
    (hnew : ∀ k, k < new.length → u.dst.get (s.eng.outPos + k) = new[k]?) : OutputIs (out ++ new) u := by
  obtain ⟨hout, hbytes⟩ := h
  rw [hout] at hpos hkept hnew
  refine ⟨by rw [hpos, List.length_append], fun j hj => ?_⟩
  by_cases hold : j < out.length
  · rw [List.getElem?_append_left hold, hkept j hold, hbytes j hold]
  · have hle : out.length ≤ j := Nat.not_lt.1 hold
    rw [List.length_append] at hj
    rw [List.getElem?_append_right hle, ← hnew (j - out.length) (by omega), Nat.add_sub_cancel' hle]

/-- The bytes a copy appends to the output (R67). -/
def copiedBytes (out : List Byte) (d len : Nat) : List Byte :=
  (List.range len).map fun k => out.getD (out.length - d + k % d) 0

@[simp] theorem length_copiedBytes (out : List Byte) (d len : Nat) : (copiedBytes out d len).length = len := by
  simp [copiedBytes]

theorem replayCopy_some_iff {out out' : List Byte} {d len : Nat} :
    replayCopy out d len = some out' ↔ (1 ≤ d ∧ d ≤ out.length) ∧ out' = out ++ copiedBytes out d len := by
  rw [replayCopy, copiedBytes]
  split <;> simp_all [eq_comm]

/-! ### The three formats of a copy (R162, R164, R165) -/

/-- A copy token of one of the three formats, with its distance and length (R78 to R80). -/
def CopyForm (t : WireToken) (d len : Nat) : Prop :=
  (∃ l x, t = .scopy l x ∧ shortDistance x = d ∧ shortLength l = len) ∨
  (∃ dx lf, t = .lcopy dx lf ∧ longDistance dx = d ∧ plainLength lf = len) ∨
  (∃ dx e, t = .lcopyx dx e ∧ longDistance dx = d ∧ escapeLength e = len)

/-- A token other than EndOfStream is a literal or a copy. -/
theorem token_cases {t : WireToken} (h : t ≠ .eos) : (∃ b, t = .lit b) ∨ ∃ d len, CopyForm t d len := by
  cases t with
  | lit b => exact .inl ⟨b, rfl⟩
  | scopy l x => exact .inr ⟨_, _, .inl ⟨l, x, rfl, rfl, rfl⟩⟩
  | eos => exact absurd rfl h
  | lcopy dx lf => exact .inr ⟨_, _, .inr (.inl ⟨dx, lf, rfl, rfl, rfl⟩)⟩
  | lcopyx dx e => exact .inr ⟨_, _, .inr (.inr ⟨dx, e, rfl, rfl, rfl⟩)⟩

theorem CopyForm.replayToken_eq {t : WireToken} {d len : Nat} (h : CopyForm t d len) (out : List Byte) :
    replayToken out t = replayCopy out d len := by
  obtain ⟨l, x, rfl, rfl, rfl⟩ | ⟨dx, lf, rfl, rfl, rfl⟩ | ⟨dx, e, rfl, rfl, rfl⟩ := h <;> rfl

/-- Each format is COPY_EXEC of its own distance and length; the long forms test for distance 0 first. -/
theorem CopyForm.execWire_eq {t : WireToken} {d len : Nat} (h : CopyForm t d len) (hd : 1 ≤ d) (s : State) :
    execWire t s = copyExec d len s := by
  obtain ⟨l, x, rfl, rfl, rfl⟩ | ⟨dx, lf, rfl, rfl, rfl⟩ | ⟨dx, e, rfl, rfl, rfl⟩ := h
  · rfl
  · exact if_neg (Nat.ne_of_gt hd)
  · exact if_neg (Nat.ne_of_gt hd)

/-! ### One token -/

theorem length_le_of_replayToken {t : WireToken} (hne : t ≠ .eos) {out out' : List Byte}
    (h : replayToken out t = some out') : out.length ≤ out'.length := by
  obtain ⟨b, rfl⟩ | ⟨d, len, hform⟩ := token_cases hne
  · cases h
    simp
  · rw [hform.replayToken_eq, replayCopy_some_iff] at h
    simp [h]

/-- A token within the declared length does to the output what `replayToken` says (R161, R166). -/
theorem execWire_replays {t : WireToken} (hne : t ≠ .eos) {s : State} {out out' : List Byte} (hout : OutputIs out s)
    (hreplay : replayToken out t = some out') (hlen : out'.length ≤ s.declared) (hcap : s.declared ≤ s.cap) :
    ∃ u, execWire t s = .next u ∧ u.busy = s.busy ∧ OutputIs out' u := by
  have hpos := hout.outPos
  obtain ⟨b, rfl⟩ | ⟨d, len, hform⟩ := token_cases hne
  · cases hreplay
    rw [List.length_append, List.length_singleton] at hlen
    refine ⟨putByte b s, execLit_within (by omega) hcap, rfl, hout.append rfl (fun a ha => ?_) fun k hk => ?_⟩
    · exact get_set_ne _ _ (Nat.ne_of_lt ha)
    · obtain rfl : k = 0 := Nat.lt_one_iff.1 hk
      exact get_set_same _ _ _
  · rw [hform.replayToken_eq, replayCopy_some_iff] at hreplay
    obtain ⟨⟨hd1, hd⟩, rfl⟩ := hreplay
    rw [List.length_append, length_copiedBytes] at hlen
    refine ⟨copyBytes d len s, ?_, (worked_copyBytes d len s).busy, hout.append ?_ (fun a ha => ?_) fun k hk => ?_⟩
    · exact (hform.execWire_eq hd1 s).trans (copyExec_within (by omega) (by omega) hcap)
    · rw [eng_copyBytes, length_copiedBytes]
    · exact get_copyBytes_outside d len s a (.inl ha)
    · have hmod : k % d < d := Nat.mod_lt k hd1
      rw [length_copiedBytes] at hk
      rw [get_copyBytes hd1 (by omega) hk, hout.dstByte (by omega), hpos]
      simp [copiedBytes, hk]

/-- A token that leaves the command running has appended output. -/
theorem appended_of_execWire {t : WireToken} {s u : State} (h : execWire t s = .next u) (hbusy : u.busy = true) :
    Appended s u := by
  obtain ⟨v, hv, ha⟩ | ⟨hv, -⟩ | hv | ⟨hv, -⟩ := execWire_cases t s <;> cases h.symm.trans hv
  · exact ha
  · cases hbusy
  · cases hbusy

/-! ### The loop of DECODE -/

theorem decodeLoop_of_idle {s : State} (h : s.busy = false) (fuel : Nat) : decodeLoop fuel s = .next s := by
  cases fuel with
  | zero => rfl
  | succ fuel => exact if_neg (by simp [h])

theorem decodeLoop_of_token {s u : State} {t : WireToken} {r : Reader} (hbusy : s.busy = true)
    (hread : decodeToken s.plainByte s.eng.reader = .ok (t, r))
    (hexec : execWire t { s with eng := { s.eng with reader := r } } = .next u) (fuel : Nat) :
    decodeLoop (fuel + 1) s = decodeLoop fuel u := by
  have hstep : tokenStep s = .next u := (tokenStep_of_decoded hread).trans ((exec_toInstr t _).trans hexec)
  rw [decodeLoop, if_pos hbusy, hstep]

/-- Reading a token moves the reader on, and not past SRC (R82, R128). -/
theorem inPos_of_decodeToken {s : State} {r r' : Reader} {t : WireToken}
    (h : decodeToken s.plainByte r = .ok (t, r')) : r.inPos < r'.inPos ∧ r'.inPos ≤ s.nSrc := by
  obtain ⟨⟨hlt, hin⟩, -⟩ := decodeToken_ok h
  have hlast := hin (r'.inPos - 1) (by omega) (by omega)
  rw [plainByte_isSome, decide_eq_true_eq] at hlast
  exact ⟨hlt, by omega⟩

/-! What DECODE reads, appended output leaves alone (R160). -/

theorem Appended.declared {s t : State} (h : Appended s t) : t.declared = s.declared := by
  obtain ⟨-, -, -, ht, -⟩ := h
  rw [ht]; rfl

theorem Appended.nSrc {s t : State} (h : Appended s t) : t.nSrc = s.nSrc := by
  obtain ⟨-, -, -, ht, -⟩ := h
  rw [ht]; rfl

theorem Appended.reader {s t : State} (h : Appended s t) : t.eng.reader = s.eng.reader := by
  obtain ⟨-, -, -, ht, -⟩ := h
  rw [ht]

theorem Appended.plainByte {s t : State} (h : Appended s t) : t.plainByte = s.plainByte := by
  obtain ⟨-, -, -, ht, -⟩ := h
  rw [ht]; rfl

theorem length_le_of_replay {ts : List WireToken} (hts : properTokens ts) {out out' : List Byte}
    (h : ts.foldlM replayToken out = some out') : out.length ≤ out'.length := by
  induction ts generalizing out with
  | nil => cases h; exact le_refl _
  | cons t ts ih =>
    obtain ⟨⟨-, hne⟩, hrest⟩ := List.forall_mem_cons.1 hts
    obtain ⟨mid, hmid, h⟩ := Option.bind_eq_some_iff.1 h
    exact le_trans (length_le_of_replayToken hne hmid) (ih hrest h)

/-- In front of a token list's bytes and EndOfStream, DECODE leaves what the list replays to, exactly `N` bytes, and
ends with `N` (R160 to R168). -/
theorem decodeLoop_replays {ts : List WireToken} (hts : properTokens ts) {s : State} {fuel stop : Nat}
    {out out' : List Byte} (hbusy : s.busy = true) (hcap : s.declared ≤ s.cap)
    (hfuel : s.nSrc - s.eng.reader.inPos < fuel)
    (hfeeds : Feeds s.plainByte stop ((ts ++ [WireToken.eos]).flatMap WireToken.items) s.eng.reader) (hout : OutputIs out s)
    (hreplay : ts.foldlM replayToken out = some out') (hlen : out'.length = s.declared) :
    ∃ r u, decodeLoop fuel s = .next (finish s.declared u) ∧ Appended { s with eng := { s.eng with reader := r } } u ∧
      OutputIs out' u := by
  induction ts generalizing s fuel out with
  | nil =>
    cases hreplay
    obtain ⟨fuel, rfl⟩ := Nat.exists_eq_succ_of_ne_zero (Nat.ne_zero_of_lt hfuel)
    obtain ⟨r, hread, -⟩ := hfeeds.reads_token rfl
    have hend : s.eng.outPos = s.declared := hout.outPos.trans hlen
    refine ⟨r, { s with eng := { s.eng with reader := r } }, ?_, Appended.refl (le_of_eq hend) hcap,
      ⟨hout.outPos, hout.bytes⟩⟩
    rw [decodeLoop_of_token hbusy hread (if_neg (not_not_intro hend))]
    exact decodeLoop_of_idle rfl fuel
  | cons t ts ih =>
    obtain ⟨⟨hwf, hne⟩, hrest⟩ := List.forall_mem_cons.1 hts
    obtain ⟨fuel, rfl⟩ := Nat.exists_eq_succ_of_ne_zero (Nat.ne_zero_of_lt hfuel)
    obtain ⟨mid, hmid, hreplay⟩ := Option.bind_eq_some_iff.1 hreplay
    obtain ⟨r, hread, hfeeds⟩ := hfeeds.reads_token hwf
    obtain ⟨hlt, hle⟩ := inPos_of_decodeToken hread
    have hmidlen : mid.length ≤ s.declared := hlen ▸ length_le_of_replay hrest hreplay
    obtain ⟨u, hexec, hub, hmidout⟩ := execWire_replays (s := { s with eng := { s.eng with reader := r } }) hne
      ⟨hout.outPos, hout.bytes⟩ hmid hmidlen hcap
    have hub : u.busy = true := hub.trans hbusy
    have ha := appended_of_execWire hexec hub
    have hd : u.declared = s.declared := ha.declared
    have hc : u.cap = s.cap := ha.cap
    have hn : u.nSrc = s.nSrc := ha.nSrc
    have hr : u.eng.reader = r := ha.reader
    have hp : u.plainByte = s.plainByte := ha.plainByte
    have hufuel : u.nSrc - u.eng.reader.inPos < fuel := by rw [hn, hr]; omega
    have hufeeds : Feeds u.plainByte stop ((ts ++ [WireToken.eos]).flatMap WireToken.items) u.eng.reader := by
      rw [hp, hr]; exact hfeeds
    obtain ⟨r', v, hv, hav, hvout⟩ := ih hrest hub (hd ▸ hc ▸ hcap) hufuel hufeeds hmidout hreplay (hlen.trans hd.symm)
    refine ⟨r', v, ?_, ha.trans_reader hav, hvout⟩
    rw [decodeLoop_of_token hbusy hread hexec, hv, hd]

/-! ### The commands -/

/-- A decompression command in front of a well-formed stream (R244, R245). -/
theorem decompressWith_decodes {c : Option Nat} {small : ErrKind} {s : State} {e : ByteOrder} {n : Word}
    {ts : List WireToken} {trailing out : List Byte} (hprep : decompressPrep c small s = .ok (e, n))
    (ho : s.overlapping = false) (hts : properTokens ts) (hreplay : replay ts = some out) (hlen : out.length = n.toNat)
    (hstream : ∀ j, (setStream e n s).plainByte (4 + j) = (encodeTokens (ts ++ [.eos]) ++ trailing)[j]?) :
    ∃ t, decompressWith c small s = .next t ∧ Ended (BitVec.ofNat 64 n.toNat) s t ∧
      (∀ j, j < n.toNat → t.dst.get j = out[j]?) ∧ DstKeptFrom n.toNat s t := by
  have hcap : n.toNat ≤ s.cap := (decompressPrep_ok hprep).2
  have hfeeds : Feeds (setStream e n s).plainByte (4 + (encodeTokens (ts ++ [.eos])).length)
      ((ts ++ [WireToken.eos]).flatMap WireToken.items) (rStart 4) :=
    feeds_rStart fun i hi => (hstream i).trans (List.getElem?_append_left hi)
  obtain ⟨r, u, hloop, ha, hout⟩ := decodeLoop_replays (s := enterDecode (setStream e n s)) (out := []) hts rfl hcap
    (Nat.lt_succ_of_le (Nat.sub_le _ _)) hfeeds ⟨rfl, fun j hj => absurd hj (Nat.not_lt_zero j)⟩ hreplay hlen
  obtain ⟨-, -, -, hframe, hkept, -⟩ := ha
  refine ⟨finish n.toNat u, (decompressWith_of_prep ho hprep).trans hloop, ?_, fun j hj => hout.bytes j (hlen ▸ hj),
    fun a ha => hkept a (.inr ?_)⟩
  · rw [hframe]
    rfl
  · rw [hout.outPos, hlen]
    exact ha

/-- Settles O46: both commands are DECODE behind their own checks. -/
theorem decompressDecodesAWellFormedStream : Obligations.DecompressDecodesAWellFormedStream := by
  intro i s e n ts trailing out hi ho hts hreplay hlen hstream
  obtain ⟨rfl, hprep⟩ | ⟨rfl, hprep⟩ := hi
  · exact decompressWith_decodes hprep ho hts hreplay hlen hstream
  · exact decompressWith_decodes hprep ho hts hreplay hlen hstream

end Sys2Proof.Machine
end

section
/-! SUPPORT. The round trip (O48): the decisions of a parse replay to the source, and DECOMPRESS_BUF's view of what
COMPRESS or ARCHIVE wrote is the plaintext stream. -/

namespace Sys2Proof.Machine

/-! ### The parse replays to the source -/

/-- The first `n` bytes of a source. -/
def sourceBytes (src : Nat → Byte) (n : Nat) : List Byte := (List.range n).map src

@[simp] theorem length_sourceBytes (src : Nat → Byte) (n : Nat) : (sourceBytes src n).length = n := by
  simp [sourceBytes]

theorem sourceBytes_getD (src : Nat → Byte) {n k : Nat} (hk : k < n) : (sourceBytes src n).getD k 0 = src k := by
  simp [sourceBytes, hk]

theorem sourceBytes_add (src : Nat → Byte) (p l : Nat) :
    sourceBytes src (p + l) = sourceBytes src p ++ (List.range l).map fun k => src (p + k) := by
  rw [sourceBytes, List.range_add, List.map_append, List.map_map]
  rfl

/-- Bytes that agree with those `d` back are the last `d` bytes repeated (R67, R141). -/
theorem Agree.periodic {src : Nat → Byte} {p d l : Nat} (h : Agree src p d l) (hd1 : 1 ≤ d) (hd : d ≤ p) {k : Nat}
    (hk : k < l) : src (p + k) = src (p - d + k % d) := by
  induction k using Nat.strong_induction_on with
  | _ k ih =>
    rw [h k hk]
    by_cases hkd : k < d
    · rw [Nat.mod_eq_of_lt hkd]
      congr 1
      omega
    · have hback := ih (k - d) (by omega) (by omega)
      rw [← Nat.mod_eq_sub_mod (Nat.not_lt.1 hkd)] at hback
      rw [← hback]
      congr 1
      omega

/-- A decision at the cursor `p` that says what the source holds there: its byte, or a copy within the limits of R87 of
bytes that agree (R142, R147). -/
def SaysSource (src : Nat → Byte) (p : Nat) : Decision → Prop
  | .literal b => b = src p
  | .copy d l => (2 ≤ l ∧ l ≤ 264) ∧ (1 ≤ d ∧ d ≤ 8191) ∧ d ≤ p ∧ Agree src p d l

theorem saysSource_find (src : Nat → Byte) (n p : Nat) : SaysSource src p (find src n p) := by
  obtain ⟨best, hbest, ⟨h2, hfind⟩ | ⟨-, hfind⟩⟩ := find_cases src n p <;> rw [hfind]
  · obtain ⟨h1, hd, hlen⟩ := hbest.found (by omega)
    have hlimit := matchLen_le_limit src n p best.2
    have hwindow : best.2 ≤ 8191 := le_trans hd (Nat.min_le_right _ _)
    refine ⟨⟨h2, by omega⟩, ⟨h1, hwindow⟩, le_trans hd (Nat.min_le_left _ _), ?_⟩
    rw [hlen]
    exact agree_matchLenFrom _ (agree_zero src p best.2)
  · rfl

theorem saysSource_findLiteral (src : Nat → Byte) (n p : Nat) : SaysSource src p (findLiteral src n p) := rfl

/-- A decision function of COMPRESS or ARCHIVE: its copies stay within the source, it is sent as tokens, and each of its
decisions says what the source holds. -/
structure Faithful (finder : (Nat → Byte) → Nat → Nat → Decision) : Prop where
  copies : CopiesWithin finder
  sends : SendsTokens finder
  source : ∀ src n p, SaysSource src p (finder src n p)

theorem faithful_find : Faithful find := ⟨copiesWithin_find, sendsTokens_find, saysSource_find⟩

theorem faithful_findLiteral : Faithful findLiteral :=
  ⟨copiesWithin_findLiteral, sendsTokens_findLiteral, saysSource_findLiteral⟩

theorem exec_eq_compressWith {i : Instr} (hi : i ∈ [.compress, .archive]) :
    ∃ finder, Faithful finder ∧ ∀ s, exec i s = compressWith finder s := by
  simp only [List.mem_cons, List.not_mem_nil, or_false] at hi
  obtain rfl | rfl := hi
  · exact ⟨find, faithful_find, fun _ => rfl⟩
  · exact ⟨findLiteral, faithful_findLiteral, fun _ => rfl⟩

/-- The token COPY selects is a copy with the decision's distance and length (R88, R170). -/
theorem copyForm_of_asmCopy {d l : Nat} {t : WireToken} (ht : asmCopy l d = some t) : CopyForm t d l := by
  obtain ⟨-, lf, x, rfl, hl, hd⟩ | ⟨-, -, dx, lf, rfl, hl, hd⟩ | ⟨-, dx, e, rfl, hl, hd⟩ := asmCopy_selects ht
  · exact .inl ⟨lf, x, rfl, hd, hl⟩
  · exact .inr (.inl ⟨dx, lf, rfl, hd, hl⟩)
  · exact .inr (.inr ⟨dx, e, rfl, hd, hl⟩)

theorem asmCopy_wire {d l : Nat} (hl : 2 ≤ l ∧ l ≤ 264) (hd : 1 ≤ d ∧ d ≤ 8191) :
    asmCopy l d = some (Decision.copy d l).wire := by
  cases ht : asmCopy l d with
  | none => exact absurd ⟨hl.1, hl.2, hd⟩ (asmCopy_none_iff.1 ht)
  | some t => rw [Decision.wire, ht, Option.getD_some]

theorem wellFormed_of_legal {i : Instr} (h : i.legal = true) : i.wellFormed = true := by
  exact (Bool.and_eq_true_iff.1 h).1

theorem CopyForm.ne_eos {t : WireToken} {d len : Nat} (h : CopyForm t d len) : t ≠ .eos := by
  obtain ⟨l, x, rfl, -⟩ | ⟨dx, lf, rfl, -⟩ | ⟨dx, e, rfl, -⟩ := h <;> exact nofun

/-- The token of such a decision may stand in front of EndOfStream. -/
theorem SaysSource.wire_proper {src : Nat → Byte} {p : Nat} {t : Decision} (h : SaysSource src p t) :
    t.wire.toInstr.wellFormed = true ∧ t.wire ≠ .eos := by
  cases t with
  | literal b => exact ⟨rfl, nofun⟩
  | copy d l =>
    obtain ⟨hl, hd, -⟩ := h
    have ht := asmCopy_wire hl hd
    exact ⟨wellFormed_of_legal (legal_of_asmCopy ht), (copyForm_of_asmCopy ht).ne_eos⟩

/-- The token of such a decision takes the source up to `p` to the source up to where the decision moves (R145). -/
theorem SaysSource.replayToken_wire {src : Nat → Byte} {p : Nat} {t : Decision} (h : SaysSource src p t) :
    replayToken (sourceBytes src p) t.wire = some (sourceBytes src (p + t.advance)) := by
  cases t with
  | literal b =>
    obtain rfl : b = src p := h
    rw [Decision.advance, sourceBytes_add]
    rfl
  | copy d l =>
    obtain ⟨hl, hd, hdp, hagree⟩ := h
    rw [(copyForm_of_asmCopy (asmCopy_wire hl hd)).replayToken_eq, replayCopy_some_iff, length_sourceBytes]
    refine ⟨⟨hd.1, hdp⟩, ?_⟩
    rw [Decision.advance, sourceBytes_add, copiedBytes, length_sourceBytes]
    congr 1
    refine List.map_congr_left fun k hk => ?_
    have hmod : k % d < d := Nat.mod_lt k hd.1
    rw [sourceBytes_getD src (by omega), hagree.periodic hd.1 hdp (List.mem_range.1 hk)]

section
variable {finder : (Nat → Byte) → Nat → Nat → Decision} (hf : Faithful finder) {src : Nat → Byte} {n p : Nat}
include hf

theorem properTokens_decisions (fuel : Nat) : properTokens ((decisions finder src n fuel p).map Decision.wire) := by
  induction fuel generalizing p with
  | zero => exact nofun
  | succ fuel ih =>
    by_cases h : p < n
    · rw [decisions_of_lt fuel h, List.map_cons]
      exact List.forall_mem_cons.2 ⟨(hf.source src n p).wire_proper, ih⟩
    · rw [decisions_of_le _ (Nat.not_lt.1 h)]
      exact nofun

/-- The decisions from the cursor on replay to the rest of the source. -/
theorem replay_decisions (fuel : Nat) (hp : p ≤ n) (hfuel : n ≤ p + fuel) :
    ((decisions finder src n fuel p).map Decision.wire).foldlM replayToken (sourceBytes src p) =
      some (sourceBytes src n) := by
  induction fuel generalizing p with
  | zero => rw [Nat.le_antisymm hp hfuel]; rfl
  | succ fuel ih =>
    obtain hlt | rfl := Nat.lt_or_eq_of_le hp
    · obtain ⟨hpos, hin⟩ := advance_bounds (src := src) hf.copies hlt
      rw [decisions_of_lt fuel hlt, List.map_cons, List.foldlM_cons, (hf.source src n p).replayToken_wire]
      exact ih (by omega) (by omega)
    · rw [decisions_of_le _ (le_refl p)]
      rfl

end

/-! ### What DECOMPRESS_BUF reads -/

/-- A fixed order, a source of at least a header, and a header within MAX_LEN and `cap` pass the checks of
DECOMPRESS_BUF (R244, R250). -/
theorem decompressPrep_of_header {small : ErrKind} {c : Option Nat} {s : State} {e : ByteOrder} {n : Word}
    (he : endianOf s.lat.eIn = some (some e)) (h4 : 4 ≤ s.nSrc) (hn : hdrCandidate e s = n)
    (hmax : n.toNat ≤ s.params.maxLen) (hcap : n.toNat ≤ s.cap) : decompressPrep c small s = .ok (e, n) := by
  have h0 : s.nSrc ≠ 0 := by omega
  simp [decompressPrep, dprep, he, h0, Nat.not_lt.2 h4, hn, Nat.not_lt.2 hmax, Nat.not_lt.2 hcap]

/-- SRC of `s` is a plaintext stream encrypted in LITTLE with the latched key, `n_src` its length (R103, R127). -/
structure SrcEncrypts (plain : List Byte) (s : State) : Prop where
  keyEn : s.lat.keyEn = true
  length : s.nSrc = plain.length
  bytes : ∀ i, i < plain.length → s.srcByte i = plain.getD i 0 ^^^ ksByte s.params s.lat.key .little i

/-- The reader sees the plaintext stream (R127). -/
theorem SrcEncrypts.plainByte {plain : List Byte} {s : State} (h : SrcEncrypts plain s) (n : Word) (i : Nat) :
    (setStream .little n s).plainByte i = plain[i]? := by
  obtain ⟨hkey, hlen, hbytes⟩ := h
  by_cases hi : i < plain.length
  · have hplain : (setStream .little n s).plainByte i = some (s.srcByte i ^^^ ksByte s.params s.lat.key .little i) := by
      have hin : i < (setStream .little n s).nSrc := hlen ▸ hi
      rw [State.plainByte, if_pos hin, setStream_eng, hkey]
      rfl
    rw [hplain, hbytes i hi, BitVec.xor_assoc, BitVec.xor_self, BitVec.xor_zero, List.getD_eq_getElem?_getD,
      List.getElem?_eq_getElem hi]
    rfl
  · have hlast : plain.length ≤ i := Nat.not_lt.1 hi
    have hout : (setStream .little n s).nSrc ≤ i := hlen ▸ hlast
    rw [plainByte_of_le hout, List.getElem?_eq_none hlast]

/-- The header of such a stream is its declared length (R74, R202). -/
theorem SrcEncrypts.hdrCandidate {n : Word} {rest : List Byte} {s : State}
    (h : SrcEncrypts (ser .little n ++ rest) s) : hdrCandidate .little s = n := by
  rw [hdrCandidate_eq_par_plain .little n s _ _ _ _ (h.plainByte n 0) (h.plainByte n 1) (h.plainByte n 2)
    (h.plainByte n 3)]
  exact par_getD_ser .little n

/-- Decompressing the encrypted stream of a parse in LITTLE gives the source back (R175). -/
theorem decompressBuf_restores {finder : (Nat → Byte) → Nat → Nat → Decision} (hf : Faithful finder)
    {src : Nat → Byte} {n : Word} {u : State} (hsrc : SrcEncrypts (plainStream finder src n) u)
    (ho : u.overlapping = false) (he : u.lat.eIn = 0) (hmax : n.toNat ≤ u.params.maxLen) (hcap : n.toNat ≤ u.cap) :
    ∃ v, exec .decompressBuf u = .next v ∧ Ended (BitVec.ofNat 64 n.toNat) u v ∧
      ∀ a, a < n.toNat → v.dst.get a = some (src a) := by
  have h4 : 4 ≤ u.nSrc := by
    rw [hsrc.length, plainStream, encodeStream, List.length_append, ser_length]
    exact Nat.le_add_right 4 _
  have hprep : decompressPrep none .outOfMemory u = .ok (.little, n) :=
    decompressPrep_of_header (he ▸ rfl) h4 hsrc.hdrCandidate hmax hcap
  have hreplay := replay_decisions hf (src := src) n.toNat (Nat.zero_le _) (Nat.le_add_left _ 0)
  have hstream : ∀ j, (setStream .little n u).plainByte (4 + j) =
      (encodeTokens ((decisions finder src n.toNat n.toNat 0).map Decision.wire ++ [.eos]) ++ [])[j]? := by
    intro j
    rw [hsrc.plainByte, plainStream, encodeStream, List.append_nil, List.getElem?_append_right (by simp), ser_length,
      Nat.add_sub_cancel_left]
  obtain ⟨v, hexec, hended, hbytes, -⟩ := decompressWith_decodes hprep ho (properTokens_decisions hf n.toNat)
    hreplay (length_sourceBytes src n.toNat) hstream
  refine ⟨v, hexec, hended, fun a ha => ?_⟩
  rw [hbytes a ha]
  simp [sourceBytes, ha]

/-! ### The round trip -/

theorem toInt_ofNat_of_lt {v : Nat} (h : v < 2 ^ 63) : (BitVec.ofNat 64 v).toInt = v := by
  rw [BitVec.toInt_ofNat', Int.bmod_def]
  omega

theorem toInt_errKind_neg (k : ErrKind) : (BitVec.ofInt 64 k.code).toInt < 0 := by cases k <;> decide

/-- COMPRESS or ARCHIVE has ended with a size: its checks have passed, and DST holds the encrypted stream, whose length
is the size (R241, R242). -/
theorem compressWith_size {finder : (Nat → Byte) → Nat → Nat → Decision} (hf : Faithful finder) {s t : State}
    (h : compressWith finder s = .next t) (hsize : 0 ≤ t.result.toInt) :
    s.nSrc ≤ s.params.maxLen ∧ t.result.toInt = (plainStream finder s.srcByte s.lat.nSrc).length ∧
      HoldsEncrypted (plainStream finder s.srcByte s.lat.nSrc) s t := by
  obtain ⟨hu, -⟩ | ⟨k, -, hu⟩ | ⟨ho, hp, -⟩ := compressWith_cases finder s
  · cases h.symm.trans hu
  · cases h.symm.trans hu
    exact absurd hsize (Int.not_le.2 (toInt_errKind_neg k))
  · obtain ⟨-, he, hmax, hcap⟩ | ⟨hfail, -⟩ | ⟨hfail, -⟩ := compressPrep_cases s
    · obtain ⟨t', ht', hended, hholds, -⟩ := compressWith_writesStream hf.copies hf.sends ho he hmax hcap
      cases h.symm.trans ht'
      have hbound := outPos_writeStream_le finder (maxSize s.nSrc) s
      have hn := nSrc_lt s
      rw [outPos_writeStream hf.sends] at hbound
      refine ⟨hmax, ?_, hholds⟩
      rw [hended]
      exact toInt_ofNat_of_lt (by omega)
    · cases hp.symm.trans hfail
    · cases hp.symm.trans hfail

/-- Settles O48: SRC encrypts the stream that the first command left in DST, and its tokens replay to the source. -/
theorem decompressionRestoresTheSource : Obligations.DecompressionRestoresTheSource := by
  intro i s t u hi h hsize hparams ho he hkeyEn hkey hn hcap hbytes
  obtain ⟨finder, hf, hexec⟩ := exec_eq_compressWith hi
  obtain ⟨hmax, hlen, hholds⟩ := compressWith_size hf ((hexec s).symm.trans h) hsize
  have hlen : u.nSrc = (plainStream finder s.srcByte s.lat.nSrc).length := Int.ofNat_inj.1 (hn.trans hlen)
  have hsrc : SrcEncrypts (plainStream finder s.srcByte s.lat.nSrc) u := by
    refine ⟨hkeyEn, hlen, fun i hi => ?_⟩
    rw [hbytes i (hlen ▸ hi), State.dstByte, hholds i hi, hparams, hkey]
    rfl
  obtain ⟨v, hv, hended, hdst⟩ := decompressBuf_restores hf hsrc ho he (hparams ▸ hmax) hcap
  refine ⟨v, hv, by rw [hended]; rfl, by rw [hended], by rw [hended], fun a ha => ?_⟩
  rw [State.dstByte, hdst a ha]
  rfl

end Sys2Proof.Machine
end

section
/-! SUPPORT. The size formulas of the header logic (O36, O41): no parse packs into more bytes than MAX_SIZE, and
MAX_SIZE of a 32-bit length is a positive 64-bit number. -/

namespace Sys2Proof.Machine

/-- The stream of a parse is within MAX_SIZE: nine stream bits at most for each source byte, and EndOfStream (R203,
R205). -/
theorem length_plainStream_le {finder : (Nat → Byte) → Nat → Nat → Decision} (hw : CopiesWithin finder)
    (h : SendsTokens finder) (src : Nat → Byte) (n : Word) : (plainStream finder src n).length ≤ maxSize n.toNat := by
  have hitems := itemsWidth_streamItems_le hw src n.toNat
  rw [plainStream_eq h, List.length_append, ser_length, length_pack (by decide) (le_refl 8), maxSize, hdrBytes]
  omega

/-- Settles O41: FIND's copies stay within the source and are sent as their tokens. -/
theorem compressedStreamIsBounded : Obligations.CompressedStreamIsBounded :=
  length_plainStream_le copiesWithin_find sendsTokens_find

/-- Settles O36: the result is MAX_SIZE, far below 2^63. -/
theorem maxCompressedSizeIsPure : Obligations.MaxCompressedSizeIsPure := by
  intro s
  have hresult : (finish (maxSize s.nSrc) s).result.toInt = maxSize s.nSrc := toInt_ofNat_of_lt (maxSize_nSrc_lt s)
  have hformula : maxSize s.nSrc = 4 + s.lat.nSrc.toNat + (s.lat.nSrc.toNat + 4 + 7) / 8 + 1 := rfl
  have hn : s.lat.nSrc.toNat < 2 ^ 32 := nSrc_lt s
  refine ⟨_, rfl, rfl, ended_finish (Worked.refl s) _, ?_, ?_⟩ <;> rw [hresult, hformula]
  · push_cast
    rfl
  · omega

end Sys2Proof.Machine
end

section
/-! SUPPORT. The front end of the decompression commands (O43, O44, O49): what DPREP answers by its checks, what each
command makes of that answer, and that DPREP reads the header only. -/

namespace Sys2Proof.Machine

/-! ### The checks of DPREP -/

section
variable {s : State} (c : Option Nat)

/-- An empty source is rejected whatever the byte order (R250). -/
theorem dprep_of_empty (h : s.nSrc = 0) : dprep c s = .error .invalidArgument := by
  cases he : endianOf s.lat.eIn with
  | none => simp [dprep, he]
  | some order => simp [dprep, he, h]

/-- A legal byte order and a source shorter than a header (R250). -/
theorem dprep_of_short (he : s.lat.eIn.toNat ≤ 2) (h1 : 1 ≤ s.nSrc) (h4 : s.nSrc < 4) :
    dprep c s = .error .badFormat := by
  have h0 : s.nSrc ≠ 0 := by omega
  obtain ⟨ho, -⟩ | ⟨ho, -⟩ | ⟨ho, -⟩ | ⟨-, hlarge⟩ := endianOf_cases s.lat.eIn
  case inr.inr.inr => omega
  all_goals simp [dprep, ho, h0, h4]

/-- Under a fixed order and behind the length checks, MAX_LEN decides (R208, R250). -/
theorem dprep_of_fixed {e : ByteOrder} (he : endianOf s.lat.eIn = some (some e)) (h4 : 4 ≤ s.nSrc) :
    dprep c s =
      if s.params.maxLen < (hdrCandidate e s).toNat then .error .badFormat else .ok (e, hdrCandidate e s) := by
  have h0 : s.nSrc ≠ 0 := by omega
  simp [dprep, he, h0, Nat.not_lt.2 h4]

end

/-! ### The commands behind DPREP -/

theorem decompressPrep_of_error {c : Option Nat} {small k : ErrKind} {s : State} (h : dprep c s = .error k) :
    decompressPrep c small s = .error k := by
  simp [decompressPrep, h]

theorem decompressPrep_of_small {c : Option Nat} {small : ErrKind} {s : State} {e : ByteOrder} {n : Word}
    (h : dprep c s = .ok (e, n)) (hcap : s.cap < n.toNat) : decompressPrep c small s = .error small := by
  simp [decompressPrep, h, hcap]

theorem decompressWith_of_error {c : Option Nat} {small k : ErrKind} {s : State} (ho : s.overlapping = false)
    (h : decompressPrep c small s = .error k) : decompressWith c small s = .next (raiseError k s) := by
  simp [decompressWith, ho, h]

theorem execDecompressSize_of_error {s : State} {k : ErrKind} (h : dprep none s = .error k) :
    execDecompressSize s = .next (raiseError k s) := by
  simp [execDecompressSize, h]

theorem execDecompressSize_of_ok {s : State} {e : ByteOrder} {n : Word} (h : dprep none s = .ok (e, n)) :
    execDecompressSize s = .next (finish n.toNat s) := by
  simp [execDecompressSize, h]

/-- A check of DPREP that fails under every capacity fails each decompression command, with DST unchanged (R250). -/
theorem decompression_fails {i : Instr} {s : State} {k : ErrKind}
    (hi : i ∈ [.decompressBuf, .decompressBuf2, .decompressSize]) (ho : s.overlapping = false)
    (h : ∀ c, dprep c s = .error k) : ∃ t, exec i s = .next t ∧ FailedWith k s t := by
  refine ⟨raiseError k s, ?_, failedWith_raiseError k s⟩
  simp only [List.mem_cons, List.not_mem_nil, or_false] at hi
  obtain rfl | rfl | rfl := hi
  · exact decompressWith_of_error ho (decompressPrep_of_error (h _))
  · exact decompressWith_of_error ho (decompressPrep_of_error (h _))
  · exact execDecompressSize_of_error (h none)

/-- A declared length above `cap` is the command's own error kind, with DST unchanged (R244, R245). -/
theorem decompressWith_small {c : Option Nat} (small : ErrKind) {s : State} {e : ByteOrder} {n : Word}
    (ho : s.overlapping = false) (h : dprep c s = .ok (e, n)) (hcap : s.cap < n.toNat) :
    ∃ t, decompressWith c small s = .next t ∧ FailedWith small s t :=
  ⟨_, decompressWith_of_error ho (decompressPrep_of_small h hcap), failedWith_raiseError small s⟩

/-- Settles O43: each clause is one check of the front end, or the capacity check behind it. -/
theorem decompressionChecksComeFirst : Obligations.DecompressionChecksComeFirst := by
  refine ⟨fun i s hi ho he => ⟨fun h0 => ?_, fun h1 h4 => ?_, fun e h4 hfixed hmax => ?_⟩,
    fun s e ho h4 hfixed hmax hcap => ?_⟩
  · exact decompression_fails hi ho fun c => dprep_of_empty c h0
  · exact decompression_fails hi ho fun c => dprep_of_short c he h1 h4
  · exact decompression_fails hi ho fun c => (dprep_of_fixed c hfixed h4).trans (if_pos hmax)
  · have hok : ∀ c, dprep c s = .ok (e, hdrCandidate e s) := fun c =>
      (dprep_of_fixed c hfixed h4).trans (if_neg (Nat.not_lt.2 hmax))
    exact ⟨decompressWith_small _ ho (hok _) hcap, decompressWith_small _ ho (hok _) hcap⟩

/-! ### DPREP reads the header only -/

section
variable {s : State} {m : Memory} (h : ∀ i, i < 4 → m.get i = s.src.get i)
include h

theorem hdrCandidate_of_same_header (e : ByteOrder) : hdrCandidate e { s with src := m } = hdrCandidate e s := by
  have hbyte : ∀ i, i < 4 → State.srcByte { s with src := m } i = s.srcByte i := fun i hi => by
    rw [State.srcByte, State.srcByte, h i hi]
  rw [hdrCandidate, hdrCandidate, hbyte 0 (by decide), hbyte 1 (by decide), hbyte 2 (by decide), hbyte 3 (by decide)]

theorem resolve_of_same_header (c : Option Nat) : resolve c { s with src := m } = resolve c s := by
  rw [resolve, resolve, hdrCandidate_of_same_header h, hdrCandidate_of_same_header h]

theorem dprep_of_same_header (c : Option Nat) : dprep c { s with src := m } = dprep c s := by
  unfold dprep
  simp only [resolve_of_same_header h, hdrCandidate_of_same_header h]
  rfl

end

/-- Settles O44: DECOMPRESS_SIZE is DPREP without a capacity, and DPREP's answer is that of the header. -/
theorem decompressSizeReportsTheDeclaredLength : Obligations.DecompressSizeReportsTheDeclaredLength := by
  refine ⟨fun s e n h => ?_, fun s k h => ?_, fun s e he h4 hmax => ?_, fun s m h => ?_⟩
  · exact ⟨_, execDecompressSize_of_ok h, ended_finish (Worked.refl s) _, rfl⟩
  · exact ⟨_, execDecompressSize_of_error h, failedWith_raiseError k s⟩
  · exact (dprep_of_fixed none he h4).trans (if_neg (Nat.not_lt.2 hmax))
  · show execDecompressSize { s with src := m } = mapNext _ (execDecompressSize s)
    cases hd : dprep none s with
    | error k =>
      rw [execDecompressSize_of_error hd, execDecompressSize_of_error ((dprep_of_same_header h none).trans hd)]
      rfl
    | ok p =>
      obtain ⟨e, n⟩ := p
      rw [execDecompressSize_of_ok hd, execDecompressSize_of_ok ((dprep_of_same_header h none).trans hd)]
      rfl

/-! ### The size that DECOMPRESS_BUF ends with -/

/-- DECODE ends with the declared length, or with BadFormat (R160, R163). -/
theorem result_decode {s t : State} (hcap : s.declared ≤ s.cap) (h : decode s = .next t) :
    t.result = BitVec.ofNat 64 s.declared ∨ t.result = BitVec.ofInt 64 ErrKind.badFormat.code := by
  obtain ⟨r, r', u, -, ⟨hend, -⟩ | hend⟩ := decode_ends hcap <;> cases h.symm.trans hend
  · exact .inl rfl
  · exact .inr rfl

/-- A decompression command that ends with a size has passed its front end, and the size is the length declared there
(R244, R245). -/
theorem decompressWith_size {c : Option Nat} {small : ErrKind} {s t : State} (h : decompressWith c small s = .next t)
    (hsize : 0 ≤ t.result.toInt) : ∃ e n, dprep c s = .ok (e, n) ∧ t.result = BitVec.ofNat 64 n.toNat := by
  have hcode : ∀ k : ErrKind, t.result ≠ BitVec.ofInt 64 k.code := fun k hk =>
    absurd (toInt_errKind_neg k) (Int.not_lt.2 (hk ▸ hsize))
  obtain ⟨hu, -⟩ | ⟨k, -, hu⟩ | ⟨e, n, -, hp, hu⟩ := decompressWith_cases c small s
  · cases h.symm.trans hu
  · cases h.symm.trans hu
    exact absurd rfl (hcode k)
  · obtain ⟨hd, hcap⟩ := decompressPrep_ok hp
    exact ⟨e, n, hd, (result_decode (s := setStream e n s) hcap (hu.symm.trans h)).resolve_right (hcode _)⟩

/-- Settles O49: DECOMPRESS_BUF and DECOMPRESS_SIZE share the front end, which reads no capacity. -/
theorem sizePredictionAgreesWithDecompression : Obligations.SizePredictionAgreesWithDecompression := by
  intro s t h hsize
  obtain ⟨e, n, hd, hresult⟩ := decompressWith_size h hsize
  exact ⟨_, execDecompressSize_of_ok hd, hresult.symm, rfl⟩

end Sys2Proof.Machine
end

section
/-! SUPPORT. The end of the decompression commands (O47): DECODE ends within its fuel (R318) with the length declared or
with BadFormat, so a command that is not refused ends with what its front end declares or with an error kind. -/

namespace Sys2Proof.Machine

/-- DECODE runs to a command's end, whatever SRC holds (R160, R318). -/
theorem ended_decode {s : State} (hcap : s.declared ≤ s.cap) : ∃ t, decode s = .next t ∧ Ended t.result s t := by
  obtain ⟨r, r', u, ⟨-, -, -, hframe, -⟩, ⟨hend, -⟩ | hend⟩ := decode_ends hcap
  · exact ⟨_, hend, by rw [hframe]; rfl⟩
  · exact ⟨_, hend, by rw [hframe]; rfl⟩

/-- An error kind the block raises has one of the codes -1 to -4 (R280, R286). -/
theorem toInt_errKind_mem {k : ErrKind} (h : k ≠ .ioFailure) : (BitVec.ofInt 64 k.code).toInt ∈ [-1, -2, -3, -4] :=
  (sizeOrCode_errKind h).resolve_left (Int.not_le.2 (toInt_errKind_neg k))

/-- Without overlap a decompression command ends, with the length its front end declares, within `cap`, or with an
error code (R244, R245, R288). -/
theorem decompressWith_ends {c : Option Nat} {small : ErrKind} (hsmall : small ≠ .ioFailure) {s : State}
    (ho : s.overlapping = false) :
    ∃ t, decompressWith c small s = .next t ∧ Ended t.result s t ∧
      ((∃ e n, dprep c s = .ok (e, n) ∧ n.toNat ≤ s.cap ∧ t.result = BitVec.ofNat 64 n.toNat) ∨
        t.result.toInt ∈ [-1, -2, -3, -4]) := by
  obtain ⟨-, ho'⟩ | ⟨k, hk, hexec⟩ | ⟨e, n, -, hp, hexec⟩ := decompressWith_cases c small s
  · exact absurd (ho.symm.trans ho') Bool.false_ne_true
  · exact ⟨_, hexec, ended_raiseError (Worked.refl s) k, .inr (toInt_errKind_mem (decompressPrep_error hsmall hk))⟩
  · obtain ⟨hd, hcap⟩ := decompressPrep_ok hp
    obtain ⟨t, hdecode, hended⟩ := ended_decode (s := setStream e n s) hcap
    refine ⟨t, hexec.trans hdecode, hended, ?_⟩
    obtain hsize | hbad := result_decode (s := setStream e n s) hcap hdecode
    · exact .inl ⟨e, n, hd, hcap, hsize⟩
    · exact .inr (hbad ▸ toInt_errKind_mem (by decide))

/-- DECOMPRESS_BUF and DECOMPRESS_BUF2 differ in the capacity for RESOLVE and the kind for a small buffer only (R244,
R245). -/
theorem exec_eq_decompressWith {i : Instr} {s : State} {c : Option Nat}
    (h : (i = .decompressBuf ∧ c = none) ∨ (i = .decompressBuf2 ∧ c = some s.cap)) :
    ∃ small, small ≠ .ioFailure ∧ exec i s = decompressWith c small s := by
  obtain ⟨rfl, rfl⟩ | ⟨rfl, rfl⟩ := h
  · exact ⟨.outOfMemory, by decide, rfl⟩
  · exact ⟨.bufferTooSmall, by decide, rfl⟩

/-- Settles O47: each command ends behind its own front end, and no instruction writes at or beyond `cap`. -/
theorem decompressionAlwaysEnds : Obligations.DecompressionAlwaysEnds := by
  intro i s c hi ho
  obtain ⟨small, hsmall, hexec⟩ := exec_eq_decompressWith hi
  obtain ⟨t, hends, hended, hresult⟩ := decompressWith_ends (c := c) hsmall ho
  have hnext : exec i s = .next t := hexec.trans hends
  exact ⟨t, hnext, hended, dstKeptFrom_exec hnext, hresult⟩

end Sys2Proof.Machine
end

section
/-! SUPPORT. ENDIAN outside a command's domain (O35): the byte order is tested before anything else, so the commands'
checks answer InvalidArgument whatever the other operands are (R220, R226). -/

namespace Sys2Proof.Machine

/-- COMPRESS and ARCHIVE take neither AUTO nor a code outside the domain (R226, R241). -/
theorem compressPrep_of_not_fixed {s : State} (he : 2 ≤ s.lat.eIn.toNat) :
    compressPrep s = .error .invalidArgument := by
  obtain ⟨-, hfixed, -⟩ | ⟨herror, -⟩ | ⟨-, hfixed, -⟩ := compressPrep_cases s
  · omega
  · exact herror
  · omega

/-- CRYPT takes neither AUTO nor a code outside the domain (R226, R247). -/
theorem cryptPrep_of_not_fixed {s : State} (he : 2 ≤ s.lat.eIn.toNat) : cryptPrep s = .error .invalidArgument := by
  obtain ⟨e, -, ho, -⟩ | ⟨herror, -⟩ | ⟨-, hfixed, -⟩ := cryptPrep_cases s
  · obtain ⟨-, h⟩ | ⟨-, h⟩ | ⟨hauto, -⟩ | ⟨hnone, -⟩ := endianOf_cases s.lat.eIn
    · omega
    · omega
    · cases ho.symm.trans hauto
    · cases ho.symm.trans hnone
  · exact herror
  · omega

/-- DPREP takes no code outside the domain (R220, R250). -/
theorem dprep_of_outside {s : State} (c : Option Nat) (he : 2 < s.lat.eIn.toNat) :
    dprep c s = .error .invalidArgument := by
  obtain ⟨-, h⟩ | ⟨-, h⟩ | ⟨-, h⟩ | ⟨hnone, -⟩ := endianOf_cases s.lat.eIn
  · omega
  · omega
  · omega
  · simp [dprep, hnone]

theorem compressWith_of_error (finder : (Nat → Byte) → Nat → Nat → Decision) {s : State} {k : ErrKind}
    (ho : s.overlapping = false) (h : compressPrep s = .error k) : compressWith finder s = .next (raiseError k s) := by
  simp [compressWith, ho, h]

theorem execCrypt_of_error {s : State} {k : ErrKind} (ho : s.overlapping = false) (h : cryptPrep s = .error k) :
    execCrypt s = .next (raiseError k s) := by
  simp [execCrypt, ho, h]

/-- The commands without AUTO fail under every order but LITTLE and BIG, with DST unchanged (R226). -/
theorem fixedOrderCommands_fail {i : Instr} {s : State} (hi : i ∈ [.compress, .archive, .crypt])
    (ho : s.overlapping = false) (he : 2 ≤ s.lat.eIn.toNat) :
    ∃ t, exec i s = .next t ∧ FailedWith .invalidArgument s t := by
  refine ⟨raiseError .invalidArgument s, ?_, failedWith_raiseError .invalidArgument s⟩
  simp only [List.mem_cons, List.not_mem_nil, or_false] at hi
  obtain rfl | rfl | rfl := hi
  · exact compressWith_of_error find ho (compressPrep_of_not_fixed he)
  · exact compressWith_of_error findLiteral ho (compressPrep_of_not_fixed he)
  · exact execCrypt_of_error ho (cryptPrep_of_not_fixed he)

/-- Settles O35: the commands without AUTO and the decompression commands, each by its own check of ENDIAN. -/
theorem endianDomainIsChecked : Obligations.EndianDomainIsChecked := by
  refine ⟨fun i s hi ho he => ?_, fun i s hi ho he => fixedOrderCommands_fail hi ho (by rw [he]; decide)⟩
  have hsplit : i ∈ [.compress, .archive, .crypt] ∨ i ∈ [.decompressBuf, .decompressBuf2, .decompressSize] := by
    simp only [List.mem_cons, List.not_mem_nil, or_false] at hi ⊢
    tauto
  obtain hi | hi := hsplit
  · exact fixedOrderCommands_fail hi ho (Nat.le_of_lt he)
  · exact decompression_fails hi ho fun c => dprep_of_outside c he

end Sys2Proof.Machine
end

section
/-! SUPPORT. RESOLVE (O45): which candidates fit the capacity and MAX_LEN decides its answer (R222 to R225). -/

namespace Sys2Proof.Machine

/-- The header candidate of an order is PLAUSIBLE within a capacity, none for no bound but MAX_LEN (R222). -/
def CandidateFits (e : ByteOrder) (c : Option Nat) (s : State) : Prop :=
  plausible s.params (hdrCandidate e s) c = true

section
variable {e : ByteOrder} {c : Option Nat} {s : State}

theorem candidateFits_none_iff : CandidateFits e none s ↔ (hdrCandidate e s).toNat ≤ s.params.maxLen := by
  simp [CandidateFits, plausible]

theorem candidateFits_some_iff {k : Nat} :
    CandidateFits e (some k) s ↔ (hdrCandidate e s).toNat ≤ s.params.maxLen ∧ (hdrCandidate e s).toNat ≤ k := by
  simp [CandidateFits, plausible]

theorem CandidateFits.le_maxLen (h : CandidateFits e c s) : (hdrCandidate e s).toNat ≤ s.params.maxLen :=
  of_decide_eq_true (Bool.and_eq_true_iff.1 h).1

/-! ### The branches of RESOLVE (R223 to R225) -/

theorem resolve_of_big (hB : CandidateFits .big c s) : resolve c s = some (.big, hdrCandidate .big s) := if_pos hB

theorem resolve_of_little (hB : ¬ CandidateFits .big c s) (hL : CandidateFits .little c s) :
    resolve c s = some (.little, hdrCandidate .little s) :=
  (if_neg hB).trans (if_pos hL)

theorem resolve_of_big_fallback (hB : ¬ CandidateFits .big c s) (hL : ¬ CandidateFits .little c s)
    (hBmax : CandidateFits .big none s) : resolve c s = some (.big, hdrCandidate .big s) :=
  (if_neg hB).trans ((if_neg hL).trans (if_pos hBmax))

theorem resolve_of_little_fallback (hB : ¬ CandidateFits .big c s) (hL : ¬ CandidateFits .little c s)
    (hBmax : ¬ CandidateFits .big none s) (hLmax : CandidateFits .little none s) :
    resolve c s = some (.little, hdrCandidate .little s) :=
  (if_neg hB).trans ((if_neg hL).trans ((if_neg hBmax).trans (if_pos hLmax)))

/-- LITTLE alone within MAX_LEN: its branch within the capacity or the fallback's (R224, R225). -/
theorem resolve_of_little_only (hB : ¬ CandidateFits .big none s) (hL : CandidateFits .little none s) :
    resolve c s = some (.little, hdrCandidate .little s) := by
  have hBc : ¬ CandidateFits .big c s := fun h => hB (candidateFits_none_iff.2 h.le_maxLen)
  by_cases hLc : CandidateFits .little c s
  · exact resolve_of_little hBc hLc
  · exact resolve_of_little_fallback hBc hLc hB hL

/-- Without a candidate within MAX_LEN no branch is taken (R225). -/
theorem resolve_of_none (hB : ¬ CandidateFits .big none s) (hL : ¬ CandidateFits .little none s) :
    resolve c s = none := by
  have hBc : ¬ CandidateFits .big c s := fun h => hB (candidateFits_none_iff.2 h.le_maxLen)
  have hLc : ¬ CandidateFits .little c s := fun h => hL (candidateFits_none_iff.2 h.le_maxLen)
  exact (if_neg hBc).trans ((if_neg hLc).trans ((if_neg hB).trans (if_neg hL)))

/-! ### What an answer says -/

/-- RESOLVE answers with an order's own candidate, within MAX_LEN, or no candidate is within MAX_LEN (R223, R225). -/
theorem resolve_cases (c : Option Nat) (s : State) :
    (∃ e, resolve c s = some (e, hdrCandidate e s) ∧ CandidateFits e none s) ∨
    (resolve c s = none ∧ ∀ e, ¬ CandidateFits e none s) := by
  by_cases hBmax : CandidateFits .big none s
  · by_cases hB : CandidateFits .big c s
    · exact .inl ⟨.big, resolve_of_big hB, hBmax⟩
    · by_cases hL : CandidateFits .little c s
      · exact .inl ⟨.little, resolve_of_little hB hL, candidateFits_none_iff.2 hL.le_maxLen⟩
      · exact .inl ⟨.big, resolve_of_big_fallback hB hL hBmax, hBmax⟩
  · by_cases hLmax : CandidateFits .little none s
    · exact .inl ⟨.little, resolve_of_little_only hBmax hLmax, hLmax⟩
    · exact .inr ⟨resolve_of_none hBmax hLmax, fun e => by cases e <;> assumption⟩

theorem resolve_some {n : Word} (h : resolve c s = some (e, n)) :
    n = hdrCandidate e s ∧ n.toNat ≤ s.params.maxLen := by
  obtain ⟨e', hr, hfits⟩ | ⟨hr, -⟩ := resolve_cases c s <;> cases h.symm.trans hr
  exact ⟨rfl, hfits.le_maxLen⟩

/-- The capacity plays no part in whether RESOLVE fails (R225). -/
theorem resolve_eq_none_iff : resolve c s = none ↔
    s.params.maxLen < (hdrCandidate .big s).toNat ∧ s.params.maxLen < (hdrCandidate .little s).toNat := by
  simp only [← Nat.not_le, ← candidateFits_none_iff]
  refine ⟨fun h => ?_, fun ⟨hB, hL⟩ => resolve_of_none hB hL⟩
  obtain ⟨e, hr, -⟩ | ⟨-, hnone⟩ := resolve_cases c s
  · cases h.symm.trans hr
  · exact ⟨hnone .big, hnone .little⟩

/-- Where an order fits the capacity, RESOLVE takes one that does, and BIG if BIG does (R223, R224). -/
theorem resolve_within_capacity {k : Nat} (h : CandidateFits e (some k) s) :
    ∃ e', resolve (some k) s = some (e', hdrCandidate e' s) ∧ CandidateFits e' (some k) s ∧ (e = .big → e' = .big) := by
  by_cases hB : CandidateFits .big (some k) s
  · exact ⟨.big, resolve_of_big hB, hB, fun _ => rfl⟩
  · cases e with
    | big => exact absurd h hB
    | little => exact ⟨.little, resolve_of_little hB h, h, nofun⟩

end

/-- Settles O45: each clause is a branch of RESOLVE, or what its answer says of the candidates. -/
theorem autoTakesAPlausibleOrder : Obligations.AutoTakesAPlausibleOrder := by
  refine ⟨fun c s e n h => resolve_some h, fun c s => resolve_eq_none_iff, fun s hB => ?_, fun k s e hmax hk => ?_,
    fun k s hB hL hmax => ?_, fun c s hB hL => ?_⟩
  · exact resolve_of_big (candidateFits_none_iff.2 hB)
  · obtain ⟨e', hr, hfits, hbig⟩ := resolve_within_capacity (candidateFits_some_iff.2 ⟨hmax, hk⟩)
    exact ⟨e', _, hr, (candidateFits_some_iff.1 hfits).2, hbig⟩
  · have habove : ∀ e, k < (hdrCandidate e s).toNat → ¬ CandidateFits e (some k) s := fun e h hfits =>
      Nat.not_le.2 h (candidateFits_some_iff.1 hfits).2
    exact resolve_of_big_fallback (habove .big hB) (habove .little hL) (candidateFits_none_iff.2 hmax)
  · exact resolve_of_little_only (fun h => Nat.not_le.2 hB h.le_maxLen) (candidateFits_none_iff.2 hL)

end Sys2Proof.Machine
end

section
/-! SUPPORT. The decompression commands under AUTO (O58): the front end's answer is RESOLVE's (R250), so the failures of
the commands follow from RESOLVE's answer and the capacity. -/

namespace Sys2Proof.Machine

section
variable {c : Option Nat} {s : State}

/-- AUTO and a source of a header at least: DPREP hands on what RESOLVE finds (R250). -/
theorem dprep_of_resolve_some {r : ByteOrder × Word} (he : s.lat.eIn = 2) (h4 : 4 ≤ s.nSrc)
    (h : resolve c s = some r) : dprep c s = .ok r := by
  have h0 : s.nSrc ≠ 0 := by omega
  simp [dprep, endianOf, he, h0, Nat.not_lt.2 h4, h]

/-- AUTO without a plausible order is BadFormat (R225, R250). -/
theorem dprep_of_resolve_none (he : s.lat.eIn = 2) (h4 : 4 ≤ s.nSrc) (h : resolve c s = none) :
    dprep c s = .error .badFormat := by
  have h0 : s.nSrc ≠ 0 := by omega
  simp [dprep, endianOf, he, h0, Nat.not_lt.2 h4, h]

/-- The capacity fallback: no candidate within the capacity, one within MAX_LEN, so RESOLVE answers with a length above
the capacity (R225). -/
theorem resolve_above_capacity {k : Nat} (hB : k < (hdrCandidate .big s).toNat)
    (hL : k < (hdrCandidate .little s).toNat) {e : ByteOrder} (hmax : (hdrCandidate e s).toNat ≤ s.params.maxLen) :
    ∃ e' n, resolve c s = some (e', n) ∧ k < n.toNat := by
  obtain ⟨e', hr, -⟩ | ⟨-, hnone⟩ := resolve_cases c s
  · refine ⟨e', _, hr, ?_⟩
    cases e' with
    | big => exact hB
    | little => exact hL
  · exact absurd (candidateFits_none_iff.2 hmax) (hnone e)

end

/-- Settles O58: DPREP's answer under AUTO, then what the commands make of it. -/
theorem autoDecompressionFollowsResolve : Obligations.AutoDecompressionFollowsResolve := by
  refine ⟨fun c s he h4 => ⟨fun r => dprep_of_resolve_some he h4, dprep_of_resolve_none he h4⟩,
    fun s e n ho he h4 hcap => ⟨fun hr => ?_, fun hr => ?_⟩, fun s e ho he h4 hB hL hmax => ?_,
    fun i s hi ho he h4 hB hL => ?_⟩
  · exact decompressWith_small _ ho (dprep_of_resolve_some he h4 hr) hcap
  · exact decompressWith_small _ ho (dprep_of_resolve_some he h4 hr) hcap
  · obtain ⟨e', n, hr, hcap⟩ := resolve_above_capacity (c := some s.cap) hB hL hmax
    exact decompressWith_small _ ho (dprep_of_resolve_some he h4 hr) hcap
  · exact decompression_fails hi ho fun c => dprep_of_resolve_none he h4 (resolve_eq_none_iff.2 ⟨hB, hL⟩)

end Sys2Proof.Machine
end

section
/-! SUPPORT. The commands' checks and CRYPT (O38, O42), the step that runs a started command (O2), and BadFormat inside
DECODE (O30). -/

namespace Sys2Proof.Machine

/-! ### The checks of COMPRESS and ARCHIVE (R241, R287) -/

theorem compressPrep_of_oversize {s : State} (hmax : s.params.maxLen < s.nSrc) :
    compressPrep s = .error .invalidArgument := by
  obtain ⟨-, -, hle, -⟩ | ⟨herror, -⟩ | ⟨-, -, hle, -⟩ := compressPrep_cases s
  · omega
  · exact herror
  · omega

theorem compressPrep_of_short_capacity {s : State} (he : s.lat.eIn.toNat < 2) (hmax : s.nSrc ≤ s.params.maxLen)
    (hcap : s.cap < maxSize s.nSrc) : compressPrep s = .error .outOfMemory := by
  obtain ⟨-, -, -, hle⟩ | ⟨-, hfail⟩ | ⟨herror, -⟩ := compressPrep_cases s
  · omega
  · omega
  · exact herror

/-- COMPRESS and ARCHIVE report the kind their checks raise, with DST unchanged (R283). -/
theorem compression_fails {i : Instr} {s : State} {k : ErrKind} (hi : i ∈ [.compress, .archive])
    (ho : s.overlapping = false) (h : compressPrep s = .error k) : ∃ t, exec i s = .next t ∧ FailedWith k s t := by
  obtain ⟨finder, -, hexec⟩ := exec_eq_compressWith hi
  exact ⟨raiseError k s, (hexec s).trans (compressWith_of_error finder ho h), failedWith_raiseError k s⟩

/-- Settles O38: each clause is the first check that fails. -/
theorem compressionChecksComeFirst : Obligations.CompressionChecksComeFirst := fun _ _ hi ho he =>
  ⟨fun hmax => compression_fails hi ho (compressPrep_of_oversize hmax),
    fun hmax hcap => compression_fails hi ho (compressPrep_of_short_capacity he hmax hcap)⟩

/-! ### CRYPT (R247) -/

section
variable {s : State} {e : ByteOrder}

theorem cryptPrep_of_fixed (he : endianOf s.lat.eIn = some (some e)) (hcap : s.nSrc ≤ s.cap) :
    cryptPrep s = .ok e := by
  simp [cryptPrep, he, Nat.not_lt.2 hcap]

theorem cryptPrep_of_small (he : endianOf s.lat.eIn = some (some e)) (hcap : s.cap < s.nSrc) :
    cryptPrep s = .error .bufferTooSmall := by
  simp [cryptPrep, he, hcap]

theorem execCrypt_of_ok (ho : s.overlapping = false) (h : cryptPrep s = .ok e) :
    execCrypt s = .next (finish s.nSrc (ksXor s.nSrc s.lat.key e (copySrc s.nSrc 0 s))) := by
  simp [execCrypt, ho, h]

end

/-- The keystream over the copied source: each byte below `k` is the source byte XORed with its keystream byte. -/
theorem get_ksXor_copySrc (k : Nat) (key : Word) (e : ByteOrder) (s : State) {i : Nat} (hi : i < k) :
    (ksXor k key e (copySrc k 0 s)).dst.get i = some (s.srcByte i ^^^ ksByte s.params key e i) := by
  have hcopied : (copySrc k 0 s).dstByte i = s.srcByte i := by
    rw [State.dstByte, get_copySrc, if_pos (by omega), Option.getD_some]
  rw [get_ksXor, if_pos hi, hcopied, (worked_copySrc k 0 s).params]

/-- Settles O42: the copy followed by the keystream pass, or the capacity check. -/
theorem cryptXorsTheSourceIntoDst : Obligations.CryptXorsTheSourceIntoDst := by
  refine fun s e ho he => ⟨fun hcap => ?_, fun hcap => ?_⟩
  · refine ⟨_, execCrypt_of_ok ho (cryptPrep_of_fixed he hcap), ?_, fun i hi => ?_, ?_⟩
    · exact ended_finish ((worked_copySrc s.nSrc 0 s).trans (worked_ksXor _ _ _ _)) s.nSrc
    · exact get_ksXor_copySrc s.nSrc s.lat.key e s hi
    · exact (dstKeptFrom_copySrc s.nSrc s).trans (dstKeptFrom_ksXor _ _ _ _)
  · exact ⟨raiseError .bufferTooSmall s, execCrypt_of_error ho (cryptPrep_of_small he hcap),
      failedWith_raiseError .bufferTooSmall s⟩

/-! ### A step with a command started (R240) -/

theorem engineStep_started {s : State} {code : Word} (hbusy : s.busy = true) (hcode : s.code = some code) :
    engineStep s = exec (decodeCommand code) { s with code := none } := by
  simp [engineStep, hbusy, hcode]

/-- Settles O2: whichever way the host leaves the engine to move, its move is the started command. -/
theorem stepRunsStartedCommand : Obligations.StepRunsStartedCommand := fun s _ hbusy hcode =>
  ⟨fun hin => (step_of_no_inputs hin).trans (engineStep_started hbusy hcode),
    fun rest hin => (step_letRun hin).trans (engineStep_started (s := { s with inputs := rest }) hbusy hcode),
    fun _ hin hdone => (step_wait_busy hin hdone hbusy).trans (engineStep_started hbusy hcode)⟩

/-! ### BadFormat inside DECODE (R251) -/

theorem dstKeptFrom_freeDst (n : Nat) (s : State) : DstKeptFrom n s (s.freeDst n) := fun a ha =>
  (get_setPrefix n _ s.dst a).trans (if_neg (Nat.not_lt.2 ha))

/-- Settles O30: only the bytes below `min N cap` take free values. -/
theorem badFormatInDecodeLeavesLaterBytes : Obligations.BadFormatInDecodeLeavesLaterBytes := fun s =>
  ⟨ended_raiseInDecode s, dstKeptFrom_freeDst (min s.declared s.cap) s⟩

end Sys2Proof.Machine
end

section
/-! SUPPORT. What the host meets at the block's edges: an idle engine and a pending WAIT (O4), register writes while BUSY
(O6), and the end of a command (O12). -/

namespace Sys2Proof.Machine

/-! ### An idle engine and WAIT (R89, R311) -/

theorem engineStep_idle {s : State} (hidle : s.busy = false) : engineStep s = .next s := by
  simp [engineStep, hidle]

/-- A WAIT is over once a command has completed, and reads that from STATUS (R89). -/
theorem step_wait_done {s : State} {rest : List HostOp} (h : s.inputs = .wait :: rest) (hdone : s.done = true) :
    step s = .next { s with inputs := rest, lastRead := statusWord s } := by
  unfold step nextMove
  rw [h]
  exact if_pos hdone

/-- A WAIT on an idle block that has completed nothing polls STATUS and stays pending (R89). -/
theorem step_wait_idle {s : State} {rest : List HostOp} (h : s.inputs = .wait :: rest) (hdone : s.done = false)
    (hidle : s.busy = false) : step s = .next { s with lastRead := statusWord s } := by
  simp [step, nextMove, h, hdone, hidle, hostAccess]

/-- Settles O4: the three ends of a WAIT by DONE and BUSY, and the engine's own moves. -/
theorem idleStepsAndWait : Obligations.IdleStepsAndWait :=
  ⟨fun _ hin hidle => (step_of_no_inputs hin).trans (engineStep_idle hidle), fun _ _ h hdone => step_wait_done h hdone,
    fun _ _ h hdone hbusy => step_wait_busy h hdone hbusy, fun _ _ h hdone hidle => step_wait_idle h hdone hidle,
    fun _ _ h => step_letRun h⟩

/-! ### Register writes while BUSY (R314) -/

/-- While BUSY a register write replaces operand registers at most: the CMD write that would start a command is
ignored (R22, R314). -/
theorem writeReg_busy {s : State} (hbusy : s.busy = true) (offset : Nat) (v : Word) :
    ∃ endian key keyEn srcLen dstCap, writeReg offset v s = s.withOperands endian key keyEn srcLen dstCap := by
  obtain ⟨-, hidle, -⟩ | hoperands := writeReg_cases offset v s
  · exact absurd (hbusy.symm.trans hidle) (by decide)
  · exact hoperands

/-- Settles O6: no operand register is read by the running command. -/
theorem registerWritesWhileBusyDoNotReachTheCommand : Obligations.RegisterWritesWhileBusyDoNotReachTheCommand := by
  refine ⟨fun s v hbusy => if_pos hbusy, fun s offset v hbusy => ?_⟩
  obtain ⟨endian, key, keyEn, srcLen, dstCap, hwrite⟩ := writeReg_busy hbusy offset v
  rw [hwrite]
  exact ⟨rfl, rfl, rfl, rfl, rfl, hbusy, rfl, rfl⟩

/-! ### The end of a command (R280, R283) -/

/-- Settles O12: `finish` and `raise` end the command by the frame `Ended`, with DST as it was. -/
theorem commandEndWritesResultAndStatus : Obligations.CommandEndWritesResultAndStatus :=
  ⟨fun k s => failedWith_raiseError k s, fun v s => ⟨ended_finish (Worked.refl s) v, rfl⟩,
    fun _ => ⟨rfl, rfl, rfl, rfl⟩⟩

end Sys2Proof.Machine
end

section
/-! SUPPORT. How far a running command writes (O11): the extent that a reset frees (R310) bounds the command's own writes,
at its start and inside DECODE. -/

namespace Sys2Proof.Machine

/-! ### Writes inside DECODE (R160, R251) -/

theorem Appended.dstKeptFrom {s t : State} (h : Appended s t) : DstKeptFrom (min s.declared s.cap) s t := by
  obtain ⟨-, hdeclared, hcap, -, hkeep, -⟩ := h
  exact fun a ha => hkeep a (.inr (le_trans (le_min hdeclared hcap) ha))

theorem dstKeptFrom_raiseInDecode_extent (s : State) : DstKeptFrom (min s.declared s.cap) s (raiseInDecode s) :=
  dstKeptFrom_freeDst (min s.declared s.cap) s

/-- A token step writes below `N` and below `cap`. -/
theorem dstKeptFrom_tokenStep {s t : State} (h : tokenStep s = .next t) : DstKeptFrom (min s.declared s.cap) s t := by
  obtain ⟨r, u, hu, ha, -⟩ | ⟨r, hu, -⟩ | ⟨r, hu⟩ | ⟨hu, -⟩ := tokenStep_cases s <;> cases h.symm.trans hu
  · exact ha.dstKeptFrom
  · exact dstKeptFrom_of_dst_eq _ rfl
  · exact dstKeptFrom_raiseInDecode_extent { s with eng := { s.eng with reader := r } }

/-- DECODE writes below the declared length. -/
theorem dstKeptFrom_decode_declared {s t : State} (hcap : s.declared ≤ s.cap) (h : decode s = .next t) :
    DstKeptFrom s.declared s t := by
  obtain ⟨r, r', u, ha, hend⟩ := decode_ends hcap
  have hmin : min s.declared s.cap = s.declared := min_eq_left hcap
  have hkept : DstKeptFrom s.declared s u := hmin ▸ ha.dstKeptFrom
  obtain ⟨hend, -⟩ | hend := hend <;> obtain rfl := Host.Outcome.next.inj (h.symm.trans hend)
  · exact hkept.trans (dstKeptFrom_of_dst_eq _ rfl)
  · have hraise := dstKeptFrom_raiseInDecode_extent { u with eng := { u.eng with reader := r' } }
    have hu : min (State.declared { u with eng := { u.eng with reader := r' } })
        (State.cap { u with eng := { u.eng with reader := r' } }) = s.declared := by
      rw [← hmin]
      exact congrArg₂ min ha.declared ha.cap
    exact hkept.trans (hu ▸ hraise)

/-! ### The extent (R310) -/

theorem writeExtent_idle {s : State} (hidle : s.busy = false) : writeExtent s = 0 := by simp [writeExtent, hidle]

theorem writeExtent_insideDecode {s : State} (hbusy : s.busy = true) (hcode : s.code = none) :
    writeExtent s = min s.declared s.cap := by
  simp [writeExtent, hbusy, hcode]

/-- The host's accesses still to come do not count: the length of a stream follows from the operands alone. -/
theorem writeExtent_setInputs (s : State) (rest : List HostOp) :
    writeExtent { s with inputs := rest } = writeExtent s := by
  simp only [writeExtent, outPos_writeStream sendsTokens_find, outPos_writeStream sendsTokens_findLiteral]
  rfl

/-! ### Writes of a command (R241, R244, R245, R247)

A command the engine has taken writes below any bound on what its checks, when they pass, let it write. -/

section
variable {s t : State} {k : Nat}

theorem sameOperands_taken (s : State) : SameOperands s { s with code := none } := rfl

theorem dstKeptFrom_compressWith_of_bound {finder : (Nat → Byte) → Nat → Nat → Decision} (hf : Faithful finder)
    (h : compressWith finder { s with code := none } = .next t)
    (hk : ∀ need, compressPrep s = .ok need → (writeStream finder need s).eng.outPos ≤ k) : DstKeptFrom k s t := by
  obtain ⟨hu, -⟩ | ⟨kind, -, hu⟩ | ⟨-, hp, hu⟩ := compressWith_cases finder { s with code := none } <;>
    cases h.symm.trans hu
  · exact dstKeptFrom_of_dst_eq _ rfl
  · rw [(sameOperands_taken s).compressPrep] at hp
    have hlength := hk _ hp
    rw [outPos_writeStream hf.sends] at hlength
    have hkept := (writeStream_within hf.copies (maxSize s.nSrc) { s with code := none }).2
    refine (hkept.trans (dstKeptFrom_encryptAndFinish _)).mono ?_
    rw [outPos_writeStream hf.sends]
    exact hlength

theorem dstKeptFrom_decompressWith_of_bound {c : Option Nat} {small : ErrKind}
    (h : decompressWith c small { s with code := none } = .next t)
    (hk : ∀ e n, decompressPrep c small s = .ok (e, n) → n.toNat ≤ k) : DstKeptFrom k s t := by
  obtain ⟨hu, -⟩ | ⟨kind, -, hu⟩ | ⟨e, n, -, hp, hu⟩ := decompressWith_cases c small { s with code := none }
  · cases h.symm.trans hu
  · cases h.symm.trans hu
    exact dstKeptFrom_of_dst_eq _ rfl
  · rw [(sameOperands_taken s).decompressPrep] at hp
    have hcap : n.toNat ≤ s.cap := (decompressPrep_ok hp).2
    have hkept := dstKeptFrom_decode_declared (s := setStream e n { s with code := none }) hcap (hu.symm.trans h)
    exact hkept.mono (hk e n hp)

theorem dstKeptFrom_execCrypt_of_bound (h : execCrypt { s with code := none } = .next t)
    (hk : ∀ e, cryptPrep s = .ok e → s.nSrc ≤ k) : DstKeptFrom k s t := by
  obtain ⟨hu, -⟩ | ⟨kind, -, hu⟩ | ⟨e, -, hp, hu⟩ := execCrypt_cases { s with code := none } <;>
    cases h.symm.trans hu
  · exact dstKeptFrom_of_dst_eq _ rfl
  · rw [(sameOperands_taken s).cryptPrep] at hp
    exact ((dstKeptFrom_copySrc s.nSrc { s with code := none }).trans (dstKeptFrom_ksXor _ _ _ _)).mono (hk e hp)

end

/-- The command that a code starts writes within the extent. -/
theorem dstKeptFrom_startedCommand {s t : State} {code : Word} (hbusy : s.busy = true) (hcode : s.code = some code)
    (h : exec (decodeCommand code) { s with code := none } = .next t) : DstKeptFrom (writeExtent s) s t := by
  have hcommand := isCommand_decodeCommand code
  cases hi : decodeCommand code <;> rw [hi] at h hcommand
  case lit | scopy | eos | lcopy | lcopyx => cases hcommand
  case compress =>
    exact dstKeptFrom_compressWith_of_bound faithful_find h fun need hp => by
      simp [writeExtent, hbusy, hcode, hi, hp]
  case archive =>
    exact dstKeptFrom_compressWith_of_bound faithful_findLiteral h fun need hp => by
      simp [writeExtent, hbusy, hcode, hi, hp]
  case decompressBuf =>
    exact dstKeptFrom_decompressWith_of_bound h fun e n hp => by simp [writeExtent, hbusy, hcode, hi, hp]
  case decompressBuf2 =>
    exact dstKeptFrom_decompressWith_of_bound (c := some s.cap) h fun e n hp => by
      simp [writeExtent, hbusy, hcode, hi, hp]
  case crypt => exact dstKeptFrom_execCrypt_of_bound h fun e hp => by simp [writeExtent, hbusy, hcode, hi, hp]
  case decompressSize => exact dstKeptFrom_of_dst_eq _ (dst_execDecompressSize h)
  case maxCompressedSize | illegalCmd => cases h; exact dstKeptFrom_of_dst_eq _ rfl

/-- The engine's move writes within the extent of the command it runs. -/
theorem dstKeptFrom_engineStep {s t : State} (h : engineStep s = .next t) : DstKeptFrom (writeExtent s) s t := by
  obtain ⟨hu, -⟩ | ⟨code, hcode, hbusy, hu⟩ | ⟨hcode, hbusy, hu⟩ := engineStep_cases s
  · cases h.symm.trans hu
    exact dstKeptFrom_of_dst_eq _ rfl
  · exact dstKeptFrom_startedCommand hbusy hcode (hu.symm.trans h)
  · rw [writeExtent_insideDecode hbusy hcode]
    exact dstKeptFrom_tokenStep (hu.symm.trans h)

/-! ### Reset (R310) -/

theorem dst_freeDst_zero (s : State) : (s.freeDst 0).dst = s.dst := by simp [Memory.setPrefix]

/-- A reset that is not refused frees the extent of the running command and takes every register to its reset value. -/
theorem step_reset {s : State} {rest : List HostOp} (h : s.inputs = .reset :: rest) (ho : runsOverlapped s = false) :
    step s = .next { s.freeDst (writeExtent s) with
      endian := 0, key := 0, keyEn := false, srcLen := 0, dstCap := 0, busy := false, done := false, result := 0,
      code := none, lat := Latches.reset, eng := Engine.reset, inputs := rest } := by
  have hallowed : ¬ runsOverlapped { s with inputs := rest } = true := ne_true_of_eq_false ho
  rw [step_hostAccess h, ← writeExtent_setInputs s rest]
  exact if_neg hallowed

/-- Settles O11: a reset frees the extent of the running command, which is empty while idle, and the engine's own move
stays within it. -/
theorem resetAbandonsTheRunningCommand : Obligations.ResetAbandonsTheRunningCommand := by
  refine ⟨fun s rest hin ho => ?_, fun s t _ hin h => dstKeptFrom_engineStep ((step_of_no_inputs hin).symm.trans h)⟩
  refine ⟨_, step_reset hin ho, rfl, rfl, rfl, rfl, rfl, rfl, rfl, rfl, rfl, rfl, rfl, rfl, rfl, rfl,
    dstKeptFrom_freeDst (writeExtent s) s, fun hidle => ?_⟩
  rw [writeExtent_idle hidle]
  exact dst_freeDst_zero s

end Sys2Proof.Machine
end
